-- ==== Sys2Proof/Word.lean ====
section
/-! DEFINITION. The words of the DPU: 32-bit registers, addresses and binary32 patterns (spec/00_scope.md R3),
16-bit samples, and the bytes of DMEM. -/

namespace Sys2Proof

/-- A register, a DMEM address, a binary32 pattern or an integer operand: 32 bits (R3). -/
abbrev Word := BitVec 32

/-- A fixed-point sample: 16 bits, two's complement (R3). -/
abbrev Half := BitVec 16

/-- The smallest unit of DMEM (R47). -/
abbrev Byte := BitVec 8

end Sys2Proof
end

