-- ==== Sys2Proof/Config.lean ====
section
/-! DEFINITION. The implementation parameters of spec/00_scope.md R3, with the constraints R3 puts on them. -/

namespace Sys2Proof

/-- The parameters a model takes as arguments (R3). CMD_LATENCY is left out: no rule depends on it (R246).
DESIGN CHOICE (log entry 2, safe): the parameters stand in `State`, which no step changes, so that a statement about
every state is a statement about every unit that R3 allows. -/
structure Config where
  /-- DMEM_SIZE: bytes of data memory. -/
  dmemSize : Nat
  /-- DMEM_WINDOW: offset of the DMEM window within the aperture. -/
  dmemWindow : Nat
  /-- APERTURE_BASE: host address of the aperture; the platform fixes it (R3, R76, I14). -/
  apertureBase : Nat
  deriving DecidableEq, Repr

/-- The constraints of R3's table. -/
abbrev Config.wf (c : Config) : Prop :=
  c.dmemSize % 32 = 0 ∧ 64 ≤ c.dmemSize ∧ c.dmemSize ≤ 2 ^ 31 ∧ c.dmemWindow % c.dmemSize = 0 ∧ 0x100 ≤ c.dmemWindow

/-- R3's defaults. DESIGN CHOICE (log entry 2): R3 gives APERTURE_BASE no default, and this is 0. -/
def Config.default : Config := { dmemSize := 65536, dmemWindow := 0x00010000, apertureBase := 0 }

end Sys2Proof
end

