-- ==== Sys2Proof/Syntax.lean ====
section
/-! DEFINITION. Descriptors and commands: the eight words of spec/30_encoding.md R91, and one constructor of `Instr`
for each row of the opcode map R94. -/

namespace Sys2Proof

/-- One descriptor: eight 32-bit words at byte offsets 0, 4, ..., 28 (R90, R91). -/
structure Descriptor where
  /-- CTL, the control word (R92). -/
  w0 : Word
  /-- A, the first source address. -/
  w1 : Word
  /-- B, the second source address, or SCALAR. -/
  w2 : Word
  /-- D, the destination address. -/
  w3 : Word
  /-- C, the biquad coefficient vector address. -/
  w4 : Word
  /-- S, the biquad state vector address. -/
  w5 : Word
  /-- LEN, the element count. -/
  w6 : Word
  /-- RSV, ignored by every command. -/
  w7 : Word
  deriving DecidableEq, Repr

/-- The descriptor whose eight words are all zero (it is END, R129). -/
def Descriptor.zero : Descriptor := ⟨0, 0, 0, 0, 0, 0, 0, 0⟩

/-- The commands, in the order of the opcode map R94. Operands stand destination first, as R100 writes them; they are
taken from the descriptor as they stand (R93). -/
inductive Instr where
  /-- END (R129): the list terminator. -/
  | endList
  /-- CONV16 (R142): binary32 block at `a` to saturated 16-bit block at `d`. -/
  | conv16 (d a len : Word)
  /-- FILL (R152): every element of the block at `d` becomes `scalar`. -/
  | fill (d scalar len : Word)
  /-- SUB (R153): d[k] = a[k] - b[k]. -/
  | sub (d a b len : Word)
  /-- SCALE (R154): d[k] = a[k] * scalar. -/
  | scale (d a scalar len : Word)
  /-- OFFSET (R155): d[k] = a[k] + scalar. -/
  | offset (d a scalar len : Word)
  /-- MUL (R156): d[k] = a[k] * b[k]. -/
  | mul (d a b len : Word)
  /-- BQINIT (R171): zero the state vector of `nst` stages at `s`. -/
  | bqinit (s : Word) (nst : BitVec 8)
  /-- BIQUAD (R173): filter the block at `a` into `d` through `nst` stages with coefficients `c` and state `s`. -/
  | biquad (d a c s : Word) (nst : BitVec 8) (len : Word)
  /-- SSHR (R191): the word at `a`, shifted right by `sh` and saturated to `bw` bits, into `d`. -/
  | sshr (d a : Word) (sh : BitVec 5) (bw : BitVec 6)
  deriving DecidableEq, Repr

end Sys2Proof
end

