-- ==== Sys2Proof/Machine/State.lean ====
section
/-! DEFINITION. The state of the DPU as plain data: the registers of spec/10_state.md, DMEM, the sequencer's hidden state
(R48), the parameters (R3), and the model's own schedule of turns and last bus response. -/

namespace Sys2Proof.Machine

/-- Why a step of the MODEL stops. The DPU's own six faults (R200) are traps and lead to a next state; they are not here. -/
inductive Fault where
  /-- Raised by `accessStep` alone, before a single sequencer access to DMEM bytes outside 0 .. DMEM_SIZE-1. R124 and R7 say
  that no such access ever happens, and no state that a run reaches makes one (log entry 9). Safe. -/
  | dmemOutOfRange (addr bytes : Nat)
  deriving DecidableEq, Repr

/-- Why a step gives no meaning at all. -/
inductive Refusal where
  /-- An instruction with no meaning yet, rejected by its arm of `exec`. No arm of this model answers it. Safe. -/
  | notModelled (mnemonic : String)
  deriving DecidableEq, Repr

/-- The cause codes of R200 by name. -/
inductive FaultCode where
  | fetchOor | illegalOp | rsvdField | badParam | misaligned | dataOor
  deriving DecidableEq, Repr

/-- CTRL's stored fields (R35). START is write-only and the reserved bits are RAZ/WI, so neither is stored. -/
structure Ctrl where
  prefilt : Bool
  irqen : Bool
  deriving DecidableEq, Repr

/-- STATUS's stored fields (R37). The reserved bits are RAZ/WI and are not stored (log entry 10). -/
structure Status where
  busy : Bool
  done : Bool
  err : Bool
  nv : Bool
  ecode : BitVec 8
  eopnd : BitVec 3
  deriving DecidableEq, Repr

/-- Where in the command cycle R121 the sequencer stands between two of its single accesses. -/
inductive Phase where
  /-- Word `j` of the descriptor is fetched next (R122). `fetch 0` is the boundary between two commands. -/
  | fetch (j : Fin 8)
  /-- The descriptor is latched, and decoding and validation come next (R123, R124). -/
  | decode
  /-- Execute is under way (R125). -/
  | execute
  /-- CMDCOUNT has been updated, and the update of CMDPTR comes next (R127, R81). -/
  | advance
  deriving DecidableEq, Repr

/-- The hidden state of R48, and what R74 and R81 imply beside it for a command stopped between two accesses. -/
structure Sequencer where
  phase : Phase
  /-- The latched copy of the current descriptor (R48, R122). -/
  desc : Descriptor
  /-- The index of the element being processed (R48). -/
  k : Nat
  /-- BIQUAD's stage index (R48). -/
  i : Nat
  /-- BIQUAD's intermediate sample value passed between stages (R48, R173). -/
  x : Word
  /-- How many actions of the current element and stage are done (log entry 8). -/
  pos : Nat
  /-- The values read so far for the current element and stage, oldest first (log entry 8). -/
  rd : List Word
  deriving DecidableEq, Repr

/-- One transaction of the host, or of the platform, at a host address (R30, R31, R33). -/
inductive HostTxn where
  /-- A read of `bytes` bytes. -/
  | read (addr bytes : Nat)
  /-- A write of the low `bytes` bytes of `value`. -/
  | write (addr bytes : Nat) (value : Word)
  /-- A reset event (R33, R230). -/
  | reset
  deriving DecidableEq, Repr

/-- Who moves next in the memory order R80. -/
inductive Turn where
  /-- The host makes one transaction. -/
  | host (t : HostTxn)
  /-- The sequencer makes one single access, or one internal step between two of them. -/
  | sequencer
  deriving DecidableEq, Repr

/-- The response on the host bus (R30, R31). -/
inductive Reply where
  /-- A read's value, zero-extended. -/
  | data (v : Word)
  /-- A write was taken (or ignored without error, R34, R40, R44). -/
  | ack
  /-- A bus error: no DPU state changed (R30, R31, R205). -/
  | busError
  deriving DecidableEq, Repr

/-- DMEM as the list of its bytes that differ from what an unlisted address reads as, by rising address. -/
abbrev Memory := List Host.Cell

/-- The whole machine. -/
structure State where
  /-- The parameters R3. No step changes them. -/
  cfg : Config
  /-- CTRL (R35). -/
  ctrl : Ctrl
  /-- STATUS (R37). -/
  status : Status
  /-- CMDPTR (R40), the machine's program counter (R6). -/
  cmdptr : Word
  /-- FAULTADDR (R41). -/
  faultaddr : Word
  /-- CMDCOUNT (R42). -/
  cmdcount : Word
  /-- DMEM (R47). -/
  mem : Memory
  /-- The sequencer's hidden state (R48). -/
  seq : Sequencer
  /-- The model's own: the pending turns, oldest first (log entry 3). -/
  turns : List Turn
  /-- The model's own: the response to the last host transaction (log entry 6). -/
  reply : Option Reply
  deriving DecidableEq, Repr

/-- The hidden state between two commands, after a run's end and after reset: nothing latched, nothing carried (R48).
DESIGN CHOICE (log entry 8): what no register shows and nothing reads holds 0. -/
def Sequencer.idle : Sequencer :=
  { phase := .fetch 0, desc := .zero, k := 0, i := 0, x := 0, pos := 0, rd := [] }

/-- The machine right after reset, with R3's default parameters: R34's and R230's register values. DESIGN CHOICE (log entry 1,
unsafe): DMEM, which reset does not set (R231), lists nothing here. -/
def State.reset : State :=
  { cfg := .default
    ctrl := { prefilt := false, irqen := false }
    status := { busy := false, done := false, err := false, nv := false, ecode := 0, eopnd := 0 }
    cmdptr := 0
    faultaddr := 0
    cmdcount := 0
    mem := []
    seq := .idle
    turns := []
    reply := none }

end Sys2Proof.Machine
end

