-- ==== Sys2Proof/Machine/Ops.lean ====
section
/-! DEFINITION. The shared operations: DMEM read and written byte by byte in canonical form (spec/20_memory.md), the
sequence of actions of a command's element, trap entry (R206), the end of a run (R129) and completion (R127). -/

namespace Sys2Proof.Machine

/-! ### DMEM -/

/-- What an address with no entry reads as. DESIGN CHOICE (log entry 1, unsafe for `State.reset` only): R47 and R231 leave the
power-up contents open. Every contents of DMEM is some list of entries, so a statement about every memory loses nothing. -/
def Memory.unlisted : Byte := 0x00#8

/-- The canonical form: addresses strictly rise, and no entry equals what an unlisted address reads as. -/
abbrev Memory.wf (m : Memory) : Prop :=
  m.Pairwise (fun c d => c.1 < d.1) ∧ ∀ c ∈ m, c.2 ≠ Memory.unlisted

/-- Every entry lies in DMEM's `n` bytes (R47). -/
abbrev Memory.within (n : Nat) (m : Memory) : Prop := ∀ c ∈ m, c.1 < n

/-- The byte at an address (R75: a read has no side effect). -/
def Memory.readByte : Memory → Nat → Byte
  | [], _ => Memory.unlisted
  | (b, v) :: m, a => if b = a then v else Memory.readByte m a

/-- An entry put in its place by address. -/
def Memory.insert : Memory → Nat → Byte → Memory
  | [], a, v => [(a, v)]
  | (b, w) :: m, a, v => if a < b then (a, v) :: (b, w) :: m else (b, w) :: Memory.insert m a v

/-- The byte at an address replaced, in canonical form: the value an unlisted address reads as leaves no entry. -/
def Memory.writeByte (m : Memory) (a : Nat) (v : Byte) : Memory :=
  let rest := m.filter fun c => c.1 ≠ a
  if v = Memory.unlisted then rest else Memory.insert rest a v

/-- `MemRead(addr, n)` of R7: little-endian, the byte at `addr` least significant (R71). -/
def Memory.readLE (m : Memory) (a : Nat) : Nat → Nat
  | 0 => 0
  | n + 1 => (m.readByte a).toNat + 256 * Memory.readLE m (a + 1) n

/-- `MemWrite(addr, n, v)` of R7: the low `n` bytes of `v`, the least significant at `addr` (R71). -/
def Memory.writeLE (m : Memory) (a : Nat) : Nat → Nat → Memory
  | 0, _ => m
  | n + 1, v => Memory.writeLE (m.writeByte a (BitVec.ofNat 8 v)) (a + 1) n (v / 256)

/-- A 4-byte read: a binary32 element, a 32-bit integer or a descriptor word (R72). -/
def Memory.read32 (m : Memory) (a : Nat) : Word := BitVec.ofNat 32 (m.readLE a 4)

/-- A 4-byte write (R72). -/
def Memory.write32 (m : Memory) (a : Nat) (v : Word) : Memory := m.writeLE a 4 v.toNat

/-- A 2-byte write: a CONV16 result (R72). -/
def Memory.write16 (m : Memory) (a : Nat) (v : Half) : Memory := m.writeLE a 2 v.toNat

/-- R77: `n` bytes starting at `a` are in range. The sum is on unbounded integers, so no range wraps. -/
def inRange (size a n : Nat) : Bool := n = 0 || a + n ≤ size

/-! ### A command's actions -/

/-- The actions of one element (of one stage, for BIQUAD) in the order its pseudocode gives them (R81, R150, R173): 4-byte
DMEM reads, DMEM writes of `bytes` bytes, and the setting of STATUS.NV (R141). `ret` hands on the value passed to the next
stage. It is a program text, never part of a state. -/
inductive Prog where
  | ret (x : Word)
  | read (addr : Nat) (k : Word → Prog)
  | write (addr bytes value : Nat) (k : Prog)
  | setNV (k : Prog)

/-- STATUS.NV <- 1 (R141). -/
def State.withNV (s : State) : State := { s with status := { s.status with nv := true } }

/-- DMEM replaced. -/
def State.withMem (s : State) (m : Memory) : State := { s with mem := m }

/-- The actions carried out one after another with nothing in between; the value handed on, and the state they leave. -/
def Prog.run : Prog → State → Word × State
  | .ret x, s => (x, s)
  | .read a k, s => (k (s.mem.read32 a)).run s
  | .write a n v k, s => k.run (s.withMem (s.mem.writeLE a n v))
  | .setNV k, s => k.run s.withNV

/-- What is left of the actions when `pos` of them are done and `rd` are the values the reads among them gave. -/
def Prog.resume : Prog → Nat → List Word → Prog
  | p, 0, _ => p
  | .ret x, _ + 1, _ => .ret x
  | .read a k, n + 1, rd =>
    match rd with
    | [] => .read a k
    | v :: rd => (k v).resume n rd
  | .write _ _ _ k, n + 1, rd => k.resume n rd
  | .setNV k, n + 1, rd => k.resume n rd

/-! ### Faults, end of a run, completion -/

/-- The value recorded in ECODE (R200). -/
def FaultCode.ecode : FaultCode → BitVec 8
  | .fetchOor => 0x01#8
  | .illegalOp => 0x02#8
  | .rsvdField => 0x03#8
  | .badParam => 0x04#8
  | .misaligned => 0x05#8
  | .dataOor => 0x06#8

/-- Trap entry, `raise Fault(code, opnd, addr)` (R206, R8). The run ends, so the hidden state is dropped (R48). CMDPTR,
CMDCOUNT, CTRL, DONE, NV and DMEM are unchanged. The handler is the host; there is no return command (R207). -/
def State.trap (s : State) (code : FaultCode) (opnd : BitVec 3) (addr : Word) : State :=
  { s with
    status := { s.status with ecode := code.ecode, eopnd := opnd, err := true, busy := false }
    faultaddr := addr
    seq := .idle }

/-- EndRun (R129): BUSY <- 0 and DONE <- 1 in one step (R82); the hidden state is dropped (R48). -/
def State.endRun (s : State) : State :=
  { s with status := { s.status with busy := false, done := true }, seq := .idle }

/-- The first half of Complete (R127): CMDCOUNT <- (CMDCOUNT + 1) mod 2^32. -/
def State.countCommand (s : State) : State := { s with cmdcount := s.cmdcount + 1#32 }

/-- The second half of Complete (R127): CMDPTR <- (CMDPTR + 32) mod 2^32. No hidden state is carried to the next command
(R48). -/
def State.advancePtr (s : State) : State := { s with cmdptr := s.cmdptr + 32#32, seq := .idle }

/-- Complete (R127). -/
def State.complete (s : State) : State := s.countCommand.advancePtr

end Sys2Proof.Machine
end

