-- ==== Sys2Proof/Machine/Flags.lean ====
section
/-! DEFINITION. The only flags of the DPU, STATUS (R37, R46): its packing into a word, the write-1-to-clear rule (R38), CTRL's
fields (R35), START's acceptance (R120), and the two output levels (R32, R210). -/

namespace Sys2Proof.Machine

/-- A Bool as one bit. -/
def bit (b : Bool) : BitVec 1 := if b then 1#1 else 0#1

/-- STATUS as the host reads it (R37): 31:19 reserved, EOPND 18:16, ECODE 15:8, 7:4 reserved, NV, ERR, DONE, BUSY. -/
def Status.word (t : Status) : Word :=
  0#13 ++ t.eopnd ++ t.ecode ++ 0#4 ++ bit t.nv ++ bit t.err ++ bit t.done ++ bit t.busy

/-- CTRL as the host reads it (R35): 31:3 reserved, IRQEN, PREFILT, and START, which reads 0. -/
def Ctrl.word (c : Ctrl) : Word := 0#29 ++ bit c.irqen ++ bit c.prefilt ++ 0#1

/-- A host write of `w` to STATUS (R38): bit 1 clears DONE, bit 2 clears ERR with ECODE and EOPND, bit 3 clears NV; every
other bit is ignored, and BUSY cannot be written. -/
def Status.writeW1C (t : Status) (w : Word) : Status :=
  { t with
    done := if w.getLsbD 1 then false else t.done
    err := if w.getLsbD 2 then false else t.err
    ecode := if w.getLsbD 2 then 0 else t.ecode
    eopnd := if w.getLsbD 2 then 0 else t.eopnd
    nv := if w.getLsbD 3 then false else t.nv }

/-- PREFILT and IRQEN taken from a written value, whatever becomes of its START bit (R35). -/
def Ctrl.ofWord (w : Word) : Ctrl := { prefilt := w.getLsbD 1, irqen := w.getLsbD 2 }

/-- A START that is accepted (R120): DONE <- 0, CMDCOUNT <- 0, BUSY <- 1. NV and CMDPTR are kept; the run begins with a fetch
at CMDPTR. -/
def State.beginRun (s : State) : State :=
  { s with status := { s.status with done := false, busy := true }, cmdcount := 0, seq := .idle }

/-- A written START (R120): accepted only if BUSY = 0 and ERR = 0, otherwise ignored and recorded nowhere. -/
def State.start (s : State) : State := if !s.status.busy && !s.status.err then s.beginRun else s

/-- The `irq` output level (R210). NV is no source (R209). -/
def State.irq (s : State) : Bool := s.ctrl.irqen && (s.status.done || s.status.err)

/-- The `prefilter_mode` output level (R32). No command reads it (R36). -/
def State.prefilterMode (s : State) : Bool := s.ctrl.prefilt

end Sys2Proof.Machine
end

