-- ==== Sys2Proof/Machine/HostPort.lean ====
section
/-! DEFINITION. The host's transactions at the DPU's aperture (spec/10_state.md R30 to R44) and the reset event
(spec/70_reset_and_hazards.md R230). Each is one step of the host agent. -/

namespace Sys2Proof.Machine

/-- What a host access reaches (R30, R31). -/
inductive Target where
  /-- The register at an aperture offset. -/
  | register (off : Nat)
  /-- DMEM bytes from an address. -/
  | dmem (a : Nat)
  /-- Nothing: a bus error. -/
  | busError
  /-- An address below the aperture: not an access to this unit (log entry 7). -/
  | elsewhere
  deriving DecidableEq, Repr

/-- What `n` bytes at a host address reach. Registers take aligned 32-bit accesses only (R30); DMEM takes naturally aligned ones
of 1, 2 or 4 bytes through the window (R31, R73); anything else in the aperture is a bus error. DESIGN CHOICE (log entry 6): the
spec does not say what a window access of another width is, and it is a bus error too. -/
def target (c : Config) (addr n : Nat) : Target :=
  if addr < c.apertureBase then .elsewhere
  else
    let off := addr - c.apertureBase
    if off < 0x100 then
      if n = 4 ∧ off % 4 = 0 then .register off else .busError
    else if c.dmemWindow ≤ off ∧ off + n ≤ c.dmemWindow + c.dmemSize then
      let a := off - c.dmemWindow
      if (n = 1 ∨ n = 2 ∨ n = 4) ∧ a % n = 0 then .dmem a else .busError
    else .busError

/-- ID (R34). -/
def idValue : Word := 0x44535031#32

/-- A register as the host reads it (R34). No read has a side effect (R75). Reserved offsets read 0 (R44). -/
def readReg (s : State) (off : Nat) : Word :=
  if off = 0x00 then idValue
  else if off = 0x04 then s.ctrl.word
  else if off = 0x08 then s.status.word
  else if off = 0x0C then s.cmdptr
  else if off = 0x10 then s.faultaddr
  else if off = 0x14 then s.cmdcount
  else if off = 0x18 then BitVec.ofNat 32 s.cfg.dmemSize
  else 0

/-- A write of CTRL (R35, R120): PREFILT and IRQEN in every case, then START if its bit is 1. -/
def writeCtrl (s : State) (w : Word) : State :=
  let s' := { s with ctrl := Ctrl.ofWord w }
  if w.getLsbD 0 then s'.start else s'

/-- A write of STATUS (R38). -/
def writeStatus (s : State) (w : Word) : State := { s with status := s.status.writeW1C w }

/-- A write of CMDPTR (R40): ignored while BUSY = 1; bits 1:0 are hardwired to 0. -/
def writeCmdptr (s : State) (w : Word) : State :=
  if s.status.busy then s else { s with cmdptr := w &&& 0xFFFFFFFC#32 }

/-- A register write (R34): read-only and reserved offsets ignore it (R34, R44). -/
def writeReg (s : State) (off : Nat) (w : Word) : State :=
  if off = 0x04 then writeCtrl s w
  else if off = 0x08 then writeStatus s w
  else if off = 0x0C then writeCmdptr s w
  else s

/-- The bus response recorded. -/
def State.withReply (s : State) (r : Option Reply) : State := { s with reply := r }

/-- A host read. It changes no DPU state (R75). -/
def hostRead (s : State) (addr n : Nat) : State :=
  match target s.cfg addr n with
  | .register off => s.withReply (some (.data (readReg s off)))
  | .dmem a => s.withReply (some (.data (BitVec.ofNat 32 (s.mem.readLE a n))))
  | .busError => s.withReply (some .busError)
  | .elsewhere => s.withReply none

/-- A host write. A bus error changes no DPU state (R30, R31, R205). -/
def hostWrite (s : State) (addr n : Nat) (w : Word) : State :=
  match target s.cfg addr n with
  | .register off => (writeReg s off w).withReply (some .ack)
  | .dmem a => (s.withMem (s.mem.writeLE a n w.toNat)).withReply (some .ack)
  | .busError => s.withReply (some .busError)
  | .elsewhere => s.withReply none

/-- A reset event (R230), whatever the DPU is doing: every register at its reset value and the hidden state dropped; DMEM
(R231) and the parameters are kept. The host's later transactions stay pending (log entry 13). -/
def resetEvent (s : State) : State := { State.reset with cfg := s.cfg, mem := s.mem, turns := s.turns }

/-- One transaction of the host. -/
def hostStep (t : HostTxn) (s : State) : State :=
  match t with
  | .read addr n => hostRead s addr n
  | .write addr n w => hostWrite s addr n w
  | .reset => resetEvent s

end Sys2Proof.Machine
end

