-- ==== Sys2Proof/Machine/Launch.lean ====
section
/-! DEFINITION. How a run is set up from outside: a power-up with given parameters and DMEM contents (R231), and a descriptor placed
and started so that the next step runs it (R233 steps (4), (6) and (7)). -/

namespace Sys2Proof.Machine

/-- The machine after power-up and reset with given parameters and DMEM contents: R231 makes the contents a parameter of the
launch. -/
def State.powerUp (c : Config) (m : Memory) : State := { State.reset with cfg := c, mem := m }

/-- Where a descriptor is placed: at CMDPTR, or at 0 where the 32 bytes at CMDPTR are not all in DMEM. -/
def launchAddr (s : State) : Word := if inRange s.cfg.dmemSize s.cmdptr.toNat 32 then s.cmdptr else 0

/-- The host's part of the boot sequence for one descriptor whose bits are `w` (R233): its 32 bytes stored (R71, R90), ERR, ECODE
and EOPND clear (step (5)), CMDPTR set, and START accepted (R120). No turn is pending. -/
def State.launch (s : State) (w : Nat) : State :=
  State.beginRun { s with
    mem := s.mem.writeLE (launchAddr s).toNat 32 w
    status := { s.status with err := false, ecode := 0, eopnd := 0 }
    cmdptr := launchAddr s
    turns := [] }

end Sys2Proof.Machine
end

