-- ==== Sys2Proof/WellFormed.lean ====
section
/-! DEFINITION. What an encodable command must satisfy to be accepted: the two field checks of
spec/30_encoding.md R98. -/

namespace Sys2Proof

/-- R98: NST = 0 is not accepted for BQINIT or BIQUAD, and BW = 0 is not accepted for SSHR. Every other field is taken
at every value its width holds (LEN = 0, every SH, every BW from 1 to 63). -/
def Instr.wellFormed : Instr → Bool
  | .endList => true
  | .conv16 _ _ _ => true
  | .fill _ _ _ => true
  | .sub _ _ _ _ => true
  | .scale _ _ _ _ => true
  | .offset _ _ _ _ => true
  | .mul _ _ _ _ => true
  | .bqinit _ nst => nst ≠ 0
  | .biquad _ _ _ _ nst _ => nst ≠ 0
  | .sshr _ _ _ bw => bw ≠ 0

end Sys2Proof
end

