-- ==== Sys2Proof/Decode.lean ====
section
/-! DEFINITION. The decoder of spec/30_encoding.md R99, total on every descriptor and rejecting by name, the encoder
written from the same tables (R91, R92, R94, R95), and the layout of a descriptor as bytes (R90, R71). -/

namespace Sys2Proof

/-- The ten opcodes of R94. -/
inductive Opcode where
  | endList | conv16 | fill | sub | scale | offset | mul | bqinit | biquad | sshr
  deriving DecidableEq, Repr

/-- The three names a decoder rejects under (R99, R123). Each is the DPU's own fault, taken as a trap: safe. -/
inductive DecodeFault where
  /-- w0[7:0] is 0x0A to 0xFF (R97). -/
  | illegalOp
  /-- A bit of w0 that must be 0 for the opcode is 1 (R96). -/
  | rsvdField
  /-- NST = 0 for BQINIT or BIQUAD, or BW = 0 for SSHR (R98). -/
  | badParam
  deriving DecidableEq, Repr

/-- Why a list of bytes is no command: fewer than 32 bytes (R90: every command is exactly 32), or the decoder's own
rejection. -/
inductive BytesFault where
  | truncated
  | rejected (f : DecodeFault)
  deriving DecidableEq, Repr

/-- The opcode map R94; 0x0A to 0xFF are illegal (R97). -/
def Opcode.ofByte (b : Byte) : Option Opcode :=
  match b.toNat with
  | 0x00 => some .endList
  | 0x01 => some .conv16
  | 0x02 => some .fill
  | 0x03 => some .sub
  | 0x04 => some .scale
  | 0x05 => some .offset
  | 0x06 => some .mul
  | 0x07 => some .bqinit
  | 0x08 => some .biquad
  | 0x09 => some .sshr
  | _ => none

/-- The opcode map R94, read the other way. -/
def Opcode.byte : Opcode → Byte
  | .endList => 0x00#8
  | .conv16 => 0x01#8
  | .fill => 0x02#8
  | .sub => 0x03#8
  | .scale => 0x04#8
  | .offset => 0x05#8
  | .mul => 0x06#8
  | .bqinit => 0x07#8
  | .biquad => 0x08#8
  | .sshr => 0x09#8

/-- rsvd(op) of R96: the bits of w0 that must be 0. 90_conflicts.md C5: the decoder tests these bits. -/
def Opcode.rsvd : Opcode → Word
  | .bqinit | .biquad => 0xFFFF0000#32
  | .sshr => 0xF800FF00#32
  | _ => 0xFFFFFF00#32

/-- OP = w0[7:0] (R92). -/
def Descriptor.op (d : Descriptor) : Byte := d.w0.extractLsb' 0 8

/-- NST = w0[15:8] (R92). -/
def Descriptor.nst (d : Descriptor) : BitVec 8 := d.w0.extractLsb' 8 8

/-- SH = w0[20:16] (R92). -/
def Descriptor.sh (d : Descriptor) : BitVec 5 := d.w0.extractLsb' 16 5

/-- BW = w0[26:21] (R92). -/
def Descriptor.bw (d : Descriptor) : BitVec 6 := d.w0.extractLsb' 21 6

/-- The operands an opcode takes from the descriptor, as they stand (R93, R95). -/
def Opcode.assemble (op : Opcode) (d : Descriptor) : Instr :=
  match op with
  | .endList => .endList
  | .conv16 => .conv16 d.w3 d.w1 d.w6
  | .fill => .fill d.w3 d.w2 d.w6
  | .sub => .sub d.w3 d.w1 d.w2 d.w6
  | .scale => .scale d.w3 d.w1 d.w2 d.w6
  | .offset => .offset d.w3 d.w1 d.w2 d.w6
  | .mul => .mul d.w3 d.w1 d.w2 d.w6
  | .bqinit => .bqinit d.w5 d.nst
  | .biquad => .biquad d.w3 d.w1 d.w4 d.w5 d.nst d.w6
  | .sshr => .sshr d.w3 d.w1 d.sh d.bw

/-- The decoding procedure R99, its checks in the order R99 and R123 give. -/
def decode (d : Descriptor) : Except DecodeFault Instr :=
  match Opcode.ofByte d.op with
  | none => .error .illegalOp
  | some op =>
    if d.w0 &&& op.rsvd ≠ 0 then .error .rsvdField
    else if (op.assemble d).wellFormed then .ok (op.assemble d)
    else .error .badParam

/-- The control word: reserved, BW, SH, NST, OP from the high bits down (R92). -/
def controlWord (op : Opcode) (nst : BitVec 8) (sh : BitVec 5) (bw : BitVec 6) : Word :=
  0#5 ++ bw ++ sh ++ nst ++ op.byte

/-- The eight words of a command, every unused field and word written 0 (R91, R92, R95, R100). -/
def encode : Instr → Descriptor
  | .endList => ⟨controlWord .endList 0 0 0, 0, 0, 0, 0, 0, 0, 0⟩
  | .conv16 d a len => ⟨controlWord .conv16 0 0 0, a, 0, d, 0, 0, len, 0⟩
  | .fill d x len => ⟨controlWord .fill 0 0 0, 0, x, d, 0, 0, len, 0⟩
  | .sub d a b len => ⟨controlWord .sub 0 0 0, a, b, d, 0, 0, len, 0⟩
  | .scale d a x len => ⟨controlWord .scale 0 0 0, a, x, d, 0, 0, len, 0⟩
  | .offset d a x len => ⟨controlWord .offset 0 0 0, a, x, d, 0, 0, len, 0⟩
  | .mul d a b len => ⟨controlWord .mul 0 0 0, a, b, d, 0, 0, len, 0⟩
  | .bqinit s nst => ⟨controlWord .bqinit nst 0 0, 0, 0, 0, 0, s, 0, 0⟩
  | .biquad d a c s nst len => ⟨controlWord .biquad nst 0 0, a, 0, d, c, s, len, 0⟩
  | .sshr d a sh bw => ⟨controlWord .sshr 0 sh bw, a, 0, d, 0, 0, 0, 0⟩

/-- Word `j` of a descriptor replaced (R91). -/
def Descriptor.setWord (d : Descriptor) (j : Fin 8) (w : Word) : Descriptor :=
  match j with
  | 0 => { d with w0 := w }
  | 1 => { d with w1 := w }
  | 2 => { d with w2 := w }
  | 3 => { d with w3 := w }
  | 4 => { d with w4 := w }
  | 5 => { d with w5 := w }
  | 6 => { d with w6 := w }
  | 7 => { d with w7 := w }

/-- The four bytes of a word, least significant first (R71). -/
def wordBytes (w : Word) : List Byte :=
  [w.extractLsb' 0 8, w.extractLsb' 8 8, w.extractLsb' 16 8, w.extractLsb' 24 8]

/-- The word of four bytes, least significant first (R71). -/
def bytesWord (b0 b1 b2 b3 : Byte) : Word := b3 ++ b2 ++ b1 ++ b0

/-- The 32 bytes of a descriptor (R90). -/
def Descriptor.bytes (d : Descriptor) : List Byte :=
  wordBytes d.w0 ++ wordBytes d.w1 ++ wordBytes d.w2 ++ wordBytes d.w3 ++
    wordBytes d.w4 ++ wordBytes d.w5 ++ wordBytes d.w6 ++ wordBytes d.w7

/-- The first `n` words of a list of bytes and the bytes after them, or nothing where the list is too short. -/
def takeWords : Nat → List Byte → Option (List Word × List Byte)
  | 0, bs => some ([], bs)
  | n + 1, b0 :: b1 :: b2 :: b3 :: bs => (takeWords n bs).map fun r => (bytesWord b0 b1 b2 b3 :: r.1, r.2)
  | _ + 1, _ => none

/-- The decoder on bytes: the command of the first 32, and the bytes after them (R90: the length is always 32). -/
def decodeBytes (bs : List Byte) : Except BytesFault (Instr × List Byte) :=
  match takeWords 8 bs with
  | some ([w0, w1, w2, w3, w4, w5, w6, w7], rest) =>
    match decode ⟨w0, w1, w2, w3, w4, w5, w6, w7⟩ with
    | .ok i => .ok (i, rest)
    | .error f => .error (.rejected f)
  | _ => .error .truncated

/-- The low `n` bytes of a number, least significant first (R71). -/
def bytesOfNat : Nat → Nat → List Byte
  | 0, _ => []
  | n + 1, v => BitVec.ofNat 8 v :: bytesOfNat n (v / 256)

/-- What the decoder reads from an instruction whose bits are `w`, numbered as spec/opcode_table.json numbers them: bit 0 is the
least significant bit of w0, word j is bits 32*j+31 .. 32*j, and every bit above `nbits` is 0. The words are laid out as DMEM
holds them (R71, R90) and given to `decodeBytes`. -/
def decodeTableWord (nbits w : Nat) : Option Instr :=
  match decodeBytes (bytesOfNat 32 (w % 2 ^ nbits)) with
  | .ok (i, _) => some i
  | .error _ => none

end Sys2Proof
end

