-- ==== Sys2Proof/Machine/Float.lean ====
section
/-! DEFINITION. IEEE 754 binary32 on patterns, by exact integers: spec/00_scope.md R9, R10 and R11. Every finite pattern is an
integer multiple of 2^-149, so a sum is an integer in units of 2^-149 and a product one in units of 2^-298. The meaning of the
format and of round-to-nearest-even is the standard's, which R9 and R10 take from general knowledge (log entry 11). -/

namespace Sys2Proof.F32

/-- The sign b[31] (R9). -/
def sign (b : Word) : Bool := b.getLsbD 31

/-- The biased exponent b[30:23] (R9). -/
def expo (b : Word) : Nat := (b.extractLsb' 23 8).toNat

/-- The fraction b[22:0] (R9). -/
def frac (b : Word) : Nat := (b.extractLsb' 0 23).toNat

/-- R9: b[30:23] = 0xFF and b[22:0] != 0. -/
def isNaN (b : Word) : Bool := expo b = 0xFF && frac b ≠ 0

/-- R9: b[30:23] = 0xFF and b[22:0] = 0. -/
def isInf (b : Word) : Bool := expo b = 0xFF && frac b = 0

/-- Neither a NaN nor an infinity. -/
def isFinite (b : Word) : Bool := expo b ≠ 0xFF

/-- The canonical NaN (R10). -/
def qNaN : Word := 0x7FC00000#32

/-- |val(b)| of a finite pattern in units of 2^-149 (R9): f for e = 0, and (2^23 + f) * 2^(e-1) for e in 1..254. -/
def mag (b : Word) : Nat := if expo b = 0 then frac b else (2 ^ 23 + frac b) * 2 ^ (expo b - 1)

/-- val(b) of a finite pattern in units of 2^-149 (R9). Both zeros have value 0. -/
def val (b : Word) : Int := if sign b then -(mag b : Int) else (mag b : Int)

/-- The quotient m / 2^q rounded to nearest, ties to even. -/
def roundQuot (m q : Nat) : Nat :=
  let d := m / 2 ^ q
  let r := m % 2 ^ q
  if 2 * r > 2 ^ q ∨ (2 * r = 2 ^ q ∧ d % 2 = 1) then d + 1 else d

/-- The number of low bits that rounding drops from `m`, in units of 2^(-149-sub): what is past 24 significant bits, and at
least what is below the smallest subnormal. -/
def dropBits (sub m : Nat) : Nat := max (Nat.log2 m - 23) sub

/-- Bits 30:0 of the binary32 value nearest to m * 2^(-149-sub), ties to even, an overflow giving infinity (R10 (1)). The
biased exponent and the fraction are one number: the rounded significand counts on from the exponent before it, so a carry out
of the significand raises the exponent. -/
def roundMag (sub m : Nat) : Nat :=
  min ((dropBits sub m - sub) * 2 ^ 23 + roundQuot m (dropBits sub m)) 0x7F800000

/-- A pattern from its sign and bits 30:0. -/
def pack (neg : Bool) (m : Nat) : Word := BitVec.ofNat 32 ((if neg then 2 ^ 31 else 0) + m)

/-- The infinity of a sign. -/
def inf (neg : Bool) : Word := pack neg 0x7F800000

/-- The exact sum `n` (in units of 2^-149) of two finite values, rounded once. An exact zero is +0.0 unless both addends carry
a minus sign (R10). -/
def roundSum (bothNeg : Bool) (n : Int) : Word :=
  if n = 0 then pack bothNeg 0 else pack (n < 0) (roundMag 0 n.natAbs)

/-- f32_add (R10). -/
def add (a b : Word) : Word :=
  if isNaN a || isNaN b then qNaN
  else if isInf a then (if isInf b && sign a != sign b then qNaN else a)
  else if isInf b then b
  else roundSum (sign a && sign b) (val a + val b)

/-- The pattern with its sign bit flipped. -/
def neg (b : Word) : Word := b ^^^ 0x80000000#32

/-- f32_sub (R10): a - b is a + (-b), with the same single rounding. -/
def sub (a b : Word) : Word := add a (neg b)

/-- f32_mul (R10). The sign of a product that is no NaN is the XOR of the signs, zeros and infinities included. -/
def mul (a b : Word) : Word :=
  let s := sign a != sign b
  if isNaN a || isNaN b then qNaN
  else if isInf a then (if mag b = 0 then qNaN else inf s)
  else if isInf b then (if mag a = 0 then qNaN else inf s)
  else pack s (roundMag 149 (mag a * mag b))

/-- The place of a pattern that is no NaN in the order of R11, in units of 2^-149: its value, or, for an infinity, 2^277,
which is above every finite value. -/
def place (b : Word) : Int :=
  if isInf b then (if sign b then -(2 ^ 277 : Int) else 2 ^ 277) else val b

/-- `a < b` of R11; no comparison is made with a NaN. -/
def lt (a b : Word) : Bool := place a < place b

end Sys2Proof.F32
end

