-- ==== Sys2Proof/Machine/Operands.lean ====
section
/-! DEFINITION. The operand forms of spec/30_encoding.md R95, their validation (spec/40_sequencer.md R124), and the shared way
a command runs: validate, execute, complete (R121). -/

namespace Sys2Proof.Machine

/-- One address operand of a command: its index (R201), base address, element alignment and byte length (R95). -/
structure Operand where
  idx : BitVec 3
  base : Word
  align : Nat
  bytes : Nat
  deriving DecidableEq, Repr

/-- A (w1), index 1. -/
def Operand.a (base : Word) (align bytes : Nat) : Operand := ⟨1#3, base, align, bytes⟩

/-- B (w2) where it is an address, index 2. -/
def Operand.b (base : Word) (align bytes : Nat) : Operand := ⟨2#3, base, align, bytes⟩

/-- D (w3), index 3. -/
def Operand.d (base : Word) (align bytes : Nat) : Operand := ⟨3#3, base, align, bytes⟩

/-- C (w4), index 4. -/
def Operand.c (base : Word) (align bytes : Nat) : Operand := ⟨4#3, base, align, bytes⟩

/-- S (w5), index 5. -/
def Operand.s (base : Word) (align bytes : Nat) : Operand := ⟨5#3, base, align, bytes⟩

/-- The byte address of element `k` of an operand with base `x` and element size `e`: X + e*k (R93), on unbounded integers
(R4). -/
def elemAddr (x : Word) (e k : Nat) : Nat := x.toNat + e * k

/-- What a failed check raises: the code, the operand index and the address of R206. -/
structure Raise where
  code : FaultCode
  opnd : BitVec 3
  addr : Word
  deriving DecidableEq, Repr

/-- The two checks of one operand, alignment before range (R124). -/
def Operand.check (size : Nat) (o : Operand) : Option Raise :=
  if o.base.toNat % o.align ≠ 0 then some ⟨.misaligned, o.idx, o.base⟩
  else if inRange size o.base.toNat o.bytes then none
  else some ⟨.dataOor, o.idx, o.base⟩

/-- Validate (R124): operand by operand; the first failing check is the one raised (R203). -/
def validate (size : Nat) : List Operand → Option Raise
  | [] => none
  | o :: os =>
    match o.check size with
    | some r => some r
    | none => validate size os

/-- What the sequencer does for one command other than END: the operands it validates, in order, and the actions of every
element `k` (of every stage `i`, for BIQUAD, with the value the stage before handed on). -/
structure Body where
  operands : List Operand
  /-- How many elements. -/
  count : Nat
  /-- How many stages each element goes through (1 but for BIQUAD). -/
  stages : Nat
  /-- The actions of element `k` at stage `i`, given the value handed on by stage `i - 1`. -/
  unit : Nat → Nat → Word → Prog

/-- Stages `i` to `i + n - 1` of element `k`, in increasing order. -/
def Body.runStages (b : Body) (k : Nat) : Nat → Nat → Word → State → State
  | _, 0, _, s => s
  | i, n + 1, x, s => b.runStages k (i + 1) n ((b.unit k i x).run s).1 ((b.unit k i x).run s).2

/-- Elements `k` to `k + n - 1`, in increasing order (R150, R142, R173). -/
def Body.runElems (b : Body) : Nat → Nat → State → State
  | _, 0, s => s
  | k, n + 1, s => b.runElems (k + 1) n (b.runStages k 0 b.stages 0 s)

/-- Execute (R125): every element, in order. It never faults. -/
def Body.execute (b : Body) (s : State) : State := b.runElems 0 b.count s

/-- The trap a failed check leads to (R206). -/
def State.raise (s : State) (r : Raise) : State := s.trap r.code r.opnd r.addr

/-- Validate, then Execute, then Complete (R121). A failed check traps before any DMEM access of the command (R204). -/
def runCommand (b : Body) (s : State) : Host.Outcome State Fault Refusal :=
  match validate s.cfg.dmemSize b.operands with
  | some r => .next (s.raise r)
  | none => .next (b.execute s).complete

end Sys2Proof.Machine
end

