-- ==== Sys2Proof/Machine/Biquad.lean ====
section
/-! DEFINITION. The cascaded biquad filter: BQINIT and BIQUAD (spec/43_biquad.md). -/

namespace Sys2Proof.Machine

/-- BQINIT (R171): +0.0 into each of the 4*NST state words. -/
def bodyBqinit (s : Word) (nst : BitVec 8) : Body where
  operands := [.s s 4 (16 * nst.toNat)]
  count := 4 * nst.toNat
  stages := 1
  unit := fun j _ _ => .write (elemAddr s 4 j) 4 0 (.ret 0)

/-- BQINIT (R171). NST = 0 raises BAD_PARAM; the decoder finds it first in every run (R99, log entry 12). -/
def execBqinit (s : Word) (nst : BitVec 8) (st : State) : Host.Outcome State Fault Refusal :=
  if nst = 0 then .next (st.trap .badParam 0 st.cmdptr) else runCommand (bodyBqinit s nst) st

/-- y0 of one stage (R173): the five terms left to right, each product and each sum rounded once, nothing fused. -/
def biquadOutput (b0 b1 b2 a1 a2 x x1 x2 y1 y2 : Word) : Word :=
  let t := F32.mul b0 x
  let t := F32.add t (F32.mul b1 x1)
  let t := F32.add t (F32.mul b2 x2)
  let t := F32.sub t (F32.mul a1 y1)
  F32.sub t (F32.mul a2 y2)

/-- One stage with coefficients at `cb` and state at `sb` (R170, R173): nine reads, then the four state words x1, x2, y1, y2 in
that order, then whatever follows with the stage's output. -/
def biquadStage (cb sb : Nat) (x : Word) (next : Word → Prog) : Prog :=
  .read cb fun b0 => .read (cb + 4) fun b1 => .read (cb + 8) fun b2 =>
  .read (cb + 12) fun a1 => .read (cb + 16) fun a2 =>
  .read sb fun x1 => .read (sb + 4) fun x2 => .read (sb + 8) fun y1 => .read (sb + 12) fun y2 =>
  let t := biquadOutput b0 b1 b2 a1 a2 x x1 x2 y1 y2
  .write sb 4 x.toNat <| .write (sb + 4) 4 x1.toNat <| .write (sb + 8) 4 t.toNat <| .write (sb + 12) 4 y1.toNat <|
  next t

/-- Sample `k` at stage `i` of `n` (R173): the sample is read before stage 0, and the last stage's output is written to D. -/
def biquadUnit (d a c s : Word) (n k i : Nat) (x : Word) : Prog :=
  let stage := fun x0 =>
    biquadStage (elemAddr c 20 i) (elemAddr s 16 i) x0 fun t =>
      if i + 1 = n then .write (elemAddr d 4 k) 4 t.toNat (.ret t) else .ret t
  if i = 0 then .read (elemAddr a 4 k) stage else stage x

/-- BIQUAD (R173). -/
def bodyBiquad (d a c s : Word) (nst : BitVec 8) (len : Word) : Body where
  operands := [.a a 4 (4 * len.toNat), .d d 4 (4 * len.toNat), .c c 4 (20 * nst.toNat), .s s 4 (16 * nst.toNat)]
  count := len.toNat
  stages := nst.toNat
  unit := biquadUnit d a c s nst.toNat

/-- BIQUAD (R173). NST = 0 raises BAD_PARAM; the decoder finds it first in every run (R99, log entry 12). -/
def execBiquad (d a c s : Word) (nst : BitVec 8) (len : Word) (st : State) : Host.Outcome State Fault Refusal :=
  if nst = 0 then .next (st.trap .badParam 0 st.cmdptr) else runCommand (bodyBiquad d a c s nst len) st

end Sys2Proof.Machine
end

