-- ==== Sys2Proof/Machine/Control.lean ====
section
/-! DEFINITION. The sequencing command END (spec/40_sequencer.md). -/

namespace Sys2Proof.Machine

/-- END (R129): BUSY <- 0, DONE <- 1. CMDPTR keeps the address of this descriptor and CMDCOUNT is unchanged. -/
def execEnd (s : State) : Host.Outcome State Fault Refusal := .next s.endRun

end Sys2Proof.Machine
end

