-- ==== Sys2Proof/Machine/Conversion.lean ====
section
/-! DEFINITION. CONV16, the fixed-point saturating sample conversion (spec/41_conversion.md). -/

namespace Sys2Proof.Machine

/-- `clamp(v, lo, hi)` of R5. -/
def clampInt (v lo hi : Int) : Int := min (max v lo) hi

/-- U = 32767/32768, the upper clamp bound (R140; 90_conflicts.md C1). -/
def clampUpper : Word := 0x3F7FFE00#32

/-- -1.0, the lower clamp bound (R140). -/
def clampLower : Word := 0xBF800000#32

/-- Stage 1 of R142, the pre-scale clamp. -/
def preClamp (f : Word) : Word :=
  if F32.lt f clampLower then clampLower
  else if F32.lt clampUpper f then clampUpper
  else f

/-- trunc(val(c) * 32768) of a finite `c` (R142): val(c) is `F32.val c` units of 2^-149, so the product is `F32.val c` units of
2^-134, and the division rounds toward zero (R5). -/
def scaleTrunc (c : Word) : Int := (F32.val c).tdiv (2 ^ 134)

/-- The integer result of one element that is no NaN (R142): both clamps, in order. -/
def convertValue (f : Word) : Int := clampInt (scaleTrunc (preClamp f)) (-32768) 32767

/-- The 16-bit result of one element: 0 for a NaN (R141), else `r mod 2^16` (R142). -/
def convert16 (f : Word) : Half := if F32.isNaN f then 0 else BitVec.ofInt 16 (convertValue f)

/-- CONV16's element `k` (R142): read, NV if the element is a NaN (R141), write. -/
def bodyConv16 (d a len : Word) : Body where
  operands := [.a a 4 (4 * len.toNat), .d d 2 (2 * len.toNat)]
  count := len.toNat
  stages := 1
  unit := fun k _ _ =>
    .read (elemAddr a 4 k) fun f =>
      let store := Prog.write (elemAddr d 2 k) 2 (convert16 f).toNat (.ret 0)
      if F32.isNaN f then .setNV store else store

/-- CONV16 (R142). -/
def execConv16 (d a len : Word) (s : State) : Host.Outcome State Fault Refusal := runCommand (bodyConv16 d a len) s

end Sys2Proof.Machine
end

