-- ==== Sys2Proof/Machine/Elementwise.lean ====
section
/-! DEFINITION. The elementwise block commands FILL, SUB, SCALE, OFFSET and MUL (spec/42_elementwise.md). For each element all
reads come before the write, and elements go in increasing order (R150). -/

namespace Sys2Proof.Machine

/-- Element `k` of a command with one source block (R150). -/
def mapUnit (f : Word → Word) (d a : Word) (k : Nat) : Prog :=
  .read (elemAddr a 4 k) fun x => .write (elemAddr d 4 k) 4 (f x).toNat (.ret 0)

/-- Element `k` of a command with two source blocks, A read before B (R150, R153, R156). -/
def zipUnit (f : Word → Word → Word) (d a b : Word) (k : Nat) : Prog :=
  .read (elemAddr a 4 k) fun x => .read (elemAddr b 4 k) fun y => .write (elemAddr d 4 k) 4 (f x y).toNat (.ret 0)

/-- FILL (R152): the pattern as it stands, no arithmetic. -/
def bodyFill (d scalar len : Word) : Body where
  operands := [.d d 4 (4 * len.toNat)]
  count := len.toNat
  stages := 1
  unit := fun k _ _ => .write (elemAddr d 4 k) 4 scalar.toNat (.ret 0)

/-- FILL (R152). -/
def execFill (d scalar len : Word) (s : State) : Host.Outcome State Fault Refusal := runCommand (bodyFill d scalar len) s

/-- SUB (R153): d[k] = a[k] - b[k]. -/
def bodySub (d a b len : Word) : Body where
  operands := [.a a 4 (4 * len.toNat), .b b 4 (4 * len.toNat), .d d 4 (4 * len.toNat)]
  count := len.toNat
  stages := 1
  unit := fun k _ _ => zipUnit F32.sub d a b k

/-- SUB (R153). -/
def execSub (d a b len : Word) (s : State) : Host.Outcome State Fault Refusal := runCommand (bodySub d a b len) s

/-- SCALE (R154): d[k] = a[k] * SCALAR. -/
def bodyScale (d a scalar len : Word) : Body where
  operands := [.a a 4 (4 * len.toNat), .d d 4 (4 * len.toNat)]
  count := len.toNat
  stages := 1
  unit := fun k _ _ => mapUnit (fun x => F32.mul x scalar) d a k

/-- SCALE (R154). -/
def execScale (d a scalar len : Word) (s : State) : Host.Outcome State Fault Refusal := runCommand (bodyScale d a scalar len) s

/-- OFFSET (R155): d[k] = a[k] + SCALAR. -/
def bodyOffset (d a scalar len : Word) : Body where
  operands := [.a a 4 (4 * len.toNat), .d d 4 (4 * len.toNat)]
  count := len.toNat
  stages := 1
  unit := fun k _ _ => mapUnit (fun x => F32.add x scalar) d a k

/-- OFFSET (R155). -/
def execOffset (d a scalar len : Word) (s : State) : Host.Outcome State Fault Refusal := runCommand (bodyOffset d a scalar len) s

/-- MUL (R156): d[k] = a[k] * b[k]. -/
def bodyMul (d a b len : Word) : Body where
  operands := [.a a 4 (4 * len.toNat), .b b 4 (4 * len.toNat), .d d 4 (4 * len.toNat)]
  count := len.toNat
  stages := 1
  unit := fun k _ _ => zipUnit F32.mul d a b k

/-- MUL (R156). -/
def execMul (d a b len : Word) (s : State) : Host.Outcome State Fault Refusal := runCommand (bodyMul d a b len) s

end Sys2Proof.Machine
end

