-- ==== Sys2Proof/Machine/Shift.lean ====
section
/-! DEFINITION. SSHR, the saturating arithmetic right shift (spec/44_saturating_shift.md). -/

namespace Sys2Proof.Machine

/-- The integer result of R191: floor(v / 2^SH), clamped to BW bits if BW < 32. -/
def shiftValue (v : Int) (sh : BitVec 5) (bw : BitVec 6) : Int :=
  let r := v.fdiv (2 ^ sh.toNat)
  if bw.toNat < 32 then clampInt r (-(2 ^ (bw.toNat - 1))) (2 ^ (bw.toNat - 1) - 1) else r

/-- The word SSHR writes: `r mod 2^32` (R191). -/
def saturatingShift (v : Word) (sh : BitVec 5) (bw : BitVec 6) : Word := BitVec.ofInt 32 (shiftValue v.toInt sh bw)

/-- SSHR (R191): one word, not a block (R190). -/
def bodySshr (d a : Word) (sh : BitVec 5) (bw : BitVec 6) : Body where
  operands := [.a a 4 4, .d d 4 4]
  count := 1
  stages := 1
  unit := fun k _ _ =>
    .read (elemAddr a 4 k) fun v => .write (elemAddr d 4 k) 4 (saturatingShift v sh bw).toNat (.ret 0)

/-- SSHR (R191). BW = 0 raises BAD_PARAM; the decoder finds it first in every run (R99, log entry 12). -/
def execSshr (d a : Word) (sh : BitVec 5) (bw : BitVec 6) (s : State) : Host.Outcome State Fault Refusal :=
  if bw = 0 then .next (s.trap .badParam 0 s.cmdptr) else runCommand (bodySshr d a sh bw) s

end Sys2Proof.Machine
end

