-- ==== Sys2Proof/Machine/Dispatch.lean ====
section
/-! DEFINITION. The dispatch of a decoded command to its meaning (spec/30_encoding.md R94). -/

namespace Sys2Proof.Machine

/-- Validate, Execute and Complete of one command (R121), or EndRun (R129). -/
def exec (i : Instr) (s : State) : Host.Outcome State Fault Refusal :=
  match i with
  | .endList => Sys2Proof.Machine.execEnd s
  | .conv16 d a len => Sys2Proof.Machine.execConv16 d a len s
  | .fill d scalar len => Sys2Proof.Machine.execFill d scalar len s
  | .sub d a b len => Sys2Proof.Machine.execSub d a b len s
  | .scale d a scalar len => Sys2Proof.Machine.execScale d a scalar len s
  | .offset d a scalar len => Sys2Proof.Machine.execOffset d a scalar len s
  | .mul d a b len => Sys2Proof.Machine.execMul d a b len s
  | .bqinit sv nst => Sys2Proof.Machine.execBqinit sv nst s
  | .biquad d a c sv nst len => Sys2Proof.Machine.execBiquad d a c sv nst len s
  | .sshr d a sh bw => Sys2Proof.Machine.execSshr d a sh bw s

end Sys2Proof.Machine
end

