-- ==== Sys2Proof/Machine/Sequencer.lean ====
section
/-! DEFINITION. The sequencer's command cycle (spec/40_sequencer.md R121), at two grains: a whole command as one step, which R121
allows when the host makes no DMEM access meanwhile, and single accesses as steps (R74, R81), between which host accesses and a
reset can fall (R80, R230). -/

namespace Sys2Proof.Machine

/-- The cause a decoder's rejection is raised under (R123). -/
def decodeCause : DecodeFault → FaultCode
  | .illegalOp => .illegalOp
  | .rsvdField => .rsvdField
  | .badParam => .badParam

/-- R123: a decode fault is raised with operand index 0 and the descriptor's address. -/
def State.raiseDecode (s : State) (f : DecodeFault) : State := s.trap (decodeCause f) 0 s.cmdptr

/-- The eight word reads of Fetch (R122), from the address in CMDPTR. -/
def State.fetchWords (s : State) : Descriptor :=
  let p := s.cmdptr.toNat
  ⟨s.mem.read32 p, s.mem.read32 (p + 4), s.mem.read32 (p + 8), s.mem.read32 (p + 12),
    s.mem.read32 (p + 16), s.mem.read32 (p + 20), s.mem.read32 (p + 24), s.mem.read32 (p + 28)⟩

/-- One whole turn of the command cycle R121: Fetch, Decode, then END or Validate, Execute and Complete. -/
def commandCycle (s : State) : Host.Outcome State Fault Refusal :=
  if inRange s.cfg.dmemSize s.cmdptr.toNat 32 then
    match decode s.fetchWords with
    | .ok i => exec i s
    | .error f => .next (s.raiseDecode f)
  else .next (s.trap .fetchOor 0 s.cmdptr)

/-- The body of a command other than END. It is the one `exec` runs (R121). -/
def bodyOf : Instr → Option Body
  | .endList => none
  | .conv16 d a len => some (bodyConv16 d a len)
  | .fill d scalar len => some (bodyFill d scalar len)
  | .sub d a b len => some (bodySub d a b len)
  | .scale d a scalar len => some (bodyScale d a scalar len)
  | .offset d a scalar len => some (bodyOffset d a scalar len)
  | .mul d a b len => some (bodyMul d a b len)
  | .bqinit s nst => some (bodyBqinit s nst)
  | .biquad d a c s nst len => some (bodyBiquad d a c s nst len)
  | .sshr d a sh bw => some (bodySshr d a sh bw)

/-- The hidden state replaced. -/
def State.withSeq (s : State) (q : Sequencer) : State := { s with seq := q }

/-- One sequencer access to `n` bytes at `a`: what it leads to, or the model's stop where the bytes do not exist (log entry 9). -/
def guarded (s : State) (a n : Nat) (t : State) : Host.Outcome State Fault Refusal :=
  if a + n ≤ s.cfg.dmemSize then .next t else .fault (.dmemOutOfRange a n)

/-- Fetch, one word read (R122). The range of all 32 bytes is checked with the first. -/
def fetchStep (s : State) (j : Fin 8) : Host.Outcome State Fault Refusal :=
  if j = 0 && !inRange s.cfg.dmemSize s.cmdptr.toNat 32 then .next (s.trap .fetchOor 0 s.cmdptr)
  else
    let a := s.cmdptr.toNat + 4 * j.val
    guarded s a 4 (s.withSeq { s.seq with
      desc := s.seq.desc.setWord j (s.mem.read32 a)
      phase := if j = 7 then .decode else .fetch (j + 1) })

/-- Decode and Validate of the latched descriptor, which access no DMEM (R123, R124), or EndRun (R129). -/
def decodeStep (s : State) : Host.Outcome State Fault Refusal :=
  match decode s.seq.desc with
  | .error f => .next (s.raiseDecode f)
  | .ok i =>
    match bodyOf i with
    | none => .next s.endRun
    | some b =>
      match validate s.cfg.dmemSize b.operands with
      | some r => .next (s.raise r)
      | none => .next (s.withSeq { s.seq with phase := .execute, k := 0, i := 0, x := 0, pos := 0, rd := [] })

/-- The hidden state after one more action of the current element, a read adding its value. -/
def Sequencer.did (q : Sequencer) (vs : List Word) : Sequencer := { q with pos := q.pos + 1, rd := q.rd ++ vs }

/-- The hidden state at the next stage of the element with `y` handed on, or at the next element after the last stage. -/
def Sequencer.nextUnit (q : Sequencer) (stages : Nat) (y : Word) : Sequencer :=
  if q.i + 1 < stages then { q with i := q.i + 1, x := y, pos := 0, rd := [] }
  else { q with k := q.k + 1, i := 0, x := 0, pos := 0, rd := [] }

/-- One action of Execute, or the first update of Complete when no element is left (R127, R81). -/
def executeStep (b : Body) (s : State) : Host.Outcome State Fault Refusal :=
  if s.seq.k < b.count then
    match (b.unit s.seq.k s.seq.i s.seq.x).resume s.seq.pos s.seq.rd with
    | .ret y => .next (s.withSeq (s.seq.nextUnit b.stages y))
    | .read a _ => guarded s a 4 (s.withSeq (s.seq.did [s.mem.read32 a]))
    | .write a n v _ => guarded s a n ((s.withMem (s.mem.writeLE a n v)).withSeq (s.seq.did []))
    | .setNV _ => .next (s.withNV.withSeq (s.seq.did []))
  else .next (s.countCommand.withSeq { s.seq with phase := .advance })

/-- One single access of the sequencer, or one internal step between two of them. While BUSY = 0 the sequencer makes no step
(R132). -/
def accessStep (s : State) : Host.Outcome State Fault Refusal :=
  if s.status.busy then
    match s.seq.phase with
    | .fetch j => fetchStep s j
    | .decode => decodeStep s
    | .execute =>
      match decode s.seq.desc with
      | .error f => .next (s.raiseDecode f)
      | .ok i =>
        match bodyOf i with
        | none => .next s.endRun
        | some b => executeStep b s
    | .advance => .next s.advancePtr
  else .next s

/-- The sequencer moving with no turn pending: a whole command where one begins, otherwise the rest of the current command access
by access. While BUSY = 0 nothing happens (R132). -/
def sequencerStep (s : State) : Host.Outcome State Fault Refusal :=
  if s.status.busy then
    if s.seq.phase = .fetch 0 then commandCycle s else accessStep s
  else .next s

end Sys2Proof.Machine
end

