-- ==== Sys2Proof/Machine/Step.lean ====
section
/-! DEFINITION. One step of the machine: the next turn of the memory order (spec/20_memory.md R80), or, with none pending, the
sequencer alone. -/

namespace Sys2Proof.Machine

/-- The pending turns replaced. -/
def State.withTurns (s : State) (ts : List Turn) : State := { s with turns := ts }

/-- One step. The oldest pending turn is taken; with none, the sequencer moves on alone (R246 (2)). -/
def step (s : State) : Host.Outcome State Fault Refusal :=
  match s.turns with
  | .host t :: rest => .next (hostStep t (s.withTurns rest))
  | .sequencer :: rest => accessStep (s.withTurns rest)
  | [] => sequencerStep s

/-- `s` with the instruction whose bits are `w` (every bit above `nbits` zero) placed and started, so that the next step runs
it. Log entry 18 says how a program comes to run without it. -/
def State.withFetchWord (s : State) (nbits w : Nat) : State := s.launch (w % 2 ^ nbits)

end Sys2Proof.Machine
end

