-- ==== Sys2Proof/Machine/Assembler.lean ====
section
/-! DEFINITION. The assembler syntax of spec/30_encoding.md R100 and the pseudo-instructions of R101: the text of a program, a
list of lines of characters, to the DMEM contents it places. It is software's notation, and no step of the machine reads it. -/

namespace Sys2Proof

/-- ZERO d, len (R101): FILL with +0.0. -/
def Instr.zero (d len : Word) : Instr := .fill d 0x00000000#32 len

/-- COPY d, a, len (R101): OFFSET by -0.0. -/
def Instr.copy (d a len : Word) : Instr := .offset d a 0x80000000#32 len

/-- NEG d, a, len (R101): SCALE by -1.0. -/
def Instr.neg (d a len : Word) : Instr := .scale d a 0xBF800000#32 len

end Sys2Proof

namespace Sys2Proof.Machine.Asm

/-- Why a line is rejected. -/
inductive Error where
  /-- `.org` with an address that is not a multiple of 4. -/
  | orgAlignment
  /-- A decimal real that does not convert exactly to binary32. -/
  | inexactReal
  /-- A number that its field does not hold. -/
  | tooLarge
  /-- Any other text. -/
  | syntaxError
  deriving DecidableEq, Repr

/-- One line of R100. -/
inductive Line where
  /-- Nothing but a comment or blanks. -/
  | blank
  /-- `.org addr`. -/
  | org (addr : Nat)
  /-- `.word v` or `.f32 r`: one raw word of data. -/
  | data (w : Word)
  /-- A command or a pseudo-instruction. -/
  | command (i : Instr)
  deriving DecidableEq, Repr

/-- What ends a token: blanks and the commas between operands. DESIGN CHOICE (log entry 19): a comma counts as a blank. -/
def isSeparator (c : Char) : Bool := c = ' ' || c = '\t' || c = ','

/-- A token added unless it is empty; its characters were gathered last first. -/
def flush (cur : List Char) (rest : List (List Char)) : List (List Char) :=
  if cur = [] then rest else cur.reverse :: rest

/-- The tokens of a line; `;` begins a comment. -/
def tokens : List Char → List Char → List (List Char)
  | [], cur => flush cur []
  | c :: cs, cur =>
    if c = ';' then flush cur []
    else if isSeparator c then flush cur (tokens cs [])
    else tokens cs (c :: cur)

/-- A hexadecimal digit's value (a decimal digit is one). -/
def digit (c : Char) : Option Nat :=
  if '0' ≤ c ∧ c ≤ '9' then some (c.toNat - '0'.toNat)
  else if 'a' ≤ c ∧ c ≤ 'f' then some (c.toNat - 'a'.toNat + 10)
  else if 'A' ≤ c ∧ c ≤ 'F' then some (c.toNat - 'A'.toNat + 10)
  else none

/-- Digits of a base, with what was read before them. -/
def digits (base : Nat) : List Char → Nat → Option Nat
  | [], n => some n
  | c :: cs, n =>
    match digit c with
    | some v => if v < base then digits base cs (n * base + v) else none
    | none => none

/-- An unsigned integer in decimal or 0x hex (R100). DESIGN CHOICE (log entry 19): leading zeros, and hex digits of either case, are
accepted. -/
def nat : List Char → Option Nat
  | [] => none
  | '0' :: 'x' :: c :: cs => digits 16 (c :: cs) 0
  | cs => digits 10 cs 0

/-- A decimal real without its sign: its digits as one number, and how many of them stand after the point. DESIGN
CHOICE (log entry 19): R100 gives no spelling; the point may be missing, or stand first or last, and there is no exponent. -/
def decimal (cs : List Char) : Option (Nat × Nat) :=
  let whole := cs.takeWhile (· ≠ '.')
  let part := (cs.dropWhile (· ≠ '.')).drop 1
  if whole ++ part = [] then none
  else (digits 10 (whole ++ part) 0).map fun n => (n, part.length)

/-- The binary32 pattern of the decimal real digits * 10^-places, if it converts exactly (R100). -/
def exactPattern (neg : Bool) (digits places : Nat) : Except Error Word :=
  let n := digits * 2 ^ 149
  let m := n / 10 ^ places
  let b := BitVec.ofNat 32 (F32.roundMag 0 m)
  if n % 10 ^ places = 0 ∧ F32.isFinite b ∧ F32.mag b = m then .ok (F32.pack neg (F32.roundMag 0 m))
  else .error .inexactReal

/-- A decimal real (R100). DESIGN CHOICE (log entry 19): a minus sign is kept on a zero, and a plus sign is rejected. -/
def real : List Char → Except Error Word
  | '-' :: cs =>
    match decimal cs with
    | some (n, p) => exactPattern true n p
    | none => .error .syntaxError
  | cs =>
    match decimal cs with
    | some (n, p) => exactPattern false n p
    | none => .error .syntaxError

/-- A number as a field of `w` bits. DESIGN CHOICE (log entry 19): one that the field does not hold is rejected. -/
def field (w : Nat) (cs : List Char) : Except Error (BitVec w) :=
  match nat cs with
  | some n => if n < 2 ^ w then .ok (BitVec.ofNat w n) else .error .tooLarge
  | none => .error .syntaxError

/-- `#scalar` of R100: a decimal real, or `#f32:0xHHHHHHHH` for a raw pattern. DESIGN CHOICE (log entry 19): R100 says nothing of other
spellings of the raw pattern; any unsigned integer of 32 bits is accepted after `#f32:`, in decimal or in hex with fewer or more
digits. -/
def scalar : List Char → Except Error Word
  | '#' :: 'f' :: '3' :: '2' :: ':' :: cs => field 32 cs
  | '#' :: cs => real cs
  | _ => .error .syntaxError

/-- The operands of a command, destination first (R100), for the mnemonics of R94 and R101. DESIGN CHOICE (log entry 19): mnemonics
are taken in capitals only, and NST = 0 and BW = 0 are assembled as written (the decoder rejects them, R98). -/
def command (name : List Char) (ops : List (List Char)) : Except Error Instr :=
  match ops with
  | [] => if name = "END".toList then .ok .endList else .error .syntaxError
  | [x, y] =>
    if name = "BQINIT".toList then do return .bqinit (← field 32 x) (← field 8 y)
    else if name = "ZERO".toList then do return .zero (← field 32 x) (← field 32 y)
    else .error .syntaxError
  | [x, y, z] =>
    if name = "CONV16".toList then do return .conv16 (← field 32 x) (← field 32 y) (← field 32 z)
    else if name = "FILL".toList then do return .fill (← field 32 x) (← scalar y) (← field 32 z)
    else if name = "COPY".toList then do return .copy (← field 32 x) (← field 32 y) (← field 32 z)
    else if name = "NEG".toList then do return .neg (← field 32 x) (← field 32 y) (← field 32 z)
    else .error .syntaxError
  | [x, y, z, u] =>
    if name = "SUB".toList then do return .sub (← field 32 x) (← field 32 y) (← field 32 z) (← field 32 u)
    else if name = "SCALE".toList then do return .scale (← field 32 x) (← field 32 y) (← scalar z) (← field 32 u)
    else if name = "OFFSET".toList then do return .offset (← field 32 x) (← field 32 y) (← scalar z) (← field 32 u)
    else if name = "MUL".toList then do return .mul (← field 32 x) (← field 32 y) (← field 32 z) (← field 32 u)
    else if name = "SSHR".toList then do return .sshr (← field 32 x) (← field 32 y) (← field 5 z) (← field 6 u)
    else .error .syntaxError
  | [x, y, z, u, n, len] =>
    if name = "BIQUAD".toList then do
      return .biquad (← field 32 x) (← field 32 y) (← field 32 z) (← field 32 u) (← field 8 n) (← field 32 len)
    else .error .syntaxError
  | _ => .error .syntaxError

/-- One line of text (R100). -/
def line (cs : List Char) : Except Error Line :=
  match tokens cs [] with
  | [] => .ok .blank
  | [d, x] =>
    if d = ".org".toList then
      match nat x with
      | some a => if a % 4 = 0 then .ok (.org a) else .error .orgAlignment
      | none => .error .syntaxError
    else if d = ".word".toList then do return .data (← field 32 x)
    else if d = ".f32".toList then do return .data (← real x)
    else .error .syntaxError
  | name :: ops => do return .command (← command name ops)

/-- A line's effect on the current address and the contents placed so far: a command is one descriptor and advances by 32, a
data word advances by 4 (R100). -/
def place (l : Line) (at_ : Nat) (m : Memory) : Nat × Memory :=
  match l with
  | .blank => (at_, m)
  | .org a => (a, m)
  | .data w => (at_ + 4, m.write32 at_ w)
  | .command i => (at_ + 32, (encode i).bytes.zipIdx.foldl (fun m b => m.writeByte (at_ + b.2) b.1) m)

/-- The lines one after another. -/
def assembleFrom : List (List Char) → Nat → Memory → Except Error Memory
  | [], _, m => .ok m
  | cs :: rest, at_, m =>
    match line cs with
    | .ok l => assembleFrom rest (place l at_ m).1 (place l at_ m).2
    | .error e => .error e

/-- A program's DMEM contents. DESIGN CHOICE (log entry 19): the first line stands at address 0 where no `.org` comes before it,
and a later line's bytes replace an earlier line's. -/
def assemble (text : List (List Char)) : Except Error Memory := assembleFrom text 0 []

end Sys2Proof.Machine.Asm
end

