-- ==== Sys2Proof/Safety.lean ====
section
/-! DEFINITION. The words the claims use: the invariant of the machine, the operand conditions under which a command executes, the
bytes a command stores to, and the DMEM accesses it makes, each written from the spec's own tables and not from the meanings. -/

namespace Sys2Proof.Machine

/-! ### The register invariants and the invariant of the whole state -/

/-- R49: the three register invariants. -/
structure State.RegInv (s : State) : Prop where
  /-- (1) ERR = 0 implies ECODE = 0 and EOPND = 0. -/
  noFault : s.status.err = false → s.status.ecode = 0 ∧ s.status.eopnd = 0
  /-- (2) BUSY = 1 implies ERR = 0 and DONE = 0. -/
  busy : s.status.busy = true → s.status.err = false ∧ s.status.done = false
  /-- (3) ERR = 1 implies ECODE is one of the codes 0x01 to 0x06. -/
  fault : s.status.err = true → 1 ≤ s.status.ecode.toNat ∧ s.status.ecode.toNat ≤ 6

/-- What holds of the hidden state between two single accesses: at a command's boundary nothing is latched (R48); once the first
word is fetched the 32 descriptor bytes are in DMEM (R122); during Execute the latched descriptor has been decoded and
validated (R121). -/
def State.seqOk (s : State) : Prop :=
  match s.seq.phase with
  | .fetch j => if j = 0 then s.seq = .idle else inRange s.cfg.dmemSize s.cmdptr.toNat 32 = true
  | .decode => True
  | .execute => ∃ i b, decode s.seq.desc = .ok i ∧ bodyOf i = some b ∧ validate s.cfg.dmemSize b.operands = none ∧
      s.seq.i < b.stages
  | .advance => True

/-- The invariant of the machine. -/
structure State.Inv (s : State) : Prop where
  /-- The parameters meet R3's constraints. -/
  cfg : s.cfg.wf
  /-- DMEM is in canonical form. -/
  memWf : s.mem.wf
  /-- Every entry of DMEM lies in 0 .. DMEM_SIZE-1 (R47). -/
  memWithin : s.mem.within s.cfg.dmemSize
  /-- CMDPTR[1:0] = 0 (R40). -/
  ptrAligned : s.cmdptr.toNat % 4 = 0
  /-- R49. -/
  regs : s.RegInv
  /-- ERR and DONE are never both 1 (R210). -/
  oneEnd : ¬ (s.status.err = true ∧ s.status.done = true)
  /-- While idle, nothing is latched (R48, R132). -/
  idle : s.status.busy = false → s.seq = .idle
  /-- The hidden state (R48, R121). -/
  seqOk : s.seqOk

/-! ### The operand table R95 -/

/-- An operand meets R124: its base is aligned, and its bytes are in range (R77). -/
abbrev OperandOk (size : Nat) (base : Word) (align bytes : Nat) : Prop :=
  base.toNat % align = 0 ∧ (bytes = 0 ∨ base.toNat + bytes ≤ size)

/-- R95's address operands of each command in index order: index, base, alignment, byte length. -/
def operandTable : Instr → List (BitVec 3 × Word × Nat × Nat)
  | .endList => []
  | .conv16 d a len => [(1, a, 4, 4 * len.toNat), (3, d, 2, 2 * len.toNat)]
  | .fill d _ len => [(3, d, 4, 4 * len.toNat)]
  | .sub d a b len => [(1, a, 4, 4 * len.toNat), (2, b, 4, 4 * len.toNat), (3, d, 4, 4 * len.toNat)]
  | .scale d a _ len => [(1, a, 4, 4 * len.toNat), (3, d, 4, 4 * len.toNat)]
  | .offset d a _ len => [(1, a, 4, 4 * len.toNat), (3, d, 4, 4 * len.toNat)]
  | .mul d a b len => [(1, a, 4, 4 * len.toNat), (2, b, 4, 4 * len.toNat), (3, d, 4, 4 * len.toNat)]
  | .bqinit s nst => [(5, s, 4, 16 * nst.toNat)]
  | .biquad d a c s nst len =>
    [(1, a, 4, 4 * len.toNat), (3, d, 4, 4 * len.toNat), (4, c, 4, 20 * nst.toNat), (5, s, 4, 16 * nst.toNat)]
  | .sshr d a _ _ => [(1, a, 4, 4), (3, d, 4, 4)]

/-- Every address operand of a command meets R124. -/
abbrev OperandsOk (size : Nat) (i : Instr) : Prop := ∀ o ∈ operandTable i, OperandOk size o.2.1 o.2.2.1 o.2.2.2

/-- The DMEM ranges a command stores to: first address and number of bytes (R95; BIQUAD also writes its state, R173). -/
def storeRanges : Instr → List (Nat × Nat)
  | .endList => []
  | .conv16 d _ len => [(d.toNat, 2 * len.toNat)]
  | .fill d _ len => [(d.toNat, 4 * len.toNat)]
  | .sub d _ _ len => [(d.toNat, 4 * len.toNat)]
  | .scale d _ _ len => [(d.toNat, 4 * len.toNat)]
  | .offset d _ _ len => [(d.toNat, 4 * len.toNat)]
  | .mul d _ _ len => [(d.toNat, 4 * len.toNat)]
  | .bqinit s nst => [(s.toNat, 16 * nst.toNat)]
  | .biquad d _ _ s nst len => [(d.toNat, 4 * len.toNat), (s.toNat, 16 * nst.toNat)]
  | .sshr d _ _ _ => [(d.toNat, 4)]

/-- An address in none of the ranges a command stores to. -/
abbrev NotStored (i : Instr) (x : Nat) : Prop := ∀ r ∈ storeRanges i, x < r.1 ∨ r.1 + r.2 ≤ x

/-- Two blocks of `n` bytes at the same base or with no byte in common (R241 (3), R157). -/
abbrev SameOrApart (x y : Word) (n : Nat) : Prop := x = y ∨ x.toNat + n ≤ y.toNat ∨ y.toNat + n ≤ x.toNat

/-! ### The state a completed command leaves -/

/-- `s` with its DMEM replaced and the command counted (R127): CMDCOUNT + 1, CMDPTR + 32, no hidden state carried on (R48),
everything else as it was. -/
def State.completed (s : State) (m : Memory) : State :=
  { s with mem := m, cmdcount := s.cmdcount + 1, cmdptr := s.cmdptr + 32, seq := .idle }

/-- `s` with STATUS.NV set to `v`. -/
def State.setNVTo (s : State) (v : Bool) : State := { s with status := { s.status with nv := v } }

/-! ### DMEM accesses -/

/-- One DMEM access of the sequencer. -/
structure Access where
  isWrite : Bool
  addr : Nat
  bytes : Nat
  deriving DecidableEq, Repr

/-- The DMEM accesses of a sequence of actions carried out from a state, in order. -/
def Prog.trace : Prog → State → List Access
  | .ret _, _ => []
  | .read a k, s => ⟨false, a, 4⟩ :: (k (s.mem.read32 a)).trace s
  | .write a n v k, s => ⟨true, a, n⟩ :: k.trace (s.withMem (s.mem.writeLE a n v))
  | .setNV k, s => k.trace s.withNV

/-- The accesses of stages `i` to `i + n - 1` of element `k`. -/
def Body.traceStages (b : Body) (k : Nat) : Nat → Nat → Word → State → List Access
  | _, 0, _, _ => []
  | i, n + 1, x, s =>
    (b.unit k i x).trace s ++ b.traceStages k (i + 1) n ((b.unit k i x).run s).1 ((b.unit k i x).run s).2

/-- The accesses of elements `k` to `k + n - 1`. -/
def Body.traceElems (b : Body) : Nat → Nat → State → List Access
  | _, 0, _ => []
  | k, n + 1, s => b.traceStages k 0 b.stages 0 s ++ b.traceElems (k + 1) n (b.runStages k 0 b.stages 0 s)

/-- The DMEM accesses Execute makes for a command from a state, in order; END makes none (R81). -/
def executeTrace (i : Instr) (s : State) : List Access :=
  match bodyOf i with
  | none => []
  | some b => b.traceElems 0 b.count s

/-- The number of accesses R247 gives for a command after its fetch. -/
def workOf : Instr → Nat
  | .endList => 0
  | .conv16 _ _ len => 2 * len.toNat
  | .fill _ _ len => len.toNat
  | .sub _ _ _ len => 3 * len.toNat
  | .scale _ _ _ len => 2 * len.toNat
  | .offset _ _ _ len => 2 * len.toNat
  | .mul _ _ _ len => 3 * len.toNat
  | .bqinit _ nst => 4 * nst.toNat
  | .biquad _ _ _ _ nst len => len.toNat * (2 + 13 * nst.toNat)
  | .sshr _ _ _ _ => 2

/-! ### What stands at CMDPTR -/

/-- The 32 bytes at CMDPTR, the descriptor to be fetched (R122). -/
def State.descriptorBytes (s : State) : List Byte := (List.range 32).map fun j => s.mem.readByte (s.cmdptr.toNat + j)

/-- `s` with a fault recorded as R206 says: ECODE, EOPND, FAULTADDR, ERR <- 1, BUSY <- 0, nothing latched (R48), and everything
else as it was. -/
def State.faulted (s : State) (ecode : BitVec 8) (eopnd : BitVec 3) (addr : Word) : State :=
  { s with
    status := { busy := false, done := s.status.done, err := true, nv := s.status.nv, ecode := ecode, eopnd := eopnd }
    faultaddr := addr
    seq := .idle }

end Sys2Proof.Machine
end

