-- ==== Sys2Proof/Certificates/Slice0/Obligations.lean ====
section
/-! DEFINITION. The statements for the provers, from the numbered rules of spec/ file by file. -/

open Sys2Proof Sys2Proof.Machine

/-! ### Encoding (spec/30_encoding.md) -/

/-- Decoding the encoding of a command gives the command back, with every operand at every value its field holds (R91, R92, R95,
R99): no bit of an encoding is dropped. -/
def Obligations.DecodeEncodeRoundTrip : Prop :=
  ∀ i : Instr, i.wellFormed = true → decode (encode i) = .ok i

/-- The same on the 32 bytes of the descriptor, whatever bytes follow (R90, R71). -/
def Obligations.DecodeBytesOfEncoding : Prop :=
  ∀ (i : Instr) (rest : List Byte), i.wellFormed = true → decodeBytes ((encode i).bytes ++ rest) = .ok (i, rest)

/-- R99: the decoding procedure, check by check and in its order, on every descriptor. -/
def Obligations.DecodeFollowsProcedure : Prop :=
  ∀ d : Descriptor,
    let op := (d.w0.extractLsb' 0 8).toNat
    let rsvd : Word := if op ≤ 0x06 then 0xFFFFFF00#32 else if op ≤ 0x08 then 0xFFFF0000#32 else 0xF800FF00#32
    let nst := d.w0.extractLsb' 8 8
    let sh := d.w0.extractLsb' 16 5
    let bw := d.w0.extractLsb' 21 6
    decode d =
      if 0x09 < op then .error .illegalOp
      else if d.w0 &&& rsvd ≠ 0 then .error .rsvdField
      else if (op = 0x07 ∨ op = 0x08) ∧ nst = 0 then .error .badParam
      else if op = 0x09 ∧ bw = 0 then .error .badParam
      else .ok (
        if op = 0x00 then .endList
        else if op = 0x01 then .conv16 d.w3 d.w1 d.w6
        else if op = 0x02 then .fill d.w3 d.w2 d.w6
        else if op = 0x03 then .sub d.w3 d.w1 d.w2 d.w6
        else if op = 0x04 then .scale d.w3 d.w1 d.w2 d.w6
        else if op = 0x05 then .offset d.w3 d.w1 d.w2 d.w6
        else if op = 0x06 then .mul d.w3 d.w1 d.w2 d.w6
        else if op = 0x07 then .bqinit d.w5 nst
        else if op = 0x08 then .biquad d.w3 d.w1 d.w4 d.w5 nst d.w6
        else .sshr d.w3 d.w1 sh bw)

/-- An accepted descriptor's control word is the one control word of its command (R96, R97: every legal opcode with every legal
field value has exactly one meaning), and the command's fields are accepted ones (R98). -/
def Obligations.AcceptedControlWord : Prop :=
  ∀ (d : Descriptor) (i : Instr), decode d = .ok i → (encode i).w0 = d.w0 ∧ i.wellFormed = true

/-- Descriptors written out in spec/95_test_vectors.md (programs P1 to P3, whose SSHR has the control word of V-SH-17, and the
vectors V-DC-02, V-CV-37 and V-BI-04) decode to the commands, or to the rejections, given there. -/
def Obligations.SpecWordsDecode : Prop :=
  decode ⟨0x00000207, 0, 0, 0, 0, 0x140, 0, 0⟩ = .ok (.bqinit 0x140 2) ∧
  decode ⟨0x00000208, 0x200, 0, 0x300, 0x100, 0x140, 4, 0⟩ = .ok (.biquad 0x300 0x200 0x100 0x140 2 4) ∧
  decode ⟨0x00000001, 0x300, 0, 0x400, 0, 0, 4, 0⟩ = .ok (.conv16 0x400 0x300 4) ∧
  decode ⟨0x00000003, 0x240, 0x230, 0x250, 0, 0, 4, 0⟩ = .ok (.sub 0x250 0x240 0x230 4) ∧
  decode ⟨0x01040009, 0x100, 0, 0x104, 0, 0, 0, 0⟩ = .ok (.sshr 0x104 0x100 4 8) ∧
  decode ⟨0x0000010A, 0, 0, 0, 0, 0, 0, 0⟩ = .error .illegalOp ∧
  decode ⟨0x00000101, 0, 0, 0, 0, 0, 0, 0⟩ = .error .rsvdField ∧
  decode ⟨0x00000007, 0, 0, 0, 0, 0, 0, 0⟩ = .error .badParam

/-- Lines of the assembler R100 and the pseudo-instructions R101, from the programs of spec/95_test_vectors.md (P1, P2, P4, P6). -/
def Obligations.AssemblerLines : Prop :=
  Asm.line "        BIQUAD 0x300, 0x200, 0x100, 0x140, 2, 4".toList = .ok (.command (.biquad 0x300 0x200 0x100 0x140 2 4)) ∧
  Asm.line "SCALE  0x250, 0x250, #-4.0, 4".toList = .ok (.command (.scale 0x250 0x250 0xC0800000 4)) ∧
  Asm.line "FILL 0x020, #f32:0x00000000, 1".toList = .ok (.command (.fill 0x20 0 1)) ∧
  Asm.line "ZERO 0x080, 2                   ; FILL 0x080, #f32:0x00000000, 2".toList = .ok (.command (.fill 0x80 0 2)) ∧
  Asm.line ".org 0x100                     ; coefficients, stage 0 then stage 1".toList = .ok (.org 0x100) ∧
  Asm.line "        .f32 -0.5".toList = .ok (.data 0xBF000000)

/-! ### The command cycle (spec/40_sequencer.md) -/

/-- At a command's boundary, with no turn pending, a step runs the command that the 32 bytes at CMDPTR decode to (R121, R122,
R85: they are read as they then stand). The step adds nothing around `exec`: the update of CMDPTR is the command's own (R127). -/
def Obligations.StepRunsDecodedInstruction : Prop :=
  ∀ (s : State) (i : Instr), s.turns = [] → s.status.busy = true → s.seq.phase = .fetch 0 →
    s.cmdptr.toNat + 32 ≤ s.cfg.dmemSize → decodeBytes s.descriptorBytes = .ok (i, []) → step s = exec i s

/-- At a command's boundary, a descriptor not wholly in DMEM raises FETCH_OOR, and one the decoder rejects raises the decoder's
fault, each with EOPND = 0 and FAULTADDR = CMDPTR (R122, R123, R200, R206). -/
def Obligations.FetchAndDecodeTrap : Prop :=
  ∀ s : State, s.turns = [] → s.status.busy = true → s.seq.phase = .fetch 0 →
    (s.cfg.dmemSize < s.cmdptr.toNat + 32 → step s = .next (s.faulted 0x01 0 s.cmdptr)) ∧
    (s.cmdptr.toNat + 32 ≤ s.cfg.dmemSize →
      (decodeBytes s.descriptorBytes = .error (.rejected .illegalOp) → step s = .next (s.faulted 0x02 0 s.cmdptr)) ∧
      (decodeBytes s.descriptorBytes = .error (.rejected .rsvdField) → step s = .next (s.faulted 0x03 0 s.cmdptr)) ∧
      (decodeBytes s.descriptorBytes = .error (.rejected .badParam) → step s = .next (s.faulted 0x04 0 s.cmdptr)))

/-- While BUSY = 0 the sequencer makes no step: with no turn pending nothing changes, and a turn given to it changes only the
list of turns (R132). -/
def Obligations.IdleSequencerMakesNoStep : Prop :=
  ∀ s : State, s.status.busy = false →
    (s.turns = [] → step s = .next s) ∧
    ∀ rest, s.turns = .sequencer :: rest → step s = .next { s with turns := rest }

/-- END (R129): BUSY <- 0, DONE <- 1, and, nothing being carried on (R48), no other change: CMDPTR and CMDCOUNT are kept. -/
def Obligations.EndEndsRun : Prop :=
  ∀ s : State, exec .endList s = .next { s with status := { s.status with busy := false, done := true }, seq := .idle }

/-- Validation (R124, R203): the operands of R95 are checked in index order; the first one that is misaligned or out of range
traps, alignment before range, with its index and base, and nothing else changes (R206). -/
def Obligations.FirstBadOperandTraps : Prop :=
  ∀ (s : State) (i : Instr) (pre post : List (BitVec 3 × Word × Nat × Nat)) (o : BitVec 3 × Word × Nat × Nat),
    i.wellFormed = true → operandTable i = pre ++ o :: post →
    (∀ p ∈ pre, OperandOk s.cfg.dmemSize p.2.1 p.2.2.1 p.2.2.2) → ¬ OperandOk s.cfg.dmemSize o.2.1 o.2.2.1 o.2.2.2 →
    exec i s = .next (s.faulted (if o.2.1.toNat % o.2.2.1 ≠ 0 then 0x05 else 0x06) o.1 o.2.1)

/-- BAD_PARAM from the commands themselves (R98, R202). The decoder rejects these field values first in every run (R99), so that
the commands check them as well is the model's own choice (log entry 12). -/
def Obligations.BadParamTraps : Prop :=
  ∀ (s : State) (d a c v len : Word) (sh : BitVec 5),
    exec (.bqinit v 0) s = .next (s.faulted 0x04 0 s.cmdptr) ∧
    exec (.biquad d a c v 0 len) s = .next (s.faulted 0x04 0 s.cmdptr) ∧
    exec (.sshr d a sh 0) s = .next (s.faulted 0x04 0 s.cmdptr)

/-- A command other than END whose operands are good completes (R125: a body never faults; R127), and its frame: CTRL, FAULTADDR,
the parameters, the pending turns, the bus response and every STATUS field are unchanged, but for NV after CONV16 (R142, R46);
every byte of DMEM outside the ranges it stores to reads as before. -/
def Obligations.CompletedCommandFrame : Prop :=
  ∀ (s : State) (i : Instr), i ≠ .endList → i.wellFormed = true → OperandsOk s.cfg.dmemSize i →
    ∃ t, exec i s = .next t ∧ t.cmdcount = s.cmdcount + 1 ∧ t.cmdptr = s.cmdptr + 32 ∧ t.seq = .idle ∧
      t.ctrl = s.ctrl ∧ t.faultaddr = s.faultaddr ∧ t.cfg = s.cfg ∧ t.turns = s.turns ∧ t.reply = s.reply ∧
      t.status = { s.status with nv := t.status.nv } ∧
      (t.status.nv ≠ s.status.nv → ∃ d a len, i = .conv16 d a len) ∧
      ∀ x, NotStored i x → t.mem.readByte x = s.mem.readByte x

/-- Faults are precise (R204, R206), at either grain and whatever turns are pending: a step that sets ERR is a move of the sequencer
during a run, and changes ECODE, EOPND, FAULTADDR, ERR and BUSY and nothing else (nothing is latched after it, R48); in particular no
byte of DMEM, CMDPTR, CMDCOUNT, CTRL, DONE or NV. Where the hidden state is that of a run (`seqOk`), the step falls before the command's
Execute: at its boundary, or at Decode and Validate, its descriptor fetched and nothing else accessed. -/
def Obligations.FaultsArePrecise : Prop :=
  ∀ s t : State, s.status.err = false → step s = .next t → t.status.err = true →
    t = (s.withTurns s.turns.tail).faulted t.status.ecode t.status.eopnd t.faultaddr ∧
    s.status.busy = true ∧ (∀ x rest, s.turns ≠ .host x :: rest) ∧
    (s.seqOk → s.seq.phase = .fetch 0 ∨ s.seq.phase = .decode)

/-- R126: a block command with LEN = 0 is validated: a bad operand traps as R124 says. When its operands pass, it completes with
no element access: it makes no DMEM access at all, and DMEM, NV and everything but CMDCOUNT and CMDPTR are as before. -/
def Obligations.LenZeroTouchesNothing : Prop :=
  ∀ (s : State) (d a b c v x : Word) (nst : BitVec 8), nst ≠ 0 →
    ∀ i ∈ [Instr.conv16 d a 0, .fill d x 0, .sub d a b 0, .scale d a x 0, .offset d a x 0, .mul d a b 0,
        .biquad d a c v nst 0],
      (OperandsOk s.cfg.dmemSize i → exec i s = .next (s.completed s.mem) ∧ executeTrace i s = []) ∧
      (¬ OperandsOk s.cfg.dmemSize i → ∃ o ∈ operandTable i, ¬ OperandOk s.cfg.dmemSize o.2.1 o.2.2.1 o.2.2.2 ∧
        exec i s = .next (s.faulted (if o.2.1.toNat % o.2.2.1 ≠ 0 then 0x05 else 0x06) o.1 o.2.1))

/-- R49: every step keeps the three register invariants, from every state that has them, and reset has them. -/
def Obligations.StepKeepsRegisterInvariants : Prop :=
  State.reset.RegInv ∧ ∀ s t : State, s.RegInv → step s = .next t → t.RegInv

/-- Every run ends (R130): from a command's boundary with no turn pending, BUSY = 0 after at most
floor((DMEM_SIZE - CMDPTR) / 32) + 1 steps (one step where CMDPTR is past DMEM). That a whole command is one
step here is the model's choice (log entry 3). -/
def Obligations.EveryRunEnds : Prop :=
  ∀ s : State, s.cfg.wf → s.turns = [] → s.status.busy = true → s.seq = .idle →
    ∃ n t, n ≤ (s.cfg.dmemSize - s.cmdptr.toNat) / 32 + 1 ∧ Sys2Proof.core.run n s = .next t ∧ t.status.busy = false

/-- The two grains agree (R121): whatever a whole command leads to in one step is what some number of single accesses of the
sequencer, with no host access between them, leads to. The one-step command is the model's choice (log entry 3), and
the internal steps, counted as accesses here, are its reading of R81 and R127 (log entry 4). -/
def Obligations.AccessesRefineCommand : Prop :=
  ∀ s t : State, s.turns = [] → s.status.busy = true → s.seq = .idle → step s = .next t →
    ∃ n, Sys2Proof.core.run n { s with turns := List.replicate n .sequencer } = .next t

/-- BUSY goes to 0 in three ways only (R131): at END, whose descriptor is the one at CMDPTR for a whole command and the latched one
otherwise, with DONE = 1 and nothing else changed (R129, R48); at a recorded fault, with ERR = 1 (R206); and at a reset event. -/
def Obligations.BusyEndsAtEndFaultOrReset : Prop :=
  ∀ s t : State, s.RegInv → s.status.busy = true → step s = .next t → t.status.busy = false →
    (t.status.done = true ∧ t.status.err = false ∧
      t = { s with turns := s.turns.tail, status := { s.status with busy := false, done := true }, seq := .idle } ∧
      ((s.turns = [] ∧ s.seq.phase = .fetch 0 ∧ s.cmdptr.toNat + 32 ≤ s.cfg.dmemSize ∧
          decodeBytes s.descriptorBytes = .ok (.endList, [])) ∨
        ((∀ j, s.seq.phase ≠ .fetch j) ∧ decode s.seq.desc = .ok .endList))) ∨
    (t.status.done = false ∧ t.status.err = true ∧
      ∃ code opnd addr, t = (s.withTurns s.turns.tail).faulted code opnd addr) ∨
    (∃ rest, s.turns = .host .reset :: rest ∧ t.status.done = false ∧ t.status.err = false)

/-! ### What each command computes (spec/41 to 44) -/

/-- CONV16 (R142, R140, R141): element by element in increasing order the 16-bit result is written: 0 for a NaN, which also sets
NV, else the product by 32768 of the element clamped to [-1.0, U], truncated toward zero and clamped to [-32768, 32767]. `F32.val`
counts units of 2^-149, so the product by 32768 counts units of 2^-134. -/
def Obligations.Conv16Completes : Prop :=
  ∀ (s : State) (d a len : Word), OperandsOk s.cfg.dmemSize (.conv16 d a len) →
    ∃ ms : Nat → Memory, ms 0 = s.mem ∧
      (∀ k < len.toNat,
        let f := (ms k).read32 (a.toNat + 4 * k)
        let c := if F32.lt f 0xBF800000#32 then 0xBF800000#32 else if F32.lt 0x3F7FFE00#32 f then 0x3F7FFE00#32 else f
        let r := min (max ((F32.val c).tdiv (2 ^ 134)) (-32768)) 32767
        ms (k + 1) = (ms k).write16 (d.toNat + 2 * k) (if F32.isNaN f then 0 else BitVec.ofInt 16 r)) ∧
      exec (.conv16 d a len) s = .next ((s.completed (ms len.toNat)).setNVTo
        (s.status.nv || (List.range len.toNat).any fun k => F32.isNaN ((ms k).read32 (a.toNat + 4 * k))))

/-- CONV16 with equal bases or with blocks that share no byte (R142's overlap corner, R241 (3)): the 16-bit word at D + 2k is the
conversion of what A + 4k held before the command. -/
def Obligations.Conv16ElementsApart : Prop :=
  ∀ (s : State) (d a len : Word), OperandsOk s.cfg.dmemSize (.conv16 d a len) →
    (d = a ∨ d.toNat + 2 * len.toNat ≤ a.toNat ∨ a.toNat + 4 * len.toNat ≤ d.toNat) →
    ∃ t, exec (.conv16 d a len) s = .next t ∧
      ∀ k < len.toNat, t.mem.readLE (d.toNat + 2 * k) 2 = (convert16 (s.mem.read32 (a.toNat + 4 * k))).toNat

/-- R143 (1) to (3): over inputs that are no NaN the 16-bit result is monotone in the value, infinities at the ends; inside
[-1.0, U] it is the truncation of 32768 times the value; it is 32767 exactly from U up, and -32768 exactly from -1.0 down. -/
def Obligations.ConversionProperties : Prop :=
  (∀ f g : Word, F32.isNaN f = false → F32.isNaN g = false → F32.lt g f = false →
    (convert16 f).toInt ≤ (convert16 g).toInt) ∧
  (∀ f : Word, F32.isFinite f = true → F32.lt f 0xBF800000#32 = false → F32.lt 0x3F7FFE00#32 f = false →
    (convert16 f).toInt = (F32.val f).tdiv (2 ^ 134)) ∧
  (∀ f : Word, F32.isNaN f = false →
    ((convert16 f).toInt = 32767 ↔ F32.lt f 0x3F7FFE00#32 = false) ∧
    ((convert16 f).toInt = -32768 ↔ F32.lt 0xBF800000#32 f = false))

/-- FILL (R152): every element reads as the pattern as it stands, and every other byte as before. -/
def Obligations.FillCompletes : Prop :=
  ∀ (s : State) (d x len : Word), OperandsOk s.cfg.dmemSize (.fill d x len) →
    ∃ m, exec (.fill d x len) s = .next (s.completed m) ∧
      (∀ k < len.toNat, m.read32 (d.toNat + 4 * k) = x) ∧
      ∀ y, y < d.toNat ∨ d.toNat + 4 * len.toNat ≤ y → m.readByte y = s.mem.readByte y

/-- SUB and MUL (R153, R156, R150): for k = 0, 1, ..., A + 4k and B + 4k are read as DMEM then stands, and the difference or the
product is written to D + 4k, whatever overlaps; no STATUS flag changes. -/
def Obligations.TwoSourceCommandsComplete : Prop :=
  ∀ (s : State) (d a b len : Word), OperandsOk s.cfg.dmemSize (.sub d a b len) →
    (∃ ms : Nat → Memory, ms 0 = s.mem ∧
      (∀ k < len.toNat, ms (k + 1) = (ms k).write32 (d.toNat + 4 * k)
        (F32.sub ((ms k).read32 (a.toNat + 4 * k)) ((ms k).read32 (b.toNat + 4 * k)))) ∧
      exec (.sub d a b len) s = .next (s.completed (ms len.toNat))) ∧
    (∃ ms : Nat → Memory, ms 0 = s.mem ∧
      (∀ k < len.toNat, ms (k + 1) = (ms k).write32 (d.toNat + 4 * k)
        (F32.mul ((ms k).read32 (a.toNat + 4 * k)) ((ms k).read32 (b.toNat + 4 * k)))) ∧
      exec (.mul d a b len) s = .next (s.completed (ms len.toNat)))

/-- SCALE and OFFSET (R154, R155, R150): for k = 0, 1, ..., A + 4k is read as DMEM then stands, and its product or sum with SCALAR
is written to D + 4k, whatever overlaps; no STATUS flag changes. -/
def Obligations.ScalarCommandsComplete : Prop :=
  ∀ (s : State) (d a x len : Word), OperandsOk s.cfg.dmemSize (.scale d a x len) →
    (∃ ms : Nat → Memory, ms 0 = s.mem ∧
      (∀ k < len.toNat, ms (k + 1) = (ms k).write32 (d.toNat + 4 * k) (F32.mul ((ms k).read32 (a.toNat + 4 * k)) x)) ∧
      exec (.scale d a x len) s = .next (s.completed (ms len.toNat))) ∧
    (∃ ms : Nat → Memory, ms 0 = s.mem ∧
      (∀ k < len.toNat, ms (k + 1) = (ms k).write32 (d.toNat + 4 * k) (F32.add ((ms k).read32 (a.toNat + 4 * k)) x)) ∧
      exec (.offset d a x len) s = .next (s.completed (ms len.toNat)))

/-- SUB, MUL, SCALE and OFFSET where each source block is the destination block or shares no byte with it (R157): every element of
the result is the operation on what the sources held before the command. -/
def Obligations.ElementwiseResultsApart : Prop :=
  ∀ (s : State) (d a b x len : Word), OperandsOk s.cfg.dmemSize (.sub d a b len) →
    SameOrApart d a (4 * len.toNat) → SameOrApart d b (4 * len.toNat) →
    (∃ t, exec (.sub d a b len) s = .next t ∧ ∀ k < len.toNat, t.mem.read32 (d.toNat + 4 * k) =
      F32.sub (s.mem.read32 (a.toNat + 4 * k)) (s.mem.read32 (b.toNat + 4 * k))) ∧
    (∃ t, exec (.mul d a b len) s = .next t ∧ ∀ k < len.toNat, t.mem.read32 (d.toNat + 4 * k) =
      F32.mul (s.mem.read32 (a.toNat + 4 * k)) (s.mem.read32 (b.toNat + 4 * k))) ∧
    (∃ t, exec (.scale d a x len) s = .next t ∧ ∀ k < len.toNat, t.mem.read32 (d.toNat + 4 * k) =
      F32.mul (s.mem.read32 (a.toNat + 4 * k)) x) ∧
    (∃ t, exec (.offset d a x len) s = .next t ∧ ∀ k < len.toNat, t.mem.read32 (d.toNat + 4 * k) =
      F32.add (s.mem.read32 (a.toNat + 4 * k)) x)

/-- BQINIT (R171): every one of the 16*NST bytes of the state vector reads 0 afterwards, every other byte as before. -/
def Obligations.BqinitZeroesState : Prop :=
  ∀ (s : State) (v : Word) (nst : BitVec 8), nst ≠ 0 → OperandsOk s.cfg.dmemSize (.bqinit v nst) →
    ∃ m, exec (.bqinit v nst) s = .next (s.completed m) ∧
      ∀ y, m.readByte y = if v.toNat ≤ y ∧ y < v.toNat + 16 * nst.toNat then 0 else s.mem.readByte y

/-- BIQUAD (R170, R173): DMEM and the stage value go through the samples in increasing k and the stages in increasing i, every
read and write of R173 in its order. `m k i` and `x k i` are DMEM and the stage's input before stage i of sample k. -/
def Obligations.BiquadCompletes : Prop :=
  ∀ (s : State) (d a c v : Word) (nst : BitVec 8) (len : Word), nst ≠ 0 →
    OperandsOk s.cfg.dmemSize (.biquad d a c v nst len) →
    ∃ (m : Nat → Nat → Memory) (x : Nat → Nat → Word), m 0 0 = s.mem ∧
      (∀ k < len.toNat, x k 0 = (m k 0).read32 (a.toNat + 4 * k)) ∧
      (∀ k < len.toNat, ∀ i < nst.toNat,
        let cb := c.toNat + 20 * i
        let sb := v.toNat + 16 * i
        let b0 := (m k i).read32 cb
        let b1 := (m k i).read32 (cb + 4)
        let b2 := (m k i).read32 (cb + 8)
        let a1 := (m k i).read32 (cb + 12)
        let a2 := (m k i).read32 (cb + 16)
        let x1 := (m k i).read32 sb
        let x2 := (m k i).read32 (sb + 4)
        let y1 := (m k i).read32 (sb + 8)
        let y2 := (m k i).read32 (sb + 12)
        let y0 := F32.sub (F32.sub (F32.add (F32.add (F32.mul b0 (x k i)) (F32.mul b1 x1)) (F32.mul b2 x2))
          (F32.mul a1 y1)) (F32.mul a2 y2)
        x k (i + 1) = y0 ∧
        m k (i + 1) = ((((m k i).write32 sb (x k i)).write32 (sb + 4) x1).write32 (sb + 8) y0).write32 (sb + 12) y1) ∧
      (∀ k < len.toNat, m (k + 1) 0 = (m k nst.toNat).write32 (d.toNat + 4 * k) (x k nst.toNat)) ∧
      exec (.biquad d a c v nst len) s = .next (s.completed (m len.toNat 0))

/-- The identity section of R175 (b0 = 1.0, b1 = b2 = a1 = a2 = +0.0): with finite state the output is the input for every input
that is no NaN, but that -0.0 can come out as +0.0; a NaN input, or a state element that is inf or NaN, gives the canonical NaN. -/
def Obligations.IdentitySection : Prop :=
  ∀ x x1 x2 y1 y2 : Word,
    let y := biquadOutput 0x3F800000#32 0 0 0 0 x x1 x2 y1 y2
    ((F32.isFinite x1 && F32.isFinite x2 && F32.isFinite y1 && F32.isFinite y2) = true → F32.isNaN x = false →
      y = x ∨ (x = 0x80000000#32 ∧ y = 0)) ∧
    ((F32.isFinite x1 && F32.isFinite x2 && F32.isFinite y1 && F32.isFinite y2) = false → y = 0x7FC00000#32) ∧
    (F32.isNaN x = true → y = 0x7FC00000#32)

/-- SSHR (R190, R191): the one word at A as a signed integer, divided by 2^SH rounding toward minus infinity, clamped to BW bits
if BW < 32, written to D mod 2^32. -/
def Obligations.SshrCompletes : Prop :=
  ∀ (s : State) (d a : Word) (sh : BitVec 5) (bw : BitVec 6), bw ≠ 0 → OperandsOk s.cfg.dmemSize (.sshr d a sh bw) →
    let r := (s.mem.read32 a.toNat).toInt / 2 ^ sh.toNat
    exec (.sshr d a sh bw) s = .next (s.completed (s.mem.write32 d.toNat (BitVec.ofInt 32
      (if bw.toNat < 32 then min (max r (-(2 ^ (bw.toNat - 1)))) (2 ^ (bw.toNat - 1) - 1) else r))))

/-- R192, of the signed value of the word written: (1) it is floor(v / 2^SH) whenever that lies in the BW-bit range or BW >= 32;
(2) otherwise it is the nearer bound of that range; (3) it does not decrease as v grows, for fixed SH and BW. -/
def Obligations.ShiftProperties : Prop :=
  ∀ (v w : Word) (sh : BitVec 5) (bw : BitVec 6), bw ≠ 0 →
    let q := v.toInt / 2 ^ sh.toNat
    let lo : Int := -(2 ^ (bw.toNat - 1))
    let hi : Int := 2 ^ (bw.toNat - 1) - 1
    let r := (saturatingShift v sh bw).toInt
    ((lo ≤ q ∧ q ≤ hi) ∨ 32 ≤ bw.toNat → r = q) ∧
    (bw.toNat < 32 → (q < lo → r = lo) ∧ (hi < q → r = hi)) ∧
    (v.toInt ≤ w.toInt → r ≤ (saturatingShift w sh bw).toInt)

/-! ### Binary32 arithmetic (spec/00_scope.md R9, R10) -/

/-- f32_add of finite patterns rounds the exact sum to nearest, ties to even (R10 (1) to (3)): below the overflow bound the result is
finite, no finite value is nearer, and where another is as near the result's last bit is 0; from the bound up it is the infinity of
the sum's sign; an exact zero is +0.0 unless both addends carry a minus sign. Values count units of 2^-149, in which
(2 - 2^-24) * 2^127 is (2^25 - 1) * 2^252. That this is IEEE 754 is taken from general knowledge (log entry 11). -/
def Obligations.AddRoundsToNearestEven : Prop :=
  ∀ a b : Word, F32.isFinite a = true → F32.isFinite b = true →
    let n := F32.val a + F32.val b
    let r := F32.add a b
    (n = 0 → r = if F32.sign a ∧ F32.sign b then 0x80000000#32 else 0) ∧
    (n ≠ 0 → n.natAbs < (2 ^ 25 - 1) * 2 ^ 252 → F32.isFinite r = true ∧ F32.sign r = decide (n < 0) ∧
      ∀ c : Word, F32.isFinite c = true → |F32.val r - n| ≤ |F32.val c - n| ∧
        (|F32.val r - n| = |F32.val c - n| → F32.val c ≠ F32.val r → r.getLsbD 0 = false)) ∧
    ((2 ^ 25 - 1) * 2 ^ 252 ≤ n.natAbs → r = if n < 0 then 0xFF800000#32 else 0x7F800000#32)

/-- f32_sub of finite patterns rounds the exact difference in the same way; an exact zero difference is +0.0 except for
(-0.0) - (+0.0) = -0.0 (R10; log entry 11). -/
def Obligations.SubRoundsToNearestEven : Prop :=
  ∀ a b : Word, F32.isFinite a = true → F32.isFinite b = true →
    let n := F32.val a - F32.val b
    let r := F32.sub a b
    (n = 0 → r = if a = 0x80000000#32 ∧ b = 0 then 0x80000000#32 else 0) ∧
    (n ≠ 0 → n.natAbs < (2 ^ 25 - 1) * 2 ^ 252 → F32.isFinite r = true ∧ F32.sign r = decide (n < 0) ∧
      ∀ c : Word, F32.isFinite c = true → |F32.val r - n| ≤ |F32.val c - n| ∧
        (|F32.val r - n| = |F32.val c - n| → F32.val c ≠ F32.val r → r.getLsbD 0 = false)) ∧
    ((2 ^ 25 - 1) * 2 ^ 252 ≤ n.natAbs → r = if n < 0 then 0xFF800000#32 else 0x7F800000#32)

/-- f32_mul of finite patterns rounds the exact product to nearest, ties to even, subnormal results kept (R10); the sign is the
XOR of the signs (R154; log entry 11). The product counts units of 2^-298. -/
def Obligations.MulRoundsToNearestEven : Prop :=
  ∀ a b : Word, F32.isFinite a = true → F32.isFinite b = true →
    let n := F32.val a * F32.val b
    let r := F32.mul a b
    F32.sign r = (F32.sign a != F32.sign b) ∧
    (n.natAbs < (2 ^ 25 - 1) * 2 ^ 401 → F32.isFinite r = true ∧
      ∀ c : Word, F32.isFinite c = true → |F32.val r * 2 ^ 149 - n| ≤ |F32.val c * 2 ^ 149 - n| ∧
        (|F32.val r * 2 ^ 149 - n| = |F32.val c * 2 ^ 149 - n| → F32.val c ≠ F32.val r → r.getLsbD 0 = false)) ∧
    ((2 ^ 25 - 1) * 2 ^ 401 ≤ n.natAbs → F32.isInf r = true)

/-- NaNs and infinities (R10 (4), R153 to R155): a NaN operand gives the canonical NaN; so do inf - inf, inf + (-inf) and 0 * inf;
otherwise an infinity gives an infinity. That the rest, an infinity with a finite operand among it, is IEEE 754 is taken from general
knowledge (log entry 11). -/
def Obligations.SpecialValues : Prop :=
  ∀ a b : Word,
    (F32.isNaN a = true ∨ F32.isNaN b = true →
      F32.add a b = 0x7FC00000#32 ∧ F32.sub a b = 0x7FC00000#32 ∧ F32.mul a b = 0x7FC00000#32) ∧
    (F32.isInf a = true → F32.isInf b = true →
      F32.add a b = (if F32.sign a = F32.sign b then a else 0x7FC00000#32) ∧
      F32.sub a b = (if F32.sign a = F32.sign b then 0x7FC00000#32 else a)) ∧
    (F32.isInf a = true → F32.isFinite b = true → F32.add a b = a ∧ F32.sub a b = a ∧
      F32.mul a b = (if F32.val b = 0 then 0x7FC00000#32
        else if F32.sign a = F32.sign b then 0x7F800000#32 else 0xFF800000#32)) ∧
    (F32.isFinite a = true → F32.isInf b = true → F32.add a b = b ∧ F32.sub a b = b ^^^ 0x80000000#32 ∧
      F32.mul a b = (if F32.val a = 0 then 0x7FC00000#32
        else if F32.sign a = F32.sign b then 0x7F800000#32 else 0xFF800000#32)) ∧
    (F32.isInf a = true → F32.isInf b = true →
      F32.mul a b = if F32.sign a = F32.sign b then 0x7F800000#32 else 0xFF800000#32)

/-- The pseudo-instructions (R101): their expansions, and the exactness that follows from R10: x + (-0.0) = x and
x * (-1.0) = -x for every x that is no NaN, and the canonical NaN for a NaN. -/
def Obligations.PseudoInstructionsExact : Prop :=
  (∀ d a len : Word, Instr.zero d len = .fill d 0x00000000#32 len ∧ Instr.copy d a len = .offset d a 0x80000000#32 len ∧
    Instr.neg d a len = .scale d a 0xBF800000#32 len) ∧
  ∀ x : Word,
    (F32.isNaN x = false → F32.add x 0x80000000#32 = x ∧ F32.mul x 0xBF800000#32 = x ^^^ 0x80000000#32) ∧
    (F32.isNaN x = true → F32.add x 0x80000000#32 = 0x7FC00000#32 ∧ F32.mul x 0xBF800000#32 = 0x7FC00000#32)

/-! ### DMEM accesses (spec/20_memory.md, spec/70_reset_and_hazards.md) -/

/-- After validation every DMEM access of Execute is aligned and in DMEM, and is a 4-byte read, a 4-byte write, or a 2-byte write
of CONV16 (R124, R72). -/
def Obligations.ExecuteAccessesAlignedInRange : Prop :=
  ∀ (s : State) (i : Instr), i.wellFormed = true → OperandsOk s.cfg.dmemSize i →
    ∀ x ∈ executeTrace i s, x.addr % x.bytes = 0 ∧ x.addr + x.bytes ≤ s.cfg.dmemSize ∧
      (x.bytes = 4 ∨ (x.bytes = 2 ∧ x.isWrite = true ∧ ∃ d a len, i = .conv16 d a len))

/-- The work of a command after its fetch, in DMEM accesses (R247's formulas). -/
def Obligations.WorkPerCommand : Prop :=
  ∀ (s : State) (i : Instr), i.wellFormed = true → (executeTrace i s).length = workOf i

/-- A command's effect on DMEM depends on nothing but its operands, DMEM and DMEM_SIZE (R45, R46, R143 (4), R157, R176): two
states that agree on DMEM and DMEM_SIZE are led to the same DMEM, whatever their registers and the other parameters are. -/
def Obligations.CommandReadsNoRegister : Prop :=
  ∀ (i : Instr) (s s' : State), s.cfg.dmemSize = s'.cfg.dmemSize → s.mem = s'.mem →
    ∃ t t', exec i s = .next t ∧ exec i s' = .next t' ∧ t.mem = t'.mem

/-- PREFILT has no effect on any command (R36): changing it before a command changes it after the command and nothing else. -/
def Obligations.PrefiltAffectsNoCommand : Prop :=
  ∀ (i : Instr) (s t : State) (p : Bool), exec i s = .next t →
    exec i { s with ctrl := { s.ctrl with prefilt := p } } = .next { t with ctrl := { t.ctrl with prefilt := p } }

/-- A latched descriptor is not changed by any step until it is done with (R85, R122): not by the command's own writes, nor by
the host's. -/
def Obligations.LatchedDescriptorStays : Prop :=
  ∀ s t : State, (∀ j, s.seq.phase ≠ .fetch j) → step s = .next t → (∀ j, t.seq.phase ≠ .fetch j) →
    t.seq.desc = s.seq.desc

/-! ### The host interface (spec/10_state.md, spec/60_exceptions.md) -/

/-- A register read (R30, R34, R35, R37, R43, R44, R75): the value of R34's map, and no other change. -/
def Obligations.HostReadsRegister : Prop :=
  ∀ (s : State) (off : Nat) (rest : List Turn), off < 0x100 → off % 4 = 0 →
    s.turns = .host (.read (s.cfg.apertureBase + off) 4) :: rest →
    step s = .next { s with turns := rest, reply := some (.data (
      if off = 0x00 then 0x44535031#32
      else if off = 0x04 then BitVec.ofNat 32 (2 * s.ctrl.prefilt.toNat + 4 * s.ctrl.irqen.toNat)
      else if off = 0x08 then BitVec.ofNat 32 (s.status.busy.toNat + 2 * s.status.done.toNat + 4 * s.status.err.toNat +
        8 * s.status.nv.toNat + 2 ^ 8 * s.status.ecode.toNat + 2 ^ 16 * s.status.eopnd.toNat)
      else if off = 0x0C then s.cmdptr
      else if off = 0x10 then s.faultaddr
      else if off = 0x14 then s.cmdcount
      else if off = 0x18 then BitVec.ofNat 32 s.cfg.dmemSize
      else 0)) }

/-- A STATUS write (R38): bit 1 clears DONE, bit 2 clears ERR, ECODE and EOPND, bit 3 clears NV, every other bit is ignored, and
BUSY cannot be written. -/
def Obligations.HostWritesStatus : Prop :=
  ∀ (s : State) (w : Word) (rest : List Turn), s.turns = .host (.write (s.cfg.apertureBase + 0x08) 4 w) :: rest →
    step s = .next { s with
      turns := rest
      reply := some .ack
      status := {
        busy := s.status.busy
        done := s.status.done && !w.getLsbD 1
        err := s.status.err && !w.getLsbD 2
        nv := s.status.nv && !w.getLsbD 3
        ecode := if w.getLsbD 2 then 0 else s.status.ecode
        eopnd := if w.getLsbD 2 then 0 else s.status.eopnd } }

/-- A CTRL write (R120): PREFILT and IRQEN are taken in every case; START is accepted exactly if BUSY = 0 and ERR = 0, and then
DONE <- 0, CMDCOUNT <- 0 and BUSY <- 1, CMDPTR and NV being kept; otherwise nothing else changes. Nothing is latched when a run
begins (R48). -/
def Obligations.HostWritesCtrl : Prop :=
  ∀ (s : State) (w : Word) (rest : List Turn), s.turns = .host (.write (s.cfg.apertureBase + 0x04) 4 w) :: rest →
    step s = .next (
      if w.getLsbD 0 = true ∧ s.status.busy = false ∧ s.status.err = false then
        { s with turns := rest, reply := some .ack, ctrl := { prefilt := w.getLsbD 1, irqen := w.getLsbD 2 }
                 status := { s.status with done := false, busy := true }, cmdcount := 0, seq := .idle }
      else
        { s with turns := rest, reply := some .ack, ctrl := { prefilt := w.getLsbD 1, irqen := w.getLsbD 2 } })

/-- A CMDPTR write (R40): ignored while BUSY = 1, otherwise stored with bits 1:0 cleared. -/
def Obligations.HostWritesCmdptr : Prop :=
  ∀ (s : State) (w : Word) (rest : List Turn), s.turns = .host (.write (s.cfg.apertureBase + 0x0C) 4 w) :: rest →
    step s = .next { s with
      turns := rest
      reply := some .ack
      cmdptr := if s.status.busy then s.cmdptr else BitVec.ofNat 32 (w.toNat / 4 * 4) }

/-- Reserved offsets (R44) read as 0, ignore writes and give no bus error; writes to the read-only registers ID, FAULTADDR, CMDCOUNT
and DMEMSZ are ignored too (R34). -/
def Obligations.ReservedAndReadOnlyOffsets : Prop :=
  ∀ (s : State) (off : Nat) (w : Word) (rest : List Turn), off % 4 = 0 →
    (0x1C ≤ off → off ≤ 0xFC → s.turns = .host (.read (s.cfg.apertureBase + off) 4) :: rest →
      step s = .next { s with turns := rest, reply := some (.data 0) }) ∧
    ((0x1C ≤ off ∧ off ≤ 0xFC) ∨ off = 0x00 ∨ off = 0x10 ∨ off = 0x14 ∨ off = 0x18 →
      s.turns = .host (.write (s.cfg.apertureBase + off) 4 w) :: rest →
      step s = .next { s with turns := rest, reply := some .ack })

/-- Little-endian for mixed widths (R71): after the host writes a 4-byte value at a, a 2-byte read at a gives bits 15:0, one at
a + 2 bits 31:16, and a 1-byte read at a + j bits 8j+7 .. 8j. -/
def Obligations.MixedWidthReads : Prop :=
  ∀ (s : State) (a j : Nat) (v : Word), s.cfg.wf → a % 4 = 0 → a + 4 ≤ s.cfg.dmemSize → j < 4 →
    let at_ := s.cfg.apertureBase + s.cfg.dmemWindow + a
    let readBack := fun (addr n : Nat) =>
      Sys2Proof.core.run 2 { s with turns := [.host (.write at_ 4 v), .host (.read addr n)] }
    (∃ t, readBack at_ 2 = .next t ∧ t.reply = some (.data ((v.extractLsb' 0 16).setWidth 32))) ∧
    (∃ t, readBack (at_ + 2) 2 = .next t ∧ t.reply = some (.data ((v.extractLsb' 16 16).setWidth 32))) ∧
    (∃ t, readBack (at_ + j) 1 = .next t ∧ t.reply = some (.data ((v.extractLsb' (8 * j) 8).setWidth 32))) ∧
    (∃ t, readBack at_ 4 = .next t ∧ t.reply = some (.data v))

/-- A host DMEM write is accepted at any time, BUSY or not (R31), and changes the bytes it names, to the value's bytes, and nothing
else but the bus response. -/
def Obligations.HostWritesDmem : Prop :=
  ∀ (s : State) (a n : Nat) (v : Word) (rest : List Turn), s.cfg.wf → n = 1 ∨ n = 2 ∨ n = 4 → a % n = 0 →
    a + n ≤ s.cfg.dmemSize → s.turns = .host (.write (s.cfg.apertureBase + s.cfg.dmemWindow + a) n v) :: rest →
    ∃ m, step s = .next { s with turns := rest, reply := some .ack, mem := m } ∧
      (∀ j < n, m.readByte (a + j) = v.extractLsb' (8 * j) 8) ∧
      ∀ y, y < a ∨ a + n ≤ y → m.readByte y = s.mem.readByte y

/-- A host DMEM read (R31, R71, R75) is accepted at any time, BUSY or not: it answers the bytes it names as they then stand, whoever
stored them, the byte at `a` least significant, and changes nothing but the bus response. That the response is kept, and kept as 32 bits
with zeros above the value, is the model's choice (log entry 6). -/
def Obligations.HostReadsDmem : Prop :=
  ∀ (s : State) (a n : Nat) (rest : List Turn), s.cfg.wf → n = 1 ∨ n = 2 ∨ n = 4 → a % n = 0 → a + n ≤ s.cfg.dmemSize →
    s.turns = .host (.read (s.cfg.apertureBase + s.cfg.dmemWindow + a) n) :: rest →
    ∃ v : Word, step s = .next { s with turns := rest, reply := some (.data v) } ∧
      ∀ j < 4, v.extractLsb' (8 * j) 8 = if j < n then s.mem.readByte (a + j) else 0

/-- Bus errors (R30, R31): a register access that is not 4 bytes wide or not aligned, a misaligned access to the window, and an
access outside both, of any width, get a bus error and change nothing. -/
def Obligations.BusErrorsChangeNothing : Prop :=
  ∀ (s : State) (off n : Nat) (v : Word) (rest : List Turn), s.cfg.wf →
    (off < 0x100 ∧ (n ≠ 4 ∨ off % 4 ≠ 0)) ∨
      (s.cfg.dmemWindow ≤ off ∧ off < s.cfg.dmemWindow + s.cfg.dmemSize ∧ (off - s.cfg.dmemWindow) % n ≠ 0) ∨
      (0x100 ≤ off ∧ (off < s.cfg.dmemWindow ∨ s.cfg.dmemWindow + s.cfg.dmemSize ≤ off)) →
    s.turns = .host (.read (s.cfg.apertureBase + off) n) :: rest ∨
      s.turns = .host (.write (s.cfg.apertureBase + off) n v) :: rest →
    step s = .next { s with turns := rest, reply := some .busError }

/-- A reset event (R230, R231, R34): at any time every register takes its reset value, the outputs are 0, the hidden state is
discarded (R48), and DMEM keeps its contents. -/
def Obligations.ResetEventEffect : Prop :=
  ∀ (s : State) (rest : List Turn), s.turns = .host .reset :: rest →
    ∃ t, step s = .next t ∧ t.ctrl = { prefilt := false, irqen := false } ∧
      t.status = { busy := false, done := false, err := false, nv := false, ecode := 0, eopnd := 0 } ∧
      t.cmdptr = 0 ∧ t.faultaddr = 0 ∧ t.cmdcount = 0 ∧ t.seq = .idle ∧ t.mem = s.mem ∧ t.cfg = s.cfg ∧
      t.irq = false ∧ t.prefilterMode = false

/-- The irq level (R210, R209): IRQEN AND (DONE OR ERR), and once asserted it stays so at every step but a CTRL write that clears IRQEN
or whose START is accepted (which clears DONE, R120), a STATUS write that clears a pending bit, and a reset event. -/
def Obligations.IrqStaysUntilCleared : Prop :=
  ∀ s t : State, s.RegInv → s.irq = (s.ctrl.irqen && (s.status.done || s.status.err)) ∧
    (step s = .next t → s.irq = true → t.irq = true ∨
      ∃ rest, s.turns = .host .reset :: rest ∨
        (∃ w : Word, (w.getLsbD 2 = false ∨ w.getLsbD 0 = true ∧ s.status.busy = false ∧ s.status.err = false) ∧
          s.turns = .host (.write (s.cfg.apertureBase + 0x04) 4 w) :: rest) ∨
        ∃ w : Word, (w.getLsbD 1 = true ∨ w.getLsbD 2 = true) ∧
          s.turns = .host (.write (s.cfg.apertureBase + 0x08) 4 w) :: rest)

/-- NV is sticky (R141, R38): once 1 it is cleared only by a host write to STATUS with bit 3 set, or by a reset event. -/
def Obligations.NvIsSticky : Prop :=
  ∀ s t : State, s.status.nv = true → step s = .next t → t.status.nv = true ∨
    ∃ rest, s.turns = .host .reset :: rest ∨
      ∃ w : Word, w.getLsbD 3 = true ∧ s.turns = .host (.write (s.cfg.apertureBase + 0x08) 4 w) :: rest

/-- FAULTADDR (R41): it is 0 at reset, and a step changes it only by recording a fault, which sets ERR and ends the run, or by a reset
event. -/
def Obligations.FaultAddressChangesOnlyAtFault : Prop :=
  State.reset.faultaddr = 0 ∧
  ∀ s t : State, step s = .next t → t.faultaddr = s.faultaddr ∨
    (s.status.busy = true ∧ t.status.busy = false ∧ t.status.err = true ∧
      ∃ code opnd, t = (s.withTurns t.turns).faulted code opnd t.faultaddr) ∨
    ∃ rest, s.turns = .host .reset :: rest

/-- Traps do not nest (R208): while a fault is recorded no run is under way, and every step leaves the record, FAULTADDR and BUSY as
they are, whatever START the host writes, but for a STATUS write that clears ERR and a reset event. -/
def Obligations.RecordedFaultStays : Prop :=
  ∀ s t : State, s.RegInv → s.status.err = true → s.status.busy = false ∧
    (step s = .next t →
      (t.status.err = true ∧ t.status.ecode = s.status.ecode ∧ t.status.eopnd = s.status.eopnd ∧
        t.faultaddr = s.faultaddr ∧ t.status.busy = false) ∨
      ∃ rest, s.turns = .host .reset :: rest ∨
        ∃ w : Word, w.getLsbD 2 = true ∧ s.turns = .host (.write (s.cfg.apertureBase + 0x08) 4 w) :: rest)

/-- While BUSY = 1 no host transaction but a reset event changes CMDPTR (R40, R243) or CMDCOUNT, and no host transaction touches the
sequencer's hidden state (R48). -/
def Obligations.HostCannotMoveALiveRun : Prop :=
  ∀ (s t : State) (x : HostTxn) (rest : List Turn), s.status.busy = true → x ≠ .reset → s.turns = .host x :: rest →
    step s = .next t → t.cmdptr = s.cmdptr ∧ t.cmdcount = s.cmdcount ∧ t.seq = s.seq ∧ t.status.busy = true ∧
      t.faultaddr = s.faultaddr

/-- No step changes the parameters (R3), and every step takes at most one pending turn, the oldest (R80: each agent's order is
kept). -/
def Obligations.StepKeepsParametersAndOrder : Prop :=
  ∀ s t : State, step s = .next t → t.cfg = s.cfg ∧ t.turns = s.turns.tail

/-! ### The machine as a whole -/

/-- The invariant holds after reset, and after a power-up with any parameters R3 allows and any DMEM contents (R231). -/
def Obligations.InvariantAtReset : Prop :=
  State.reset.Inv ∧ ∀ (c : Config) (m : Memory), c.wf → m.wf → m.within c.dmemSize → (State.powerUp c m).Inv

/-- Every step keeps the invariant, whichever agent moves: the parameters stay legal, DMEM stays in canonical form and inside
DMEM_SIZE, CMDPTR stays aligned (R40), R49 holds, ERR and DONE are never both 1 (R210), nothing is latched while idle (R48), and a
command under way is one that was decoded and validated (R121). -/
def Obligations.StepKeepsInvariant : Prop :=
  ∀ s t : State, s.Inv → step s = .next t → t.Inv

/-- No step of the machine stops, from any state that meets the invariant (R7, R125, R205): every outcome is a next state. -/
def Obligations.NoStepStops : Prop :=
  ∀ s : State, s.Inv → ∃ t, step s = .next t
end

