-- ==== Sys2Proof/Laws/Memory.lean ====
section
/-! SUPPORT. DMEM's laws: a read after a write, the canonical form and the bounds every write keeps, and little-endian accesses
of several bytes. -/

namespace Sys2Proof.Machine.Memory

/-! ### One byte -/

@[simp] theorem readByte_nil (a : Nat) : readByte [] a = unlisted := rfl

theorem readByte_cons (c : Host.Cell) (m : Memory) (a : Nat) :
    readByte (c :: m) a = if c.1 = a then c.2 else readByte m a := rfl

/-- An address with no entry reads as an unlisted one. -/
theorem readByte_of_absent {m : Memory} {a : Nat} (h : ∀ c ∈ m, c.1 ≠ a) : m.readByte a = unlisted := by
  induction m with
  | nil => rfl
  | cons c m ih =>
    rw [readByte_cons, if_neg (h c (by simp)), ih fun d hd => h d (List.mem_cons_of_mem _ hd)]

theorem readByte_filter_ne (m : Memory) (a b : Nat) (h : b ≠ a) :
    readByte (m.filter fun c => c.1 ≠ a) b = m.readByte b := by
  induction m with
  | nil => rfl
  | cons c m ih =>
    by_cases hc : c.1 = a
    · simpa [hc, readByte_cons, Ne.symm h] using ih
    · rw [List.filter_cons_of_pos (by simpa using hc), readByte_cons, readByte_cons, ih]

theorem readByte_filter_self (m : Memory) (a : Nat) :
    readByte (m.filter fun c => c.1 ≠ a) a = unlisted :=
  readByte_of_absent fun c hc => by simpa using (List.mem_filter.1 hc).2

theorem readByte_insert (m : Memory) (a b : Nat) (v : Byte) (h : ∀ c ∈ m, c.1 ≠ a) :
    readByte (insert m a v) b = if b = a then v else m.readByte b := by
  induction m with
  | nil => simp [insert, readByte_cons, eq_comm]
  | cons c m ih =>
    have ih := ih fun d hd => h d (List.mem_cons_of_mem _ hd)
    have hc : c.1 ≠ a := h c (by simp)
    obtain ⟨x, w⟩ := c
    simp only [insert]
    split
    · rw [readByte_cons]
      simp only [eq_comm]
    · by_cases hb : b = a
      · simp_all [readByte_cons]
      · simp_all [readByte_cons]

/-- A read after a write: the value written at its address, and every other address as before. It holds of every list. -/
theorem readByte_writeByte (m : Memory) (a b : Nat) (v : Byte) :
    (m.writeByte a v).readByte b = if b = a then v else m.readByte b := by
  have habs : ∀ c ∈ m.filter (fun c => c.1 ≠ a), c.1 ≠ a := fun c hc => by simpa using (List.mem_filter.1 hc).2
  by_cases hb : b = a
  · subst hb
    by_cases hv : v = unlisted
    · rw [writeByte, if_pos hv, if_pos rfl, readByte_filter_self, hv]
    · rw [writeByte, if_neg hv, readByte_insert _ _ _ _ habs, if_pos rfl, if_pos rfl]
  · by_cases hv : v = unlisted
    · rw [writeByte, if_pos hv, if_neg hb, readByte_filter_ne _ _ _ hb]
    · rw [writeByte, if_neg hv, readByte_insert _ _ _ _ habs, if_neg hb, if_neg hb, readByte_filter_ne _ _ _ hb]

/-! ### The canonical form and the bounds -/

theorem mem_insert (m : Memory) (a : Nat) (v : Byte) (c : Host.Cell) : c ∈ insert m a v ↔ c = (a, v) ∨ c ∈ m := by
  induction m with
  | nil => simp [insert]
  | cons d m ih =>
    obtain ⟨x, w⟩ := d
    simp only [insert]
    split <;> simp_all
    tauto

theorem mem_writeByte {m : Memory} {a : Nat} {v : Byte} {c : Host.Cell} (h : c ∈ m.writeByte a v) :
    c ∈ m ∨ c = (a, v) := by
  unfold writeByte at h
  split at h
  · exact .inl (List.mem_filter.1 h).1
  · exact ((mem_insert _ _ _ _).1 h).elim .inr fun h => .inl (List.mem_filter.1 h).1

theorem pairwise_insert (m : Memory) (a : Nat) (v : Byte) (hm : m.Pairwise fun c d => c.1 < d.1)
    (h : ∀ c ∈ m, c.1 ≠ a) : (insert m a v).Pairwise fun c d => c.1 < d.1 := by
  induction m with
  | nil => simp [insert]
  | cons c m ih =>
    obtain ⟨x, w⟩ := c
    have hx : x ≠ a := h (x, w) (by simp)
    rw [List.pairwise_cons] at hm
    have ih := ih hm.2 fun d hd => h d (List.mem_cons_of_mem _ hd)
    simp only [insert]
    split
    · rename_i hlt
      refine List.pairwise_cons.2 ⟨fun d hd => ?_, List.pairwise_cons.2 hm⟩
      rcases List.mem_cons.1 hd with rfl | hd
      · exact hlt
      · exact hlt.trans (hm.1 d hd)
    · refine List.pairwise_cons.2 ⟨fun d hd => ?_, ih⟩
      rcases (mem_insert _ _ _ _).1 hd with rfl | hd
      · simp only; omega
      · exact hm.1 d hd

/-- Writing a byte keeps the canonical form. -/
theorem wf_writeByte {m : Memory} (hm : m.wf) (a : Nat) (v : Byte) : (m.writeByte a v).wf := by
  have hf : (m.filter fun c => c.1 ≠ a).Pairwise fun c d => c.1 < d.1 := hm.1.filter _
  refine ⟨?_, fun c hc => ?_⟩
  · unfold writeByte
    split
    · exact hf
    · exact pairwise_insert _ _ _ hf fun c hc => by simpa using (List.mem_filter.1 hc).2
  · unfold writeByte at hc
    split at hc
    · exact hm.2 c (List.mem_filter.1 hc).1
    · rename_i hv
      rcases (mem_insert _ _ _ _).1 hc with rfl | hc
      · exact hv
      · exact hm.2 c (List.mem_filter.1 hc).1

/-- Writing a byte inside DMEM keeps every entry inside DMEM. -/
theorem within_writeByte {m : Memory} {n : Nat} (hm : m.within n) {a : Nat} (ha : a < n) (v : Byte) :
    (m.writeByte a v).within n := fun c hc =>
  (mem_writeByte hc).elim (hm c) fun h => h ▸ ha

/-- Equal canonical memories are equal data: the bytes decide the list. -/
theorem eq_of_readByte {m m' : Memory} (hm : m.wf) (hm' : m'.wf) (h : ∀ a, m.readByte a = m'.readByte a) : m = m' := by
  induction m generalizing m' with
  | nil =>
    cases m' with
    | nil => rfl
    | cons c m' =>
      have := h c.1
      rw [readByte_nil, readByte_cons, if_pos rfl] at this
      exact absurd this.symm (hm'.2 c (by simp))
  | cons c m ih =>
    cases m' with
    | nil =>
      have := h c.1
      rw [readByte_nil, readByte_cons, if_pos rfl] at this
      exact absurd this (hm.2 c (by simp))
    | cons d m' =>
      have hp := List.pairwise_cons.1 hm.1
      have hp' := List.pairwise_cons.1 hm'.1
      have absent : ∀ {m : Memory} {x : Nat}, (∀ e ∈ m, x < e.1) → m.readByte x = unlisted := fun he =>
        readByte_of_absent fun e hm => (he e hm).ne'
      have hcd : c.1 = d.1 := by
        rcases lt_trichotomy c.1 d.1 with hlt | heq | hgt
        · have hc := h c.1
          rw [readByte_cons, if_pos rfl, readByte_cons, if_neg hlt.ne',
            absent fun e he => hlt.trans (hp'.1 e he)] at hc
          exact absurd hc (hm.2 c (by simp))
        · exact heq
        · have hd := h d.1
          rw [readByte_cons, if_neg hgt.ne', readByte_cons, if_pos rfl,
            absent fun e he => hgt.trans (hp.1 e he)] at hd
          exact absurd hd.symm (hm'.2 d (by simp))
      have hv : c.2 = d.2 := by
        have hc := h c.1
        rwa [readByte_cons, if_pos rfl, readByte_cons, if_pos hcd.symm] at hc
      have htail : m = m' := by
        refine ih ⟨hp.2, fun e he => hm.2 e (List.mem_cons_of_mem _ he)⟩
          ⟨hp'.2, fun e he => hm'.2 e (List.mem_cons_of_mem _ he)⟩ fun a => ?_
        by_cases ha : a = c.1
        · subst ha
          rw [absent hp.1, absent fun e he => hcd ▸ hp'.1 e he]
        · have := h a
          rwa [readByte_cons, if_neg (Ne.symm ha), readByte_cons, if_neg (hcd ▸ Ne.symm ha)] at this
      rw [htail, Prod.ext hcd hv]

/-! ### Several bytes -/

@[simp] theorem readLE_zero (m : Memory) (a : Nat) : m.readLE a 0 = 0 := rfl

@[simp] theorem writeLE_zero (m : Memory) (a v : Nat) : m.writeLE a 0 v = m := rfl

theorem readLE_succ (m : Memory) (a n : Nat) :
    m.readLE a (n + 1) = (m.readByte a).toNat + 256 * m.readLE (a + 1) n := rfl

theorem writeLE_succ (m : Memory) (a n v : Nat) :
    m.writeLE a (n + 1) v = (m.writeByte a (BitVec.ofNat 8 v)).writeLE (a + 1) n (v / 256) := rfl

/-- A byte outside the bytes written reads as before. -/
theorem readByte_writeLE_of_outside (m : Memory) (a n v b : Nat) (h : b < a ∨ a + n ≤ b) :
    (m.writeLE a n v).readByte b = m.readByte b := by
  induction n generalizing m a v with
  | zero => rfl
  | succ n ih =>
    rw [writeLE_succ, ih _ _ _ (by omega), readByte_writeByte, if_neg (by omega)]

/-- Byte `j` of the bytes written reads bits 8j+7 .. 8j of the value (R71). -/
theorem readByte_writeLE (m : Memory) (a n v j : Nat) (h : j < n) :
    (m.writeLE a n v).readByte (a + j) = BitVec.ofNat 8 (v / 256 ^ j) := by
  induction n generalizing m a v j with
  | zero => omega
  | succ n ih =>
    rw [writeLE_succ]
    cases j with
    | zero => rw [readByte_writeLE_of_outside _ _ _ _ _ (by omega), readByte_writeByte]; simp
    | succ j =>
      rw [show a + (j + 1) = a + 1 + j by omega, ih _ _ _ _ (by omega), Nat.div_div_eq_div_mul, pow_succ, mul_comm]

/-- What a read of several bytes gives depends on those bytes alone. -/
theorem readLE_congr (m m' : Memory) (a n : Nat) (h : ∀ j < n, m.readByte (a + j) = m'.readByte (a + j)) :
    m.readLE a n = m'.readLE a n := by
  induction n generalizing a with
  | zero => rfl
  | succ n ih =>
    have h0 := h 0 (by omega)
    rw [readLE_succ, readLE_succ, ih (a + 1) fun j hj => by
      have := h (j + 1) (by omega); rwa [show a + (j + 1) = a + 1 + j by omega] at this]
    simp_all

/-- A read that shares no byte with a write reads as before. -/
theorem readLE_writeLE_of_apart (m : Memory) (a n v b k : Nat) (h : b + k ≤ a ∨ a + n ≤ b) :
    (m.writeLE a n v).readLE b k = m.readLE b k :=
  readLE_congr _ _ _ _ fun j hj => readByte_writeLE_of_outside _ _ _ _ _ (by omega)

/-- A read of the bytes just written gives the value's low bytes. -/
theorem readLE_writeLE_self (m : Memory) (a n v : Nat) : (m.writeLE a n v).readLE a n = v % 256 ^ n := by
  induction n generalizing m a v with
  | zero => simp [Nat.mod_one]
  | succ n ih =>
    rw [readLE_succ, writeLE_succ, readByte_writeLE_of_outside _ _ _ _ _ (by omega), readByte_writeByte, if_pos rfl, ih]
    rw [BitVec.toNat_ofNat, Nat.pow_succ 256 n, mul_comm (256 ^ n) 256, Nat.mod_mul]

theorem readLE_lt (m : Memory) (a n : Nat) : m.readLE a n < 256 ^ n := by
  induction n generalizing a with
  | zero => simp
  | succ n ih =>
    have := ih (a + 1)
    have hb := (m.readByte a).isLt
    rw [readLE_succ, pow_succ]
    omega

/-- Writing several bytes keeps the canonical form. -/
theorem wf_writeLE {m : Memory} (hm : m.wf) (a n v : Nat) : (m.writeLE a n v).wf := by
  induction n generalizing m a v with
  | zero => exact hm
  | succ n ih => exact ih (wf_writeByte hm _ _) _ _

/-- Writing several bytes inside DMEM keeps every entry inside DMEM. -/
theorem within_writeLE {m : Memory} {size : Nat} (hm : m.within size) (a n v : Nat) (h : a + n ≤ size) :
    (m.writeLE a n v).within size := by
  induction n generalizing m a v with
  | zero => exact hm
  | succ n ih => exact ih (within_writeByte hm (by omega) _) _ _ (by omega)

/-! ### Words and half-words -/

/-- A word read where one was just written is that word. -/
@[simp] theorem read32_write32_self (m : Memory) (a : Nat) (v : Word) : (m.write32 a v).read32 a = v := by
  rw [read32, write32, readLE_writeLE_self]
  apply BitVec.eq_of_toNat_eq
  have := v.isLt
  simp only [BitVec.toNat_ofNat]
  omega

/-- A word read apart from a word written is as before. -/
theorem read32_write32_of_apart (m : Memory) (a b : Nat) (v : Word) (h : b + 4 ≤ a ∨ a + 4 ≤ b) :
    (m.write32 a v).read32 b = m.read32 b := by
  rw [read32, write32, readLE_writeLE_of_apart _ _ _ _ _ _ h, read32]

/-- A word read apart from a half-word written is as before. -/
theorem read32_write16_of_apart (m : Memory) (a b : Nat) (v : Half) (h : b + 4 ≤ a ∨ a + 2 ≤ b) :
    (m.write16 a v).read32 b = m.read32 b := by
  rw [read32, write16, readLE_writeLE_of_apart _ _ _ _ _ _ h, read32]

/-- What a word read gives depends on its four bytes alone. -/
theorem read32_congr (m m' : Memory) (a : Nat) (h : ∀ j < 4, m.readByte (a + j) = m'.readByte (a + j)) :
    m.read32 a = m'.read32 a := by
  rw [read32, read32, readLE_congr _ _ _ _ h]

end Sys2Proof.Machine.Memory
end

