-- ==== Sys2Proof/Laws/State.lean ====
section
/-! SUPPORT. What each update of the state does to each field: one lemma per field per update, true by definition, so that no
proof unfolds a record update. -/

namespace Sys2Proof.Machine

/-! ### `State.withMem`: DMEM replaced -/

@[simp] theorem State.withMem_cfg (s : State) (m : Memory) : (s.withMem m).cfg = s.cfg := rfl
@[simp] theorem State.withMem_ctrl (s : State) (m : Memory) : (s.withMem m).ctrl = s.ctrl := rfl
@[simp] theorem State.withMem_status (s : State) (m : Memory) : (s.withMem m).status = s.status := rfl
@[simp] theorem State.withMem_cmdptr (s : State) (m : Memory) : (s.withMem m).cmdptr = s.cmdptr := rfl
@[simp] theorem State.withMem_faultaddr (s : State) (m : Memory) : (s.withMem m).faultaddr = s.faultaddr := rfl
@[simp] theorem State.withMem_cmdcount (s : State) (m : Memory) : (s.withMem m).cmdcount = s.cmdcount := rfl
@[simp] theorem State.withMem_mem (s : State) (m : Memory) : (s.withMem m).mem = m := rfl
@[simp] theorem State.withMem_seq (s : State) (m : Memory) : (s.withMem m).seq = s.seq := rfl
@[simp] theorem State.withMem_turns (s : State) (m : Memory) : (s.withMem m).turns = s.turns := rfl
@[simp] theorem State.withMem_reply (s : State) (m : Memory) : (s.withMem m).reply = s.reply := rfl

/-! ### `State.withNV`: STATUS.NV set (R141) -/

@[simp] theorem State.withNV_cfg (s : State) : (s.withNV).cfg = s.cfg := rfl
@[simp] theorem State.withNV_ctrl (s : State) : (s.withNV).ctrl = s.ctrl := rfl
@[simp] theorem State.withNV_status (s : State) : (s.withNV).status = { s.status with nv := true } := rfl
@[simp] theorem State.withNV_cmdptr (s : State) : (s.withNV).cmdptr = s.cmdptr := rfl
@[simp] theorem State.withNV_faultaddr (s : State) : (s.withNV).faultaddr = s.faultaddr := rfl
@[simp] theorem State.withNV_cmdcount (s : State) : (s.withNV).cmdcount = s.cmdcount := rfl
@[simp] theorem State.withNV_mem (s : State) : (s.withNV).mem = s.mem := rfl
@[simp] theorem State.withNV_seq (s : State) : (s.withNV).seq = s.seq := rfl
@[simp] theorem State.withNV_turns (s : State) : (s.withNV).turns = s.turns := rfl
@[simp] theorem State.withNV_reply (s : State) : (s.withNV).reply = s.reply := rfl

/-! ### `State.withSeq`: the hidden state replaced -/

@[simp] theorem State.withSeq_cfg (s : State) (q : Sequencer) : (s.withSeq q).cfg = s.cfg := rfl
@[simp] theorem State.withSeq_ctrl (s : State) (q : Sequencer) : (s.withSeq q).ctrl = s.ctrl := rfl
@[simp] theorem State.withSeq_status (s : State) (q : Sequencer) : (s.withSeq q).status = s.status := rfl
@[simp] theorem State.withSeq_cmdptr (s : State) (q : Sequencer) : (s.withSeq q).cmdptr = s.cmdptr := rfl
@[simp] theorem State.withSeq_faultaddr (s : State) (q : Sequencer) : (s.withSeq q).faultaddr = s.faultaddr := rfl
@[simp] theorem State.withSeq_cmdcount (s : State) (q : Sequencer) : (s.withSeq q).cmdcount = s.cmdcount := rfl
@[simp] theorem State.withSeq_mem (s : State) (q : Sequencer) : (s.withSeq q).mem = s.mem := rfl
@[simp] theorem State.withSeq_seq (s : State) (q : Sequencer) : (s.withSeq q).seq = q := rfl
@[simp] theorem State.withSeq_turns (s : State) (q : Sequencer) : (s.withSeq q).turns = s.turns := rfl
@[simp] theorem State.withSeq_reply (s : State) (q : Sequencer) : (s.withSeq q).reply = s.reply := rfl

/-! ### `State.withTurns`: the pending turns replaced -/

@[simp] theorem State.withTurns_cfg (s : State) (ts : List Turn) : (s.withTurns ts).cfg = s.cfg := rfl
@[simp] theorem State.withTurns_ctrl (s : State) (ts : List Turn) : (s.withTurns ts).ctrl = s.ctrl := rfl
@[simp] theorem State.withTurns_status (s : State) (ts : List Turn) : (s.withTurns ts).status = s.status := rfl
@[simp] theorem State.withTurns_cmdptr (s : State) (ts : List Turn) : (s.withTurns ts).cmdptr = s.cmdptr := rfl
@[simp] theorem State.withTurns_faultaddr (s : State) (ts : List Turn) : (s.withTurns ts).faultaddr = s.faultaddr := rfl
@[simp] theorem State.withTurns_cmdcount (s : State) (ts : List Turn) : (s.withTurns ts).cmdcount = s.cmdcount := rfl
@[simp] theorem State.withTurns_mem (s : State) (ts : List Turn) : (s.withTurns ts).mem = s.mem := rfl
@[simp] theorem State.withTurns_seq (s : State) (ts : List Turn) : (s.withTurns ts).seq = s.seq := rfl
@[simp] theorem State.withTurns_turns (s : State) (ts : List Turn) : (s.withTurns ts).turns = ts := rfl
@[simp] theorem State.withTurns_reply (s : State) (ts : List Turn) : (s.withTurns ts).reply = s.reply := rfl

/-! ### `State.withReply`: the bus response recorded -/

@[simp] theorem State.withReply_cfg (s : State) (r : Option Reply) : (s.withReply r).cfg = s.cfg := rfl
@[simp] theorem State.withReply_ctrl (s : State) (r : Option Reply) : (s.withReply r).ctrl = s.ctrl := rfl
@[simp] theorem State.withReply_status (s : State) (r : Option Reply) : (s.withReply r).status = s.status := rfl
@[simp] theorem State.withReply_cmdptr (s : State) (r : Option Reply) : (s.withReply r).cmdptr = s.cmdptr := rfl
@[simp] theorem State.withReply_faultaddr (s : State) (r : Option Reply) : (s.withReply r).faultaddr = s.faultaddr := rfl
@[simp] theorem State.withReply_cmdcount (s : State) (r : Option Reply) : (s.withReply r).cmdcount = s.cmdcount := rfl
@[simp] theorem State.withReply_mem (s : State) (r : Option Reply) : (s.withReply r).mem = s.mem := rfl
@[simp] theorem State.withReply_seq (s : State) (r : Option Reply) : (s.withReply r).seq = s.seq := rfl
@[simp] theorem State.withReply_turns (s : State) (r : Option Reply) : (s.withReply r).turns = s.turns := rfl
@[simp] theorem State.withReply_reply (s : State) (r : Option Reply) : (s.withReply r).reply = r := rfl

/-! ### `State.trap`: trap entry (R206) -/

@[simp] theorem State.trap_cfg (s : State) (c : FaultCode) (o : BitVec 3) (a : Word) : (s.trap c o a).cfg = s.cfg := rfl
@[simp] theorem State.trap_ctrl (s : State) (c : FaultCode) (o : BitVec 3) (a : Word) : (s.trap c o a).ctrl = s.ctrl := rfl
@[simp] theorem State.trap_status (s : State) (c : FaultCode) (o : BitVec 3) (a : Word) : (s.trap c o a).status = { s.status with ecode := c.ecode, eopnd := o, err := true, busy := false } := rfl
@[simp] theorem State.trap_cmdptr (s : State) (c : FaultCode) (o : BitVec 3) (a : Word) : (s.trap c o a).cmdptr = s.cmdptr := rfl
@[simp] theorem State.trap_faultaddr (s : State) (c : FaultCode) (o : BitVec 3) (a : Word) : (s.trap c o a).faultaddr = a := rfl
@[simp] theorem State.trap_cmdcount (s : State) (c : FaultCode) (o : BitVec 3) (a : Word) : (s.trap c o a).cmdcount = s.cmdcount := rfl
@[simp] theorem State.trap_mem (s : State) (c : FaultCode) (o : BitVec 3) (a : Word) : (s.trap c o a).mem = s.mem := rfl
@[simp] theorem State.trap_seq (s : State) (c : FaultCode) (o : BitVec 3) (a : Word) : (s.trap c o a).seq = .idle := rfl
@[simp] theorem State.trap_turns (s : State) (c : FaultCode) (o : BitVec 3) (a : Word) : (s.trap c o a).turns = s.turns := rfl
@[simp] theorem State.trap_reply (s : State) (c : FaultCode) (o : BitVec 3) (a : Word) : (s.trap c o a).reply = s.reply := rfl

/-! ### `State.endRun`: the end of a run at END (R129) -/

@[simp] theorem State.endRun_cfg (s : State) : (s.endRun).cfg = s.cfg := rfl
@[simp] theorem State.endRun_ctrl (s : State) : (s.endRun).ctrl = s.ctrl := rfl
@[simp] theorem State.endRun_status (s : State) : (s.endRun).status = { s.status with busy := false, done := true } := rfl
@[simp] theorem State.endRun_cmdptr (s : State) : (s.endRun).cmdptr = s.cmdptr := rfl
@[simp] theorem State.endRun_faultaddr (s : State) : (s.endRun).faultaddr = s.faultaddr := rfl
@[simp] theorem State.endRun_cmdcount (s : State) : (s.endRun).cmdcount = s.cmdcount := rfl
@[simp] theorem State.endRun_mem (s : State) : (s.endRun).mem = s.mem := rfl
@[simp] theorem State.endRun_seq (s : State) : (s.endRun).seq = .idle := rfl
@[simp] theorem State.endRun_turns (s : State) : (s.endRun).turns = s.turns := rfl
@[simp] theorem State.endRun_reply (s : State) : (s.endRun).reply = s.reply := rfl

/-! ### `State.countCommand`: the first half of Complete (R127) -/

@[simp] theorem State.countCommand_cfg (s : State) : (s.countCommand).cfg = s.cfg := rfl
@[simp] theorem State.countCommand_ctrl (s : State) : (s.countCommand).ctrl = s.ctrl := rfl
@[simp] theorem State.countCommand_status (s : State) : (s.countCommand).status = s.status := rfl
@[simp] theorem State.countCommand_cmdptr (s : State) : (s.countCommand).cmdptr = s.cmdptr := rfl
@[simp] theorem State.countCommand_faultaddr (s : State) : (s.countCommand).faultaddr = s.faultaddr := rfl
@[simp] theorem State.countCommand_cmdcount (s : State) : (s.countCommand).cmdcount = s.cmdcount + 1#32 := rfl
@[simp] theorem State.countCommand_mem (s : State) : (s.countCommand).mem = s.mem := rfl
@[simp] theorem State.countCommand_seq (s : State) : (s.countCommand).seq = s.seq := rfl
@[simp] theorem State.countCommand_turns (s : State) : (s.countCommand).turns = s.turns := rfl
@[simp] theorem State.countCommand_reply (s : State) : (s.countCommand).reply = s.reply := rfl

/-! ### `State.advancePtr`: the second half of Complete (R127) -/

@[simp] theorem State.advancePtr_cfg (s : State) : (s.advancePtr).cfg = s.cfg := rfl
@[simp] theorem State.advancePtr_ctrl (s : State) : (s.advancePtr).ctrl = s.ctrl := rfl
@[simp] theorem State.advancePtr_status (s : State) : (s.advancePtr).status = s.status := rfl
@[simp] theorem State.advancePtr_cmdptr (s : State) : (s.advancePtr).cmdptr = s.cmdptr + 32#32 := rfl
@[simp] theorem State.advancePtr_faultaddr (s : State) : (s.advancePtr).faultaddr = s.faultaddr := rfl
@[simp] theorem State.advancePtr_cmdcount (s : State) : (s.advancePtr).cmdcount = s.cmdcount := rfl
@[simp] theorem State.advancePtr_mem (s : State) : (s.advancePtr).mem = s.mem := rfl
@[simp] theorem State.advancePtr_seq (s : State) : (s.advancePtr).seq = .idle := rfl
@[simp] theorem State.advancePtr_turns (s : State) : (s.advancePtr).turns = s.turns := rfl
@[simp] theorem State.advancePtr_reply (s : State) : (s.advancePtr).reply = s.reply := rfl

/-! ### `State.complete`: Complete (R127) -/

@[simp] theorem State.complete_cfg (s : State) : (s.complete).cfg = s.cfg := rfl
@[simp] theorem State.complete_ctrl (s : State) : (s.complete).ctrl = s.ctrl := rfl
@[simp] theorem State.complete_status (s : State) : (s.complete).status = s.status := rfl
@[simp] theorem State.complete_cmdptr (s : State) : (s.complete).cmdptr = s.cmdptr + 32#32 := rfl
@[simp] theorem State.complete_faultaddr (s : State) : (s.complete).faultaddr = s.faultaddr := rfl
@[simp] theorem State.complete_cmdcount (s : State) : (s.complete).cmdcount = s.cmdcount + 1#32 := rfl
@[simp] theorem State.complete_mem (s : State) : (s.complete).mem = s.mem := rfl
@[simp] theorem State.complete_seq (s : State) : (s.complete).seq = .idle := rfl
@[simp] theorem State.complete_turns (s : State) : (s.complete).turns = s.turns := rfl
@[simp] theorem State.complete_reply (s : State) : (s.complete).reply = s.reply := rfl

/-! ### `State.beginRun`: an accepted START (R120) -/

@[simp] theorem State.beginRun_cfg (s : State) : (s.beginRun).cfg = s.cfg := rfl
@[simp] theorem State.beginRun_ctrl (s : State) : (s.beginRun).ctrl = s.ctrl := rfl
@[simp] theorem State.beginRun_status (s : State) : (s.beginRun).status = { s.status with done := false, busy := true } := rfl
@[simp] theorem State.beginRun_cmdptr (s : State) : (s.beginRun).cmdptr = s.cmdptr := rfl
@[simp] theorem State.beginRun_faultaddr (s : State) : (s.beginRun).faultaddr = s.faultaddr := rfl
@[simp] theorem State.beginRun_cmdcount (s : State) : (s.beginRun).cmdcount = 0 := rfl
@[simp] theorem State.beginRun_mem (s : State) : (s.beginRun).mem = s.mem := rfl
@[simp] theorem State.beginRun_seq (s : State) : (s.beginRun).seq = .idle := rfl
@[simp] theorem State.beginRun_turns (s : State) : (s.beginRun).turns = s.turns := rfl
@[simp] theorem State.beginRun_reply (s : State) : (s.beginRun).reply = s.reply := rfl

/-! ### `State.completed`: a completed command (R127) -/

@[simp] theorem State.completed_cfg (s : State) (m : Memory) : (s.completed m).cfg = s.cfg := rfl
@[simp] theorem State.completed_ctrl (s : State) (m : Memory) : (s.completed m).ctrl = s.ctrl := rfl
@[simp] theorem State.completed_status (s : State) (m : Memory) : (s.completed m).status = s.status := rfl
@[simp] theorem State.completed_cmdptr (s : State) (m : Memory) : (s.completed m).cmdptr = s.cmdptr + 32 := rfl
@[simp] theorem State.completed_faultaddr (s : State) (m : Memory) : (s.completed m).faultaddr = s.faultaddr := rfl
@[simp] theorem State.completed_cmdcount (s : State) (m : Memory) : (s.completed m).cmdcount = s.cmdcount + 1 := rfl
@[simp] theorem State.completed_mem (s : State) (m : Memory) : (s.completed m).mem = m := rfl
@[simp] theorem State.completed_seq (s : State) (m : Memory) : (s.completed m).seq = .idle := rfl
@[simp] theorem State.completed_turns (s : State) (m : Memory) : (s.completed m).turns = s.turns := rfl
@[simp] theorem State.completed_reply (s : State) (m : Memory) : (s.completed m).reply = s.reply := rfl

/-! ### `State.setNVTo`: STATUS.NV set to a value -/

@[simp] theorem State.setNVTo_cfg (s : State) (v : Bool) : (s.setNVTo v).cfg = s.cfg := rfl
@[simp] theorem State.setNVTo_ctrl (s : State) (v : Bool) : (s.setNVTo v).ctrl = s.ctrl := rfl
@[simp] theorem State.setNVTo_status (s : State) (v : Bool) : (s.setNVTo v).status = { s.status with nv := v } := rfl
@[simp] theorem State.setNVTo_cmdptr (s : State) (v : Bool) : (s.setNVTo v).cmdptr = s.cmdptr := rfl
@[simp] theorem State.setNVTo_faultaddr (s : State) (v : Bool) : (s.setNVTo v).faultaddr = s.faultaddr := rfl
@[simp] theorem State.setNVTo_cmdcount (s : State) (v : Bool) : (s.setNVTo v).cmdcount = s.cmdcount := rfl
@[simp] theorem State.setNVTo_mem (s : State) (v : Bool) : (s.setNVTo v).mem = s.mem := rfl
@[simp] theorem State.setNVTo_seq (s : State) (v : Bool) : (s.setNVTo v).seq = s.seq := rfl
@[simp] theorem State.setNVTo_turns (s : State) (v : Bool) : (s.setNVTo v).turns = s.turns := rfl
@[simp] theorem State.setNVTo_reply (s : State) (v : Bool) : (s.setNVTo v).reply = s.reply := rfl

/-- A failed check traps under the code, operand index and address it names (R124, R206). -/
@[simp] theorem State.raise_eq_trap (s : State) (r : Raise) : s.raise r = s.trap r.code r.opnd r.addr := rfl

/-- A decode fault traps with operand index 0 and CMDPTR (R123). -/
@[simp] theorem State.raiseDecode_eq_trap (s : State) (f : DecodeFault) :
    s.raiseDecode f = s.trap (decodeCause f) 0 s.cmdptr := rfl

/-- Complete, with DMEM replaced before it, is the completed state of the claims. -/
theorem State.withMem_complete (s : State) (m : Memory) : (s.withMem m).complete = s.completed m := rfl

/-- Replacing DMEM by itself changes nothing. -/
@[simp] theorem State.withMem_self (s : State) : s.withMem s.mem = s := rfl

/-- Only the last replacement of DMEM counts. -/
@[simp] theorem State.withMem_withMem (s : State) (m m' : Memory) : (s.withMem m).withMem m' = s.withMem m' := rfl

/-- Setting NV to its own value changes nothing. -/
@[simp] theorem State.setNVTo_self (s : State) : s.setNVTo s.status.nv = s := rfl

/-- Only the last setting of NV counts. -/
@[simp] theorem State.setNVTo_setNVTo (s : State) (v w : Bool) : (s.setNVTo v).setNVTo w = s.setNVTo w := rfl

/-- NV <- 1 (R141) is NV set to true. -/
theorem State.withNV_eq (s : State) : s.withNV = s.setNVTo true := rfl

/-- Setting NV and replacing DMEM do not interfere. -/
theorem State.setNVTo_withMem (s : State) (v : Bool) (m : Memory) : (s.setNVTo v).withMem m = (s.withMem m).setNVTo v := rfl

end Sys2Proof.Machine
end

