-- ==== Sys2Proof/Laws/Commands.lean ====
section
/-! SUPPORT. What the shared operations of a command can do, said once: the actions of an element, Execute, validation, and
`runCommand`. -/

namespace Sys2Proof.Machine

/-! ### The actions of an element -/

@[simp] theorem Prog.run_ret (x : Word) (s : State) : (Prog.ret x).run s = (x, s) := rfl

@[simp] theorem Prog.run_read (a : Nat) (k : Word → Prog) (s : State) :
    (Prog.read a k).run s = (k (s.mem.read32 a)).run s := rfl

@[simp] theorem Prog.run_write (a n v : Nat) (k : Prog) (s : State) :
    (Prog.write a n v k).run s = k.run (s.withMem (s.mem.writeLE a n v)) := rfl

@[simp] theorem Prog.run_setNV (k : Prog) (s : State) : (Prog.setNV k).run s = k.run s.withNV := rfl

/-- Every access of the actions, whatever values the reads give, satisfies a predicate. -/
def Prog.AllAccesses (P : Access → Prop) : Prog → Prop
  | .ret _ => True
  | .read a k => P ⟨false, a, 4⟩ ∧ ∀ v, (k v).AllAccesses P
  | .write a n _ k => P ⟨true, a, n⟩ ∧ k.AllAccesses P
  | .setNV k => k.AllAccesses P

/-- A weaker predicate holds of every access too. -/
theorem Prog.AllAccesses.mono {P Q : Access → Prop} {p : Prog} (h : p.AllAccesses P) (hPQ : ∀ x, P x → Q x) :
    p.AllAccesses Q := by
  induction p with
  | ret => trivial
  | read a k ih => exact ⟨hPQ _ h.1, fun v => ih v (h.2 v)⟩
  | write a n v k ih => exact ⟨hPQ _ h.1, ih h.2⟩
  | setNV k ih => exact ih h

/-- The accesses made from one state are among them. -/
theorem Prog.AllAccesses.trace {P : Access → Prop} {p : Prog} (h : p.AllAccesses P) (s : State) : ∀ x ∈ p.trace s, P x := by
  induction p generalizing s with
  | ret => intro x hx; cases hx
  | read a k ih => exact List.forall_mem_cons.2 ⟨h.1, ih _ (h.2 _) s⟩
  | write a n v k ih => exact List.forall_mem_cons.2 ⟨h.1, ih h.2 _⟩
  | setNV k ih => exact ih h _

/-- What is left of the actions accesses no more than the whole. -/
theorem Prog.AllAccesses.resume {P : Access → Prop} {p : Prog} (h : p.AllAccesses P) (pos : Nat) (rd : List Word) :
    (p.resume pos rd).AllAccesses P := by
  induction p generalizing pos rd with
  | ret x => cases pos <;> exact h
  | read a k ih =>
    cases pos with
    | zero => exact h
    | succ n =>
      cases rd with
      | nil => exact h
      | cons v rd => exact ih v (h.2 v) n rd
  | write a n v k ih =>
    cases pos with
    | zero => exact h
    | succ m => exact ih h.2 m rd
  | setNV k ih =>
    cases pos with
    | zero => exact h
    | succ m => exact ih h m rd

/-- DMEM in canonical form, with every entry inside its size. -/
abbrev State.MemOk (s : State) : Prop := s.mem.wf ∧ s.mem.within s.cfg.dmemSize

/-- Actions change DMEM and NV, and nothing else; NV is never cleared (R141). -/
theorem Prog.run_changes (p : Prog) (s : State) :
    ∃ m v, (s.status.nv = true → v = true) ∧ (p.run s).2 = (s.withMem m).setNVTo v := by
  induction p generalizing s with
  | ret x => exact ⟨s.mem, s.status.nv, id, rfl⟩
  | read a k ih => exact ih _ s
  | write a n v k ih => exact ih (s.withMem (s.mem.writeLE a n v))
  | setNV k ih =>
    obtain ⟨m, v, hv, h⟩ := ih s.withNV
    exact ⟨m, v, fun _ => hv rfl, h⟩

/-- Actions inside DMEM keep its form and its bounds. -/
theorem Prog.run_memOk {p : Prog} {s : State} (h : p.AllAccesses fun x => x.addr + x.bytes ≤ s.cfg.dmemSize) (hs : s.MemOk) :
    (p.run s).2.MemOk := by
  induction p generalizing s with
  | ret x => exact hs
  | read a k ih => exact ih _ (h.2 _) hs
  | write a n v k ih =>
    exact ih (s := s.withMem _) h.2 ⟨Memory.wf_writeLE hs.1 _ _ _, Memory.within_writeLE hs.2 _ _ _ h.1⟩
  | setNV k ih => exact ih (s := s.withNV) h hs

/-- A byte that no write of the actions covers reads as before. -/
theorem Prog.run_readByte {p : Prog} {y : Nat} (s : State)
    (h : p.AllAccesses fun x => x.isWrite = true → y < x.addr ∨ x.addr + x.bytes ≤ y) :
    (p.run s).2.mem.readByte y = s.mem.readByte y := by
  induction p generalizing s with
  | ret => rfl
  | read a k ih => exact ih _ s (h.2 _)
  | write a n v k ih =>
    rw [run_write, ih _ h.2, State.withMem_mem, Memory.readByte_writeLE_of_outside _ _ _ _ _ (h.1 rfl)]
  | setNV k ih => exact ih s.withNV h

/-- The actions never set NV. -/
def Prog.NeverNV : Prog → Prop
  | .ret _ => True
  | .read _ k => ∀ v, (k v).NeverNV
  | .write _ _ _ k => k.NeverNV
  | .setNV _ => False

theorem Prog.NeverNV.run {p : Prog} (h : p.NeverNV) (s : State) : (p.run s).2.status = s.status := by
  induction p generalizing s with
  | ret => rfl
  | read a k ih => exact ih _ (h _) s
  | write a n v k ih => exact ih h _
  | setNV k ih => exact h.elim

/-! ### Execute -/

/-- What every stage of every element keeps, Execute keeps. -/
theorem Body.execute_keeps (b : Body) (I : State → Prop)
    (step : ∀ k < b.count, ∀ i < b.stages, ∀ x s, I s → I ((b.unit k i x).run s).2) (s : State) (hs : I s) :
    I (b.execute s) := by
  have stages : ∀ k < b.count, ∀ n i x s, i + n ≤ b.stages → I s → I (b.runStages k i n x s) := by
    intro k hk n
    induction n with
    | zero => exact fun _ _ _ _ h => h
    | succ n ih => exact fun i x s hi h => ih (i + 1) _ _ (by omega) (step k hk i (by omega) x s h)
  have elems : ∀ n k s, k + n ≤ b.count → I s → I (b.runElems k n s) := by
    intro n
    induction n with
    | zero => exact fun _ _ _ h => h
    | succ n ih => exact fun k s hk h => ih (k + 1) _ (by omega) (stages k (by omega) _ 0 0 s (by omega) h)
  exact elems b.count 0 s (by omega) hs

/-- Execute changes DMEM and NV, and nothing else; NV is never cleared. -/
theorem Body.execute_changes (b : Body) (s : State) :
    ∃ m v, (s.status.nv = true → v = true) ∧ b.execute s = (s.withMem m).setNVTo v := by
  refine b.execute_keeps (fun t => ∃ m v, (s.status.nv = true → v = true) ∧ t = (s.withMem m).setNVTo v) ?_ s
    ⟨s.mem, s.status.nv, id, rfl⟩
  rintro k - i - x t ⟨m, v, hv, rfl⟩
  obtain ⟨m', v', hv', h⟩ := (b.unit k i x).run_changes ((s.withMem m).setNVTo v)
  exact ⟨m', v', fun h => hv' (hv h), h⟩

/-- Two runs of Execute keep a relation that all actions keep, the values they hand on being equal. -/
theorem Body.execute_relates (b : Body) (R : State → State → Prop)
    (hR : ∀ (p : Prog) s s', R s s' → (p.run s).1 = (p.run s').1 ∧ R (p.run s).2 (p.run s').2) (s s' : State)
    (h : R s s') : R (b.execute s) (b.execute s') := by
  have stages : ∀ n k i x s s', R s s' → R (b.runStages k i n x s) (b.runStages k i n x s') := by
    intro n
    induction n with
    | zero => exact fun _ _ _ _ _ h => h
    | succ n ih =>
      intro k i x s s' h
      have hp := hR (b.unit k i x) s s' h
      rw [runStages, runStages, ← hp.1]
      exact ih _ _ _ _ _ hp.2
  have elems : ∀ n k s s', R s s' → R (b.runElems k n s) (b.runElems k n s') := by
    intro n
    induction n with
    | zero => exact fun _ _ _ h => h
    | succ n ih => exact fun k s s' h => ih _ _ _ (stages _ _ _ _ _ _ h)
  exact elems _ _ _ _ h

/-- Actions read DMEM and nothing else of the state. -/
theorem Prog.run_of_mem_eq (p : Prog) (s s' : State) (h : s.mem = s'.mem) :
    (p.run s).1 = (p.run s').1 ∧ (p.run s).2.mem = (p.run s').2.mem := by
  induction p generalizing s s' with
  | ret => exact ⟨rfl, h⟩
  | read a k ih =>
    rw [run_read, run_read, h]
    exact ih _ _ _ h
  | write a n v k ih => exact ih _ _ (by rw [State.withMem_mem, State.withMem_mem, h])
  | setNV k ih => exact ih _ _ h

/-- With one stage whose actions change DMEM alone, Execute is that change at every element in turn. -/
theorem Body.execute_of_mem (b : Body) (hb : b.stages = 1) (g : Nat → Memory → Memory)
    (hg : ∀ k x s, ((b.unit k 0 x).run s).2 = s.withMem (g k s.mem)) (ms : Nat → Memory) (s : State) (h0 : ms 0 = s.mem)
    (hs : ∀ k < b.count, ms (k + 1) = g k (ms k)) : b.execute s = s.withMem (ms b.count) := by
  have elems : ∀ n k, k + n ≤ b.count → b.runElems k n (s.withMem (ms k)) = s.withMem (ms (k + n)) := by
    intro n
    induction n with
    | zero => intro k _; rfl
    | succ n ih =>
      intro k hk
      have h1 : b.runElems k (n + 1) (s.withMem (ms k)) = b.runElems (k + 1) n (s.withMem (ms (k + 1))) := by
        rw [Body.runElems, hb, Body.runStages, Body.runStages, hg, hs k (by omega)]
        rfl
      rw [h1, ih (k + 1) (by omega), show k + 1 + n = k + (n + 1) by omega]
  have h := elems b.count 0 (by omega)
  rwa [h0, State.withMem_self, Nat.zero_add] at h

/-- What holds of every access of every stage of every element holds of every access Execute makes. -/
theorem Body.traceElems_forall (b : Body) (P : Access → Prop)
    (h : ∀ k < b.count, ∀ i < b.stages, ∀ x, (b.unit k i x).AllAccesses P) (s : State) :
    ∀ y ∈ b.traceElems 0 b.count s, P y := by
  have stages : ∀ k < b.count, ∀ n i x s, i + n ≤ b.stages → ∀ y ∈ b.traceStages k i n x s, P y := by
    intro k hk n
    induction n with
    | zero => intro i x s _ y hy; cases hy
    | succ n ih =>
      intro i x s hi y hy
      rcases List.mem_append.1 hy with hy | hy
      · exact (h k hk i (by omega) x).trace s y hy
      · exact ih _ _ _ (by omega) y hy
  have elems : ∀ n k s, k + n ≤ b.count → ∀ y ∈ b.traceElems k n s, P y := by
    intro n
    induction n with
    | zero => intro k s _ y hy; cases hy
    | succ n ih =>
      intro k s hk y hy
      rcases List.mem_append.1 hy with hy | hy
      · exact stages k (by omega) _ 0 0 s (by omega) y hy
      · exact ih _ _ (by omega) y hy
  exact elems _ 0 s (by omega)

/-- Where every element makes `L` accesses, Execute makes `count * L`. -/
theorem Body.traceElems_length (b : Body) (L : Nat)
    (h : ∀ k s, (b.traceStages k 0 b.stages 0 s).length = L) (s : State) :
    (b.traceElems 0 b.count s).length = b.count * L := by
  have elems : ∀ n k s, (b.traceElems k n s).length = n * L := by
    intro n
    induction n with
    | zero => intro k s; simp [traceElems]
    | succ n ih => intro k s; rw [traceElems, List.length_append, h, ih, Nat.succ_mul, Nat.add_comm]
  exact elems _ _ _

/-! ### Validation -/

theorem inRange_iff (size a n : Nat) : inRange size a n = true ↔ n = 0 ∨ a + n ≤ size := by simp [inRange]

/-- One operand passes exactly if it is aligned and in range (R124). -/
theorem Operand.check_eq_none (size : Nat) (o : Operand) :
    o.check size = none ↔ OperandOk size o.base o.align o.bytes := by
  unfold check
  split
  · simp_all
  · rename_i h
    split <;> rename_i h' <;> rw [inRange_iff] at h' <;> simp_all [OperandOk]

/-- A failing operand raises MISALIGNED before DATA_OOR (R124). -/
theorem Operand.check_of_bad {size : Nat} {o : Operand} (h : ¬ OperandOk size o.base o.align o.bytes) :
    o.check size = some ⟨if o.base.toNat % o.align ≠ 0 then .misaligned else .dataOor, o.idx, o.base⟩ := by
  unfold check
  split
  · simp_all
  · rename_i ha
    rw [if_neg]
    rw [inRange_iff]
    exact fun hr => h ⟨by simpa using ha, hr⟩

/-- Validation passes exactly if every operand does (R124). -/
theorem validate_eq_none (size : Nat) (os : List Operand) :
    validate size os = none ↔ ∀ o ∈ os, OperandOk size o.base o.align o.bytes := by
  induction os with
  | nil => simp [validate]
  | cons o os ih =>
    rw [List.forall_mem_cons, ← Operand.check_eq_none, ← ih, validate]
    cases o.check size <;> simp

/-- Validation raises what the first failing operand raises (R124, R203). -/
theorem validate_first_bad {size : Nat} {pre post : List Operand} {o : Operand}
    (hpre : ∀ p ∈ pre, OperandOk size p.base p.align p.bytes) (ho : ¬ OperandOk size o.base o.align o.bytes) :
    validate size (pre ++ o :: post) =
      some ⟨if o.base.toNat % o.align ≠ 0 then .misaligned else .dataOor, o.idx, o.base⟩ := by
  induction pre with
  | nil => simp only [List.nil_append, validate, Operand.check_of_bad ho]
  | cons p pre ih =>
    rw [List.forall_mem_cons] at hpre
    rw [List.cons_append, validate, (Operand.check_eq_none _ _).2 hpre.1]
    exact ih hpre.2

/-- What validation raises names a code of R200 and is recorded by R206. -/
theorem FaultCode.ecode_range (c : FaultCode) : 1 ≤ c.ecode.toNat ∧ c.ecode.toNat ≤ 6 := by cases c <;> decide

/-! ### A whole command -/

/-- `runCommand` either traps on what validation raises, or completes. It always answers a next state. -/
theorem runCommand_cases (b : Body) (s : State) :
    (∃ r, validate s.cfg.dmemSize b.operands = some r ∧ runCommand b s = .next (s.trap r.code r.opnd r.addr)) ∨
    (validate s.cfg.dmemSize b.operands = none ∧ runCommand b s = .next (b.execute s).complete) := by
  unfold runCommand
  cases h : validate s.cfg.dmemSize b.operands with
  | none => exact .inr ⟨rfl, rfl⟩
  | some r => exact .inl ⟨r, rfl, rfl⟩

/-- A command whose operands pass completes. -/
theorem runCommand_of_ok {b : Body} {s : State} (h : validate s.cfg.dmemSize b.operands = none) :
    runCommand b s = .next (b.execute s).complete := by rw [runCommand, h]

/-- A command with a failing operand traps. -/
theorem runCommand_of_raise {b : Body} {s : State} {r : Raise} (h : validate s.cfg.dmemSize b.operands = some r) :
    runCommand b s = .next (s.trap r.code r.opnd r.addr) := by rw [runCommand, h]; rfl

/-- With one stage whose actions change DMEM alone, a command whose operands pass completes with that change at every element in
turn. -/
theorem runCommand_of_mem {b : Body} {s : State} (h : validate s.cfg.dmemSize b.operands = none) (hb : b.stages = 1)
    (g : Nat → Memory → Memory) (hg : ∀ k x s, ((b.unit k 0 x).run s).2 = s.withMem (g k s.mem)) (ms : Nat → Memory)
    (h0 : ms 0 = s.mem) (hs : ∀ k < b.count, ms (k + 1) = g k (ms k)) :
    runCommand b s = .next (s.completed (ms b.count)) := by
  rw [runCommand_of_ok h, b.execute_of_mem hb g hg ms s h0 hs, State.withMem_complete]

/-! ### The bodies of the commands -/

/-- The operands a body validates are those of R95's table. -/
theorem operands_of_bodyOf {i : Instr} {b : Body} (h : bodyOf i = some b) :
    b.operands.map (fun o => (o.idx, o.base, o.align, o.bytes)) = operandTable i := by
  cases i <;> cases h <;> rfl

/-- Validation of a command passes exactly if R95's operands are good. -/
theorem validate_bodyOf {i : Instr} {b : Body} (h : bodyOf i = some b) (size : Nat) :
    validate size b.operands = none ↔ OperandsOk size i := by
  rw [validate_eq_none, OperandsOk, ← operands_of_bodyOf h]
  simp

/-- A well-formed command other than END runs its body. -/
theorem exec_eq_runCommand {i : Instr} {b : Body} (h : bodyOf i = some b) (hi : i.wellFormed = true) (s : State) :
    exec i s = runCommand b s := by
  cases i <;> cases h <;> simp_all [Instr.wellFormed, exec, execConv16, execFill, execSub, execScale, execOffset, execMul,
    execBqinit, execBiquad, execSshr]

/-- Every command but END has a body. -/
theorem bodyOf_of_ne_end {i : Instr} (h : i ≠ .endList) : ∃ b, bodyOf i = some b := by
  cases i <;> first | exact absurd rfl h | exact ⟨_, rfl⟩

/-- An access lies in an operand, at a multiple of its element size, and is one element wide (R72, R124). -/
def Operand.Covers (o : Operand) (x : Access) : Prop :=
  o.base.toNat ≤ x.addr ∧ x.addr + x.bytes ≤ o.base.toNat + o.bytes ∧ (x.addr - o.base.toNat) % o.align = 0 ∧
    x.bytes = o.align

/-- `e`-byte access `j` bytes into element `k` of an operand of `n` elements of `w` bytes. -/
theorem Operand.covers_elem (o : Operand) {w k n j e : Nat} (wr : Bool) (hk : k < n) (hj : j + e ≤ w) (hb : o.bytes = w * n)
    (ha : o.align = e) (hw : (w * k + j) % e = 0) : o.Covers ⟨wr, elemAddr o.base w k + j, e⟩ := by
  have h : w * k + w ≤ w * n := by rw [← Nat.mul_succ]; exact Nat.mul_le_mul_left w hk
  refine ⟨?_, ?_, ?_, ha.symm⟩
  · simp only [elemAddr]; omega
  · simp only [elemAddr, hb]; omega
  · simp only [elemAddr, ha]
    rwa [show o.base.toNat + w * k + j - o.base.toNat = w * k + j by omega]

/-- An access a command may make: inside one of its validated operands, a write only in D or S, and 4 bytes unless a write. -/
def Body.Allows (b : Body) (y : Access) : Prop :=
  ∃ o ∈ b.operands, o.Covers y ∧ (y.isWrite = true → o.idx = 3#3 ∨ o.idx = 5#3) ∧ (y.bytes = 4 ∨ y.isWrite = true)

/-- Every access of a command is one it may make (R72, R95). -/
theorem bodyOf_accesses {c : Instr} {b : Body} (h : bodyOf c = some b) {k i : Nat} (hk : k < b.count) (hi : i < b.stages)
    (x : Word) :
    (b.unit k i x).AllAccesses b.Allows := by
  have el : ∀ {os : List Operand} (o : Operand) (n : Nat) (wr : Bool), o ∈ os → k < n → o.bytes = 4 * n → o.align = 4 →
      (wr = true → o.idx = 3#3 ∨ o.idx = 5#3) →
      ∃ o' ∈ os, o'.Covers ⟨wr, elemAddr o.base 4 k, 4⟩ ∧ (wr = true → o'.idx = 3#3 ∨ o'.idx = 5#3) ∧
        (4 = 4 ∨ wr = true) :=
    fun o n wr ho hn hb ha hi => ⟨o, ho, o.covers_elem (j := 0) wr hn (by omega) hb ha (by omega), hi, .inl rfl⟩
  cases c <;> cases h
  case conv16 d a len =>
    have hw : ∀ v, (Prog.write (elemAddr d 2 k) 2 (convert16 v).toNat (.ret 0)).AllAccesses
        (bodyConv16 d a len).Allows := fun v =>
      ⟨⟨.d d 2 (2 * len.toNat), by simp [bodyConv16],
        Operand.covers_elem _ (j := 0) (n := len.toNat) true hk (by omega) rfl rfl (by omega), fun _ => .inl rfl,
        .inr rfl⟩, trivial⟩
    refine ⟨el (.a a 4 (4 * len.toNat)) _ false (by simp [bodyConv16]) hk rfl rfl nofun, fun v => ?_⟩
    show (if F32.isNaN v = true then Prog.setNV _ else _ : Prog).AllAccesses _
    split
    · exact hw v
    · exact hw v
  case fill d v len =>
    exact ⟨el (.d d 4 (4 * len.toNat)) _ true (by simp [bodyFill]) hk rfl rfl fun _ => .inl rfl, trivial⟩
  case sub d a b len =>
    exact ⟨el (.a a 4 (4 * len.toNat)) _ false (by simp [bodySub]) hk rfl rfl nofun, fun _ =>
      ⟨el (.b b 4 (4 * len.toNat)) _ false (by simp [bodySub]) hk rfl rfl nofun, fun _ =>
      ⟨el (.d d 4 (4 * len.toNat)) _ true (by simp [bodySub]) hk rfl rfl fun _ => .inl rfl, trivial⟩⟩⟩
  case mul d a b len =>
    exact ⟨el (.a a 4 (4 * len.toNat)) _ false (by simp [bodyMul]) hk rfl rfl nofun, fun _ =>
      ⟨el (.b b 4 (4 * len.toNat)) _ false (by simp [bodyMul]) hk rfl rfl nofun, fun _ =>
      ⟨el (.d d 4 (4 * len.toNat)) _ true (by simp [bodyMul]) hk rfl rfl fun _ => .inl rfl, trivial⟩⟩⟩
  case scale d a v len =>
    exact ⟨el (.a a 4 (4 * len.toNat)) _ false (by simp [bodyScale]) hk rfl rfl nofun, fun _ =>
      ⟨el (.d d 4 (4 * len.toNat)) _ true (by simp [bodyScale]) hk rfl rfl fun _ => .inl rfl, trivial⟩⟩
  case offset d a v len =>
    exact ⟨el (.a a 4 (4 * len.toNat)) _ false (by simp [bodyOffset]) hk rfl rfl nofun, fun _ =>
      ⟨el (.d d 4 (4 * len.toNat)) _ true (by simp [bodyOffset]) hk rfl rfl fun _ => .inl rfl, trivial⟩⟩
  case bqinit s nst =>
    exact ⟨el (.s s 4 (16 * nst.toNat)) (4 * nst.toNat) true (by simp [bodyBqinit]) hk
      (by simp only [Operand.s]; omega) rfl fun _ => .inr rfl, trivial⟩
  case sshr d a sh bw =>
    exact ⟨el (.a a 4 4) 1 false (by simp [bodySshr]) hk rfl rfl nofun, fun _ =>
      ⟨el (.d d 4 4) 1 true (by simp [bodySshr]) hk rfl rfl fun _ => .inl rfl, trivial⟩⟩
  case biquad d a c s nst len =>
    have hc : ∀ j, j + 4 ≤ 20 → j % 4 = 0 →
        (bodyBiquad d a c s nst len).Allows ⟨false, elemAddr c 20 i + j, 4⟩ := fun j hj hj4 =>
      ⟨.c c 4 (20 * nst.toNat), by simp [bodyBiquad],
        Operand.covers_elem _ (n := nst.toNat) false hi hj rfl rfl (by omega), nofun, .inl rfl⟩
    have hs : ∀ j wr, j + 4 ≤ 16 → j % 4 = 0 →
        (bodyBiquad d a c s nst len).Allows ⟨wr, elemAddr s 16 i + j, 4⟩ := fun j wr hj hj4 =>
      ⟨.s s 4 (16 * nst.toNat), by simp [bodyBiquad],
        Operand.covers_elem _ (n := nst.toNat) wr hi hj rfl rfl (by omega), fun _ => .inr rfl, .inl rfl⟩
    have hstage : ∀ x0, (biquadStage (elemAddr c 20 i) (elemAddr s 16 i) x0 fun t =>
        if i + 1 = nst.toNat then .write (elemAddr d 4 k) 4 t.toNat (.ret t) else .ret t).AllAccesses
          (bodyBiquad d a c s nst len).Allows := by
      intro x0
      refine ⟨hc 0 (by omega) rfl, fun _ => ⟨hc 4 (by omega) rfl, fun _ => ⟨hc 8 (by omega) rfl, fun _ =>
        ⟨hc 12 (by omega) rfl, fun _ => ⟨hc 16 (by omega) rfl, fun _ =>
        ⟨hs 0 _ (by omega) rfl, fun _ => ⟨hs 4 _ (by omega) rfl, fun _ => ⟨hs 8 _ (by omega) rfl, fun _ =>
        ⟨hs 12 _ (by omega) rfl, fun _ =>
        ⟨hs 0 _ (by omega) rfl, hs 4 _ (by omega) rfl, hs 8 _ (by omega) rfl, hs 12 _ (by omega) rfl, ?_⟩⟩⟩⟩⟩⟩⟩⟩⟩⟩
      split
      · exact ⟨el (.d d 4 (4 * len.toNat)) _ true (by simp [bodyBiquad]) hk rfl rfl fun _ => .inl rfl, trivial⟩
      · trivial
    show (if i = 0 then Prog.read (elemAddr a 4 k) _ else _ : Prog).AllAccesses _
    by_cases h0 : i = 0
    · rw [if_pos h0]
      exact ⟨el (.a a 4 (4 * len.toNat)) _ false (by simp [bodyBiquad]) hk rfl rfl nofun, hstage⟩
    · rw [if_neg h0]
      exact hstage x

/-- After validation every access of a command is in DMEM (R124). -/
theorem bodyOf_inDmem {c : Instr} {b : Body} (h : bodyOf c = some b) {size : Nat} (hv : validate size b.operands = none)
    {k i : Nat} (hk : k < b.count) (hi : i < b.stages) (x : Word) :
    (b.unit k i x).AllAccesses fun y => y.addr + y.bytes ≤ size := by
  refine (bodyOf_accesses h hk hi x).mono fun y ⟨o, ho, hcov, _⟩ => ?_
  have hok := (validate_eq_none _ _).1 hv o ho
  have := hcov.1
  have h2 := hcov.2.1
  have hpos : 0 < y.bytes := by
    rw [hcov.2.2.2]
    have : ∀ o ∈ b.operands, 0 < o.align := by
      cases c <;> cases h <;>
        simp [bodyConv16, bodyFill, bodySub, bodyScale, bodyOffset, bodyMul, bodyBqinit, bodyBiquad, bodySshr,
          Operand.a, Operand.b, Operand.c, Operand.d, Operand.s]
    exact this o ho
  rcases hok.2 with h0 | h0 <;> omega

/-- A command's validated Execute keeps DMEM's form and bounds. -/
theorem bodyOf_execute_memOk {c : Instr} {b : Body} (h : bodyOf c = some b) {s : State}
    (hv : validate s.cfg.dmemSize b.operands = none) (hs : s.MemOk) : (b.execute s).MemOk := by
  refine (b.execute_keeps (fun t => t.cfg = s.cfg ∧ t.MemOk) ?_ s ⟨rfl, hs⟩).2
  rintro k hk i hi x t ⟨hc, ht⟩
  have hd := bodyOf_inDmem h hv hk hi x
  refine ⟨?_, Prog.run_memOk (by rwa [hc]) ht⟩
  obtain ⟨m, v, -, hr⟩ := (b.unit k i x).run_changes t
  rw [hr, State.setNVTo_cfg, State.withMem_cfg, hc]

/-- A byte in no range the command stores to reads the same after Execute. -/
theorem bodyOf_execute_readByte {c : Instr} {b : Body} (h : bodyOf c = some b) {y : Nat} (hy : NotStored c y) (s : State) :
    (b.execute s).mem.readByte y = s.mem.readByte y := by
  have hops : ∀ o ∈ b.operands, o.idx = 3#3 ∨ o.idx = 5#3 → (o.base.toNat, o.bytes) ∈ storeRanges c := by
    cases c <;> cases h <;>
      simp [bodyConv16, bodyFill, bodySub, bodyScale, bodyOffset, bodyMul, bodyBqinit, bodyBiquad, bodySshr,
        Operand.a, Operand.b, Operand.c, Operand.d, Operand.s, storeRanges]
  refine b.execute_keeps (fun t => t.mem.readByte y = s.mem.readByte y) ?_ s rfl
  intro k hk i hi x t ht
  rw [Prog.run_readByte t, ht]
  refine (bodyOf_accesses h hk hi x).mono fun z ⟨o, ho, hcov, hw, _⟩ hz => ?_
  have := hy _ (hops o ho (hw hz))
  have h1 := hcov.1
  have h2 := hcov.2.1
  simp only at this
  omega

/-- Only CONV16 sets NV (R37, R150). -/
theorem bodyOf_execute_status {c : Instr} {b : Body} (h : bodyOf c = some b) (hc : ∀ d a len, c ≠ .conv16 d a len)
    (s : State) : (b.execute s).status = s.status := by
  refine b.execute_keeps (fun t => t.status = s.status) ?_ s rfl
  intro k hk i hi x t ht
  rw [Prog.NeverNV.run _ t, ht]
  cases c <;> cases h
  case conv16 d a len => exact absurd rfl (hc d a len)
  case fill => exact trivial
  case sub => exact fun _ _ => trivial
  case mul => exact fun _ _ => trivial
  case scale => exact fun _ => trivial
  case offset => exact fun _ => trivial
  case bqinit => exact trivial
  case sshr => exact fun _ => trivial
  case biquad d a c s nst len =>
    have hstage : ∀ x0, (biquadStage (elemAddr c 20 i) (elemAddr s 16 i) x0 fun t =>
        if i + 1 = nst.toNat then .write (elemAddr d 4 k) 4 t.toNat (.ret t) else .ret t).NeverNV := by
      intro x0 _ _ _ _ _ _ _ _ _
      show (if _ then _ else _ : Prog).NeverNV
      split <;> trivial
    show (if i = 0 then Prog.read (elemAddr a 4 k) _ else _ : Prog).NeverNV
    by_cases h0 : i = 0
    · rw [if_pos h0]
      exact hstage
    · rw [if_neg h0]
      exact hstage x

end Sys2Proof.Machine
end

