-- ==== Sys2Proof/Laws/Float.lean ====
section
/-! SUPPORT. What packing and rounding do (R9, R10): the value of a packed pattern, and the one lemma of `roundMag`: no finite
value is nearer, a tie goes to the even one, and overflow begins at (2^25 - 1) * 2^252 units. -/

namespace Sys2Proof.F32

/-! ### Packed patterns -/

/-- The magnitude, in units of 2^-149, of the pattern whose bits 30:0 are `M` (R9). -/
def magOf (M : Nat) : Nat := if M / 2 ^ 23 = 0 then M % 2 ^ 23 else (2 ^ 23 + M % 2 ^ 23) * 2 ^ (M / 2 ^ 23 - 1)

/-- Bits 30:0 of a pattern. -/
def low (b : Word) : Nat := b.toNat % 2 ^ 31

theorem low_lt (b : Word) : low b < 2 ^ 31 := Nat.mod_lt _ (by decide)

theorem expo_eq (b : Word) : expo b = low b / 2 ^ 23 := by
  simp only [expo, low, BitVec.extractLsb'_toNat, Nat.shiftRight_eq_div_pow]
  omega

theorem frac_eq (b : Word) : frac b = low b % 2 ^ 23 := by
  simp only [frac, low, BitVec.extractLsb'_toNat, Nat.shiftRight_eq_div_pow]
  omega

theorem sign_eq (b : Word) : sign b = decide (2 ^ 31 ≤ b.toNat) := by
  simp only [sign, BitVec.getLsbD, Nat.testBit_eq_decide_div_mod_eq]
  have := b.isLt
  exact decide_eq_decide.2 (by omega)

theorem mag_eq (b : Word) : mag b = magOf (low b) := by simp only [mag, magOf, expo_eq, frac_eq]

theorem isFinite_eq (b : Word) : isFinite b = decide (low b < 0x7F800000) := by
  have := low_lt b
  simp only [isFinite, expo_eq]
  by_cases h : low b < 0x7F800000 <;> simp [h] <;> omega

theorem toNat_pack (neg : Bool) {m : Nat} (hm : m < 2 ^ 31) : (pack neg m).toNat = (if neg then 2 ^ 31 else 0) + m := by
  simp only [pack, BitVec.toNat_ofNat]
  cases neg <;> simp <;> omega

@[simp] theorem low_pack (neg : Bool) {m : Nat} (hm : m < 2 ^ 31) : low (pack neg m) = m := by
  rw [low, toNat_pack neg hm]
  cases neg <;> simp <;> omega

@[simp] theorem sign_pack (neg : Bool) {m : Nat} (hm : m < 2 ^ 31) : sign (pack neg m) = neg := by
  rw [sign_eq, toNat_pack neg hm]
  cases neg
  · simp; omega
  · simp

/-- A pattern is its sign and its bits 30:0. -/
theorem pack_sign_low (b : Word) : pack (sign b) (low b) = b := by
  apply BitVec.eq_of_toNat_eq
  rw [toNat_pack _ (low_lt b), sign_eq, low]
  have := b.isLt
  by_cases h : 2 ^ 31 ≤ b.toNat
  · rw [decide_eq_true h, if_pos rfl]
    omega
  · rw [decide_eq_false h, if_neg Bool.false_ne_true]
    omega

/-! ### Rounding -/

theorem roundQuot_cases (m q : Nat) :
    (roundQuot m q = m / 2 ^ q ∧ 2 * (m % 2 ^ q) ≤ 2 ^ q ∧ (2 * (m % 2 ^ q) = 2 ^ q → (m / 2 ^ q) % 2 = 0)) ∨
    (roundQuot m q = m / 2 ^ q + 1 ∧ 2 ^ q ≤ 2 * (m % 2 ^ q) ∧ (2 * (m % 2 ^ q) = 2 ^ q → (m / 2 ^ q) % 2 = 1)) := by
  unfold roundQuot
  simp only
  split_ifs with h
  · right; refine ⟨rfl, by omega, by omega⟩
  · left; refine ⟨rfl, by omega, by omega⟩

/-- The bits kept, before rounding up: at most 2^24 - 1, and at least 2^23 where bits beyond the smallest subnormal are dropped. -/
theorem quot_bounds (sub m : Nat) :
    m / 2 ^ dropBits sub m < 2 ^ 24 ∧ (sub < dropBits sub m → 2 ^ 23 ≤ m / 2 ^ dropBits sub m) ∧ sub ≤ dropBits sub m := by
  unfold dropBits
  have h1 : m < 2 ^ (Nat.log2 m + 1) := Nat.lt_log2_self
  refine ⟨?_, fun h => ?_, le_max_right _ _⟩
  · rw [Nat.div_lt_iff_lt_mul (by positivity), ← Nat.pow_add]
    exact lt_of_lt_of_le h1 (Nat.pow_le_pow_right (by decide) (by omega))
  · have hq : max (Nat.log2 m - 23) sub = Nat.log2 m - 23 := by omega
    have h23 : 23 ≤ Nat.log2 m := by omega
    have hm : m ≠ 0 := by rintro rfl; simp at h23
    rw [hq, Nat.le_div_iff_mul_le (by positivity), ← Nat.pow_add, show 23 + (Nat.log2 m - 23) = Nat.log2 m by omega]
    exact Nat.log2_self_le hm

/-- Bits 30:0 before the limit at infinity. -/
def rounded (sub m : Nat) : Nat := (dropBits sub m - sub) * 2 ^ 23 + roundQuot m (dropBits sub m)

theorem roundMag_eq (sub m : Nat) : roundMag sub m = min (rounded sub m) 0x7F800000 := rfl

theorem magOf_shift (e d : Nat) (h1 : d ≤ 2 ^ 24) (h2 : 0 < e → 2 ^ 23 ≤ d) : magOf (e * 2 ^ 23 + d) = d * 2 ^ e := by
  unfold magOf
  rcases Nat.lt_or_ge d (2 ^ 23) with h | h
  · have he : e = 0 := by
      by_contra hc
      have := h2 (by omega)
      omega
    subst he
    rw [if_pos (by omega)]
    omega
  · rcases Nat.lt_or_ge d (2 ^ 24) with h' | h'
    · rw [show (e * 2 ^ 23 + d) / 2 ^ 23 = e + 1 by omega, if_neg (by omega),
        show (e * 2 ^ 23 + d) % 2 ^ 23 = d - 2 ^ 23 by omega, Nat.add_sub_cancel,
        show 2 ^ 23 + (d - 2 ^ 23) = d by omega]
    · have hd : d = 2 ^ 24 := by omega
      subst hd
      rw [show (e * 2 ^ 23 + 2 ^ 24) / 2 ^ 23 = e + 2 by omega, if_neg (by omega),
        show (e * 2 ^ 23 + 2 ^ 24) % 2 ^ 23 = 0 by omega, show e + 2 - 1 = e + 1 by omega, Nat.pow_succ]
      omega

/-- The value of the rounded pattern is the rounded quotient. -/
theorem magOf_rounded (sub m : Nat) :
    magOf (rounded sub m) * 2 ^ sub = roundQuot m (dropBits sub m) * 2 ^ dropBits sub m := by
  obtain ⟨hb1, hb2, hb3⟩ := quot_bounds sub m
  have hd : roundQuot m (dropBits sub m) ≤ 2 ^ 24 ∧ (sub < dropBits sub m → 2 ^ 23 ≤ roundQuot m (dropBits sub m)) := by
    rcases roundQuot_cases m (dropBits sub m) with ⟨h, -⟩ | ⟨h, -⟩ <;> rw [h] <;> exact ⟨by omega, fun h => by have := hb2 h; omega⟩
  rw [rounded, magOf_shift _ _ hd.1 (fun h => hd.2 (by omega)), Nat.mul_assoc, ← Nat.pow_add,
    show dropBits sub m - sub + sub = dropBits sub m by omega]

/-- Every finite value on the finer scale is below 2^23 quanta of 2^q, or a whole number of them. -/
theorem magOf_grid (M sub q : Nat) (hq : sub ≤ q) :
    (sub < q ∧ magOf M * 2 ^ sub < 2 ^ (q + 23)) ∨ ∃ t, magOf M * 2 ^ sub = t * 2 ^ q := by
  rcases Nat.lt_or_ge sub q with h | h
  · unfold magOf
    split_ifs with h0
    · left
      refine ⟨h, lt_of_lt_of_le (Nat.mul_lt_mul_of_pos_right (Nat.mod_lt M (by decide : 0 < 2 ^ 23)) (by positivity)) ?_⟩
      rw [← Nat.pow_add]
      exact Nat.pow_le_pow_right (by decide) (by omega)
    · rcases Nat.lt_or_ge (M / 2 ^ 23 - 1 + sub) q with h' | h'
      · left
        refine ⟨h, ?_⟩
        rw [Nat.mul_assoc, ← Nat.pow_add]
        have h24 : 2 ^ 23 + M % 2 ^ 23 < 2 ^ 24 := by omega
        refine lt_of_lt_of_le (Nat.mul_lt_mul_of_pos_right h24 (by positivity)) ?_
        rw [← Nat.pow_add]
        exact Nat.pow_le_pow_right (by decide) (by omega)
      · right
        refine ⟨(2 ^ 23 + M % 2 ^ 23) * 2 ^ (M / 2 ^ 23 - 1 + sub - q), ?_⟩
        rw [Nat.mul_assoc, Nat.mul_assoc, ← Nat.pow_add, ← Nat.pow_add]
        congr 2
        omega
  · right
    have : sub = q := by omega
    subst this
    exact ⟨_, rfl⟩

/-- `w` is `m = z + r` rounded to a multiple of `p`, and `g` does not lie strictly between the two multiples around `m`. -/
theorem nearest_of_grid {m p z r w g : Nat} (hm : z + r = m) (hr : r < p)
    (hw : (w = z ∧ 2 * r ≤ p) ∨ (w = z + p ∧ p ≤ 2 * r)) (hg : g ≤ z ∨ z + p ≤ g) :
    |(w : Int) - m| ≤ |(g : Int) - m| ∧ (|(w : Int) - m| = |(g : Int) - m| → g ≠ w → 2 * r = p) := by
  simp only [Int.abs_eq_natAbs]
  omega

/-- No value of the format is nearer to `m` than the rounded one, and of two as near the rounded one's last bit is 0 (R10 (1)). -/
theorem rounded_nearest (sub m M : Nat) :
    |(magOf (rounded sub m) * 2 ^ sub : Int) - m| ≤ |(magOf M * 2 ^ sub : Int) - m| ∧
    (|(magOf (rounded sub m) * 2 ^ sub : Int) - m| = |(magOf M * 2 ^ sub : Int) - m| →
      magOf M ≠ magOf (rounded sub m) → rounded sub m % 2 = 0) := by
  obtain ⟨hb1, hb2, hb3⟩ := quot_bounds sub m
  have hpar : rounded sub m % 2 = roundQuot m (dropBits sub m) % 2 := by
    unfold rounded
    omega
  have hg : magOf M * 2 ^ sub ≤ 2 ^ dropBits sub m * (m / 2 ^ dropBits sub m) ∨
      2 ^ dropBits sub m * (m / 2 ^ dropBits sub m) + 2 ^ dropBits sub m ≤ magOf M * 2 ^ sub := by
    rcases magOf_grid M sub (dropBits sub m) hb3 with ⟨hs, hg⟩ | ⟨t, ht⟩
    · left
      rw [Nat.pow_add] at hg
      exact le_trans hg.le (Nat.mul_le_mul_left _ (hb2 hs))
    · rw [ht, Nat.mul_comm t]
      rcases Nat.lt_or_ge (m / 2 ^ dropBits sub m) t with h | h
      · right
        rw [← Nat.mul_succ]
        exact Nat.mul_le_mul_left _ h
      · left
        exact Nat.mul_le_mul_left _ h
  have hw : (roundQuot m (dropBits sub m) * 2 ^ dropBits sub m = 2 ^ dropBits sub m * (m / 2 ^ dropBits sub m) ∧
        2 * (m % 2 ^ dropBits sub m) ≤ 2 ^ dropBits sub m) ∨
      (roundQuot m (dropBits sub m) * 2 ^ dropBits sub m =
          2 ^ dropBits sub m * (m / 2 ^ dropBits sub m) + 2 ^ dropBits sub m ∧
        2 ^ dropBits sub m ≤ 2 * (m % 2 ^ dropBits sub m)) := by
    rcases roundQuot_cases m (dropBits sub m) with ⟨h, h', -⟩ | ⟨h, h', -⟩ <;> rw [h]
    · exact .inl ⟨Nat.mul_comm _ _, h'⟩
    · exact .inr ⟨by rw [Nat.mul_comm, Nat.mul_succ], h'⟩
  have heven : 2 * (m % 2 ^ dropBits sub m) = 2 ^ dropBits sub m → roundQuot m (dropBits sub m) % 2 = 0 := by
    rcases roundQuot_cases m (dropBits sub m) with ⟨h, -, h'⟩ | ⟨h, -, h'⟩ <;> rw [h] <;> intro ht <;> have := h' ht <;> omega
  rw [← magOf_rounded] at hw
  have hcore := nearest_of_grid (Nat.div_add_mod m (2 ^ dropBits sub m)) (Nat.mod_lt m (by positivity)) hw hg
  refine ⟨by exact_mod_cast hcore.1, fun he hne => ?_⟩
  rw [hpar]
  refine heven (hcore.2 (by exact_mod_cast he) fun h => hne ?_)
  exact Nat.eq_of_mul_eq_mul_right (by positivity) h

/-- Overflow begins at (2 - 2^-24) * 2^127 (R10). -/
theorem rounded_lt_iff (sub m : Nat) : rounded sub m < 0x7F800000 ↔ m < (2 ^ 25 - 1) * 2 ^ (252 + sub) := by
  obtain ⟨hb1, hb2, hb3⟩ := quot_bounds sub m
  have hcases := roundQuot_cases m (dropBits sub m)
  have hdm := Nat.div_add_mod m (2 ^ dropBits sub m)
  have hr := Nat.mod_lt m (show 0 < 2 ^ dropBits sub m by positivity)
  unfold rounded
  generalize dropBits sub m = q at *
  generalize roundQuot m q = rq at *
  rcases Nat.lt_trichotomy q (253 + sub) with h | h | h
  · have hlow : m < (2 ^ 25 - 1) * 2 ^ (252 + sub) := by
      have : m < 2 ^ 24 * 2 ^ (252 + sub) := by
        have h1 : m < 2 ^ 24 * 2 ^ q := (Nat.div_lt_iff_lt_mul (by positivity)).1 hb1
        exact lt_of_lt_of_le h1 (Nat.mul_le_mul_left _ (Nat.pow_le_pow_right (by decide) (by omega)))
      refine lt_trans this (Nat.mul_lt_mul_of_pos_right (by decide) (by positivity))
    refine ⟨fun _ => hlow, fun _ => ?_⟩
    clear hdm hr hlow
    generalize m / 2 ^ q = d at *
    rcases hcases with ⟨h', -⟩ | ⟨h', -⟩ <;> rw [h'] <;> omega
  · subst h
    have hd := hb2 (by omega)
    have h2 : 2 ^ (253 + sub) = 2 ^ (252 + sub) * 2 := by rw [show 253 + sub = 252 + sub + 1 by omega, Nat.pow_succ]
    have hp : 0 < 2 ^ (252 + sub) := by positivity
    have e1 : (2 ^ 25 - 1) * 2 ^ (252 + sub) = 2 ^ (252 + sub) * 2 * 16777215 + 2 ^ (252 + sub) := by
      generalize 2 ^ (252 + sub) = p
      omega
    rw [e1]
    rw [show 253 + sub - sub = 253 by omega]
    rw [h2] at hdm hr hd hb1 hcases
    clear hb2 hb3 e1 h2
    generalize 2 ^ (252 + sub) = p at *
    generalize m / (p * 2) = d at *
    generalize m % (p * 2) = r at *
    rcases Nat.lt_or_ge d 16777215 with hlt | hge
    · have : p * 2 * (d + 1) ≤ p * 2 * 16777215 := Nat.mul_le_mul_left _ (by omega)
      rw [Nat.mul_succ] at this
      generalize p * 2 * d = y at *
      refine ⟨fun _ => by omega, fun _ => ?_⟩
      rcases hcases with ⟨h', -⟩ | ⟨h', -⟩ <;> rw [h'] <;> omega
    · have hd' : d = 16777215 := by omega
      subst hd'
      rcases hcases with ⟨h', h1, h2⟩ | ⟨h', h1, h2⟩ <;> rw [h'] <;> constructor <;> intro <;> omega
  · have hd := hb2 (by omega)
    have hlow : (2 ^ 25 - 1) * 2 ^ (252 + sub) ≤ m := by
      have h1 : 2 ^ 23 * 2 ^ q ≤ m := (Nat.le_div_iff_mul_le (by positivity)).1 hd
      refine le_trans ?_ h1
      refine le_trans ?_ (Nat.mul_le_mul_left _ (Nat.pow_le_pow_right (by decide) (show 254 + sub ≤ q by omega)))
      rw [show 254 + sub = 252 + sub + 2 by omega, Nat.pow_add _ (252 + sub) 2]
      generalize 2 ^ (252 + sub) = p
      omega
    refine ⟨fun h' => ?_, fun h' => by omega⟩
    clear hdm hr hlow
    generalize m / 2 ^ q = d at *
    rcases hcases with ⟨h'', -⟩ | ⟨h'', -⟩ <;> rw [h''] at h' <;> omega

/-- The one lemma of `roundMag`. -/
theorem roundMag_spec (sub m : Nat) :
    (m < (2 ^ 25 - 1) * 2 ^ (252 + sub) → roundMag sub m < 0x7F800000 ∧
      ∀ M, |(magOf (roundMag sub m) * 2 ^ sub : Int) - m| ≤ |(magOf M * 2 ^ sub : Int) - m| ∧
        (|(magOf (roundMag sub m) * 2 ^ sub : Int) - m| = |(magOf M * 2 ^ sub : Int) - m| →
          magOf M ≠ magOf (roundMag sub m) → roundMag sub m % 2 = 0)) ∧
    ((2 ^ 25 - 1) * 2 ^ (252 + sub) ≤ m → roundMag sub m = 0x7F800000) := by
  have h := rounded_lt_iff sub m
  refine ⟨fun hm => ?_, fun hm => ?_⟩
  · have h' := h.2 hm
    rw [roundMag_eq, Nat.min_eq_left (by omega)]
    exact ⟨h', rounded_nearest sub m⟩
  · rw [roundMag_eq, Nat.min_eq_right]
    by_contra hc
    exact absurd (h.1 (by omega)) (by omega)

end Sys2Proof.F32
end

