-- ==== Sys2Proof/Laws/PerInstr.lean ====
section
/-! SUPPORT. Statements made instruction by instruction: what the encoder writes meets the instruction's row of
spec/opcode_table.json, and every word the row lists as ignored is written 0 (R91, R95, R96). -/

namespace Sys2Proof.Laws.EncodeMeetsRow

/-- The fixed bits of a row of spec/opcode_table.json: its mask, its match, and the words of the descriptor it ignores. -/
structure Row where
  mask : Word
  pattern : Word
  ignored : List (Descriptor → Word)

/-- The row of each instruction. -/
def row : Instr → Row
  | .endList => ⟨0xFFFFFFFF, 0x00000000, [(·.w1), (·.w2), (·.w3), (·.w4), (·.w5), (·.w6), (·.w7)]⟩
  | .conv16 _ _ _ => ⟨0xFFFFFFFF, 0x00000001, [(·.w2), (·.w4), (·.w5), (·.w7)]⟩
  | .fill _ _ _ => ⟨0xFFFFFFFF, 0x00000002, [(·.w1), (·.w4), (·.w5), (·.w7)]⟩
  | .sub _ _ _ _ => ⟨0xFFFFFFFF, 0x00000003, [(·.w4), (·.w5), (·.w7)]⟩
  | .scale _ _ _ _ => ⟨0xFFFFFFFF, 0x00000004, [(·.w4), (·.w5), (·.w7)]⟩
  | .offset _ _ _ _ => ⟨0xFFFFFFFF, 0x00000005, [(·.w4), (·.w5), (·.w7)]⟩
  | .mul _ _ _ _ => ⟨0xFFFFFFFF, 0x00000006, [(·.w4), (·.w5), (·.w7)]⟩
  | .bqinit _ _ => ⟨0xFFFF00FF, 0x00000007, [(·.w1), (·.w2), (·.w3), (·.w4), (·.w6), (·.w7)]⟩
  | .biquad _ _ _ _ _ _ => ⟨0xFFFF00FF, 0x00000008, [(·.w2), (·.w7)]⟩
  | .sshr _ _ _ _ => ⟨0xF800FFFF, 0x00000009, [(·.w2), (·.w4), (·.w5), (·.w6), (·.w7)]⟩

/-- The encoding of `i` meets its row. -/
def Statement (i : Instr) : Prop :=
  (encode i).w0 &&& (row i).mask = (row i).pattern ∧ ∀ w ∈ (row i).ignored, w (encode i) = 0

theorem endList : Statement .endList := by simp [Statement, row, encode]; decide

theorem conv16 (d a len : Word) : Statement (.conv16 d a len) := by simp [Statement, row, encode]; decide

theorem fill (d scalar len : Word) : Statement (.fill d scalar len) := by simp [Statement, row, encode]; decide

theorem sub (d a b len : Word) : Statement (.sub d a b len) := by simp [Statement, row, encode]; decide

theorem scale (d a scalar len : Word) : Statement (.scale d a scalar len) := by simp [Statement, row, encode]; decide

theorem offset (d a scalar len : Word) : Statement (.offset d a scalar len) := by simp [Statement, row, encode]; decide

theorem mul (d a b len : Word) : Statement (.mul d a b len) := by simp [Statement, row, encode]; decide

/-- NST covers exactly the bits the mask leaves out. -/
theorem controlWord_nst (op : Opcode) (nst : BitVec 8) :
    controlWord op nst 0 0 &&& 0xFFFF00FF#32 = op.byte.setWidth 32 := by
  apply BitVec.eq_of_getLsbD_eq
  intro j hj
  simp only [controlWord, BitVec.getLsbD_and, BitVec.getLsbD_append, BitVec.getLsbD_setWidth]
  interval_cases j <;> simp

/-- SH and BW cover exactly the bits the mask leaves out. -/
theorem controlWord_sh_bw (op : Opcode) (sh : BitVec 5) (bw : BitVec 6) :
    controlWord op 0 sh bw &&& 0xF800FFFF#32 = op.byte.setWidth 32 := by
  apply BitVec.eq_of_getLsbD_eq
  intro j hj
  simp only [controlWord, BitVec.getLsbD_and, BitVec.getLsbD_append, BitVec.getLsbD_setWidth]
  interval_cases j <;> simp

theorem bqinit (s : Word) (nst : BitVec 8) : Statement (.bqinit s nst) := by
  refine ⟨(controlWord_nst .bqinit nst).trans rfl, by simp [row, encode]⟩

theorem biquad (d a c s : Word) (nst : BitVec 8) (len : Word) : Statement (.biquad d a c s nst len) := by
  refine ⟨(controlWord_nst .biquad nst).trans rfl, by simp [row, encode]⟩

theorem sshr (d a : Word) (sh : BitVec 5) (bw : BitVec 6) : Statement (.sshr d a sh bw) := by
  refine ⟨(controlWord_sh_bw .sshr sh bw).trans rfl, by simp [row, encode]⟩

end Sys2Proof.Laws.EncodeMeetsRow
end

