-- ==== Sys2Proof/Laws/Sequencer.lean ====
section
/-! SUPPORT. What a step can do, said once: the moves of the sequencer, of the host, and of the whole machine. -/

namespace Sys2Proof.Machine

/-- The moves of the sequencer from a state, at either grain. -/
inductive SeqMove (s : State) : State → Prop where
  /-- Idle: nothing (R132). -/
  | stay (hb : s.status.busy = false) : SeqMove s s
  /-- A fault is recorded (R206). -/
  | trap (hb : s.status.busy = true) (c : FaultCode) (o : BitVec 3) (a : Word) : SeqMove s (s.trap c o a)
  /-- The run ends at END (R129). -/
  | endRun (hb : s.status.busy = true) : SeqMove s s.endRun
  /-- An access or an internal step within a command. -/
  | work (hb : s.status.busy = true) (m : Memory) (v : Bool) (q : Sequencer) (hv : s.status.nv = true → v = true) :
      SeqMove s (((s.withMem m).setNVTo v).withSeq q)
  /-- The first half of Complete (R127). -/
  | count (hb : s.status.busy = true) (q : Sequencer) : SeqMove s (s.countCommand.withSeq q)
  /-- The second half of Complete (R127). -/
  | advance (hb : s.status.busy = true) : SeqMove s s.advancePtr
  /-- A whole command, executed and completed (R121). -/
  | command (hb : s.status.busy = true) (m : Memory) (v : Bool) (hv : s.status.nv = true → v = true) :
      SeqMove s ((s.withMem m).setNVTo v).complete

/-- What `guarded` answers as a next state is the state it was given, and the bytes exist. -/
theorem guarded_next {s t u : State} {a n : Nat} (h : guarded s a n t = .next u) : a + n ≤ s.cfg.dmemSize ∧ u = t := by
  unfold guarded at h
  split at h
  · cases h
    exact ⟨‹_›, rfl⟩
  · cases h

theorem guarded_of_inDmem {s : State} (t : State) {a n : Nat} (h : a + n ≤ s.cfg.dmemSize) : guarded s a n t = .next t :=
  if_pos h

/-- `exec` always answers a next state: a trap (whatever BUSY is), END's, or a completed command's. -/
theorem exec_cases (i : Instr) (s : State) :
    (∃ c o a, exec i s = .next (s.trap c o a)) ∨ (i = .endList ∧ exec i s = .next s.endRun) ∨
    (∃ b, bodyOf i = some b ∧ i.wellFormed = true ∧ validate s.cfg.dmemSize b.operands = none ∧
      exec i s = .next (b.execute s).complete) := by
  by_cases he : i = .endList
  · subst he
    exact .inr (.inl ⟨rfl, rfl⟩)
  · obtain ⟨b, hb⟩ := bodyOf_of_ne_end he
    by_cases hw : i.wellFormed = true
    · rw [exec_eq_runCommand hb hw]
      rcases runCommand_cases b s with ⟨r, -, h⟩ | ⟨hv, h⟩
      · exact .inl ⟨_, _, _, h⟩
      · exact .inr (.inr ⟨b, hb, hw, hv, h⟩)
    · refine .inl ⟨.badParam, 0, s.cmdptr, ?_⟩
      cases i <;> simp_all [Instr.wellFormed, exec, execBqinit, execBiquad, execSshr]

/-- The sequencer's moves at the grain of single accesses. -/
theorem accessStep_move {s t : State} (h : accessStep s = .next t) : SeqMove s t := by
  unfold accessStep at h
  split at h
  swap
  · rename_i hb
    cases h
    exact .stay (Bool.eq_false_iff.2 hb)
  rename_i hb
  split at h
  · unfold fetchStep at h
    split at h
    · cases h
      exact .trap hb _ _ _
    · obtain ⟨-, rfl⟩ := guarded_next h
      exact .work hb s.mem s.status.nv _ id
  · unfold decodeStep at h
    split at h
    · cases h
      exact .trap hb _ _ _
    · split at h
      · cases h
        exact .endRun hb
      · split at h
        · cases h
          exact .trap hb _ _ _
        · cases h
          exact .work hb s.mem s.status.nv _ id
  · split at h
    · cases h
      exact .trap hb _ _ _
    · split at h
      · cases h
        exact .endRun hb
      · unfold executeStep at h
        split at h
        · split at h
          · cases h
            exact .work hb s.mem s.status.nv _ id
          · obtain ⟨-, rfl⟩ := guarded_next h
            exact .work hb s.mem s.status.nv _ id
          · obtain ⟨-, rfl⟩ := guarded_next h
            exact .work hb (s.mem.writeLE _ _ _) s.status.nv _ id
          · cases h
            exact .work hb s.mem true _ fun _ => rfl
        · cases h
          exact .count hb _
  · cases h
    exact .advance hb

/-- The sequencer's moves at the grain of a whole command. -/
theorem commandCycle_move {s t : State} (hb : s.status.busy = true) (h : commandCycle s = .next t) : SeqMove s t := by
  unfold commandCycle at h
  split at h
  · split at h
    · rename_i i _
      rcases exec_cases i s with ⟨c, o, a, he⟩ | ⟨-, he⟩ | ⟨b, -, -, -, he⟩
      · rw [he] at h
        cases h
        exact .trap hb _ _ _
      · rw [he] at h
        cases h
        exact .endRun hb
      · rw [he] at h
        cases h
        obtain ⟨m, v, hv, hr⟩ := b.execute_changes s
        rw [hr]
        exact .command hb m v hv
    · cases h
      exact .trap hb _ _ _
  · cases h
    exact .trap hb _ _ _

/-- The sequencer moving alone. -/
theorem sequencerStep_move {s t : State} (h : sequencerStep s = .next t) : SeqMove s t := by
  unfold sequencerStep at h
  split at h
  · split at h
    · exact commandCycle_move ‹_› h
    · exact accessStep_move h
  · rename_i hb
    cases h
    exact .stay (Bool.eq_false_iff.2 hb)

/-- A single access that ends the run: END at its decode step, its descriptor latched (R129), or a recorded fault. -/
theorem accessStep_stops {s t : State} (hb : s.status.busy = true) (h : accessStep s = .next t) (ht : t.status.busy = false) :
    ((∀ j, s.seq.phase ≠ .fetch j) ∧ decode s.seq.desc = .ok .endList ∧ t = s.endRun) ∨
    ∃ c o a, t = s.trap c o a ∧ (s.seqOk → s.seq.phase = .fetch 0 ∨ s.seq.phase = .decode) := by
  have hne : ∀ u : State, u.status.busy = true → t ≠ u := by
    rintro u hu rfl
    simp [hu] at ht
  unfold accessStep at h
  rw [if_pos hb] at h
  split at h
  · rename_i j hp
    unfold fetchStep at h
    split at h
    · rename_i hj
      cases h
      simp only [Bool.and_eq_true, decide_eq_true_eq] at hj
      exact .inr ⟨_, _, _, rfl, fun _ => .inl (by rw [hp, hj.1])⟩
    · exact absurd (guarded_next h).2 (hne _ hb)
  · rename_i hp
    have hf : ∀ j, s.seq.phase ≠ .fetch j := by simp [hp]
    unfold decodeStep at h
    split at h
    · cases h
      exact .inr ⟨_, _, _, rfl, fun _ => .inr hp⟩
    · rename_i i hd
      split at h
      · rename_i hi
        cases h
        cases i <;> cases hi
        exact .inl ⟨hf, hd, rfl⟩
      · split at h
        · cases h
          exact .inr ⟨_, _, _, rfl, fun _ => .inr hp⟩
        · cases h
          exact absurd rfl (hne _ hb)
  · rename_i hp
    have hf : ∀ j, s.seq.phase ≠ .fetch j := by simp [hp]
    split at h
    · rename_i f hd
      cases h
      refine .inr ⟨_, _, _, rfl, fun hs => ?_⟩
      simp [State.seqOk, hp, hd] at hs
    · rename_i i hd
      split at h
      · rename_i hi
        cases h
        cases i <;> cases hi
        exact .inl ⟨hf, hd, rfl⟩
      · unfold executeStep at h
        split at h
        · split at h
          · cases h
            exact absurd rfl (hne _ hb)
          · exact absurd (guarded_next h).2 (hne _ hb)
          · exact absurd (guarded_next h).2 (hne _ hb)
          · cases h
            exact absurd rfl (hne _ hb)
        · cases h
          exact absurd rfl (hne _ hb)
  · cases h
    exact absurd rfl (hne _ hb)

/-- A whole command that ends the run: END, the descriptor at CMDPTR (R129), or a recorded fault. -/
theorem commandCycle_stops {s t : State} (hb : s.status.busy = true) (h : commandCycle s = .next t) (ht : t.status.busy = false) :
    (inRange s.cfg.dmemSize s.cmdptr.toNat 32 = true ∧ decode s.fetchWords = .ok .endList ∧ t = s.endRun) ∨
    ∃ c o a, t = s.trap c o a := by
  unfold commandCycle at h
  split at h
  · rename_i hr
    split at h
    · rename_i i hd
      rcases exec_cases i s with ⟨c, o, a, he⟩ | ⟨rfl, he⟩ | ⟨b, -, -, -, he⟩
      · exact .inr ⟨c, o, a, by rw [he] at h; exact (Host.Outcome.next.inj h).symm⟩
      · exact .inl ⟨hr, hd, by rw [he] at h; exact (Host.Outcome.next.inj h).symm⟩
      · obtain ⟨m, v, -, hx⟩ := b.execute_changes s
        rw [he, hx] at h
        cases h
        simp [hb] at ht
    · cases h
      exact .inr ⟨_, _, _, rfl⟩
  · cases h
    exact .inr ⟨_, _, _, rfl⟩

/-- A step takes the oldest pending turn, if there is one: it is the host's transaction, or a move of the sequencer. -/
theorem step_move {s t : State} (h : step s = .next t) :
    (∃ x rest, s.turns = .host x :: rest ∧ t = hostStep x (s.withTurns rest)) ∨
    ((∀ x rest, s.turns ≠ .host x :: rest) ∧ SeqMove (s.withTurns s.turns.tail) t) := by
  unfold step at h
  split at h
  · rename_i x rest hx
    cases h
    exact .inl ⟨x, rest, hx, rfl⟩
  · rename_i rest hx
    refine .inr ⟨by simp [hx], ?_⟩
    rw [hx]
    exact accessStep_move h
  · rename_i hx
    refine .inr ⟨by simp [hx], ?_⟩
    rw [hx, show s.withTurns ([] : List Turn).tail = s by rw [List.tail_nil, ← hx]; rfl]
    exact sequencerStep_move h

/-! ### The host's moves -/

/-- What one host transaction does: a reset event, a recorded response alone, a CTRL write without or with an accepted START, a
STATUS write, a CMDPTR write while idle, or a DMEM write inside the window. -/
inductive HostMove (s : State) : HostTxn → State → Prop where
  | reset : HostMove s .reset (resetEvent s)
  | respond (x : HostTxn) (hx : x ≠ .reset) (r : Option Reply) : HostMove s x (s.withReply r)
  | ctrl (w : Word) (h : ¬ (w.getLsbD 0 = true ∧ s.status.busy = false ∧ s.status.err = false)) :
      HostMove s (.write (s.cfg.apertureBase + 0x04) 4 w) ({ s with ctrl := Ctrl.ofWord w }.withReply (some .ack))
  | start (w : Word) (hw : w.getLsbD 0 = true) (hb : s.status.busy = false) (he : s.status.err = false) :
      HostMove s (.write (s.cfg.apertureBase + 0x04) 4 w)
        ({ s with ctrl := Ctrl.ofWord w }.beginRun.withReply (some .ack))
  | status (w : Word) : HostMove s (.write (s.cfg.apertureBase + 0x08) 4 w) ((writeStatus s w).withReply (some .ack))
  | cmdptr (w : Word) (hb : s.status.busy = false) :
      HostMove s (.write (s.cfg.apertureBase + 0x0C) 4 w)
        ({ s with cmdptr := w &&& 0xFFFFFFFC#32 }.withReply (some .ack))
  | dmem (x : HostTxn) (hx : x ≠ .reset) (a n v : Nat) (h : a + n ≤ s.cfg.dmemSize) :
      HostMove s x ((s.withMem (s.mem.writeLE a n v)).withReply (some .ack))

/-- A CTRL write begins a run exactly if its START bit is 1, BUSY = 0 and ERR = 0 (R120). -/
theorem writeCtrl_eq (s : State) (w : Word) :
    writeCtrl s w = if w.getLsbD 0 = true ∧ s.status.busy = false ∧ s.status.err = false then
      { s with ctrl := Ctrl.ofWord w }.beginRun else { s with ctrl := Ctrl.ofWord w } := by
  unfold writeCtrl State.start
  cases w.getLsbD 0 <;> cases hb : s.status.busy <;> cases he : s.status.err <;> simp_all

/-- A register target is an aligned 32-bit access in the register space (R30). -/
theorem target_register {c : Config} {addr n off : Nat} (h : target c addr n = .register off) :
    addr = c.apertureBase + off ∧ n = 4 ∧ off < 0x100 ∧ off % 4 = 0 := by
  simp only [target] at h
  split_ifs at h
  all_goals cases h
  omega

/-- A DMEM target lies in DMEM and is naturally aligned (R31, R73). -/
theorem target_dmem {c : Config} {addr n a : Nat} (h : target c addr n = .dmem a) :
    addr = c.apertureBase + c.dmemWindow + a ∧ (n = 1 ∨ n = 2 ∨ n = 4) ∧ a % n = 0 ∧ a + n ≤ c.dmemSize := by
  simp only [target] at h
  split_ifs at h
  all_goals cases h
  omega

theorem hostStep_move (x : HostTxn) (s : State) : HostMove s x (hostStep x s) := by
  cases x with
  | read addr n =>
    simp only [hostStep, hostRead]
    split <;> exact .respond _ (by simp) _
  | write addr n w =>
    simp only [hostStep, hostWrite]
    split
    · rename_i off h
      obtain ⟨rfl, rfl, -, -⟩ := target_register h
      unfold writeReg
      split_ifs with h1 h2 h3
      · subst h1
        rw [writeCtrl_eq]
        split
        · rename_i h
          exact .start w h.1 h.2.1 h.2.2
        · exact .ctrl w ‹_›
      · subst h2
        exact .status w
      · subst h3
        unfold writeCmdptr
        split
        · exact .respond _ (by simp) _
        · rename_i hb
          exact .cmdptr w (Bool.eq_false_iff.2 hb)
      · exact .respond _ (by simp) _
    · rename_i a h
      exact .dmem _ (by simp) _ _ _ (target_dmem h).2.2.2
    · exact .respond _ (by simp) _
    · exact .respond _ (by simp) _
  | reset => exact .reset

end Sys2Proof.Machine
end

