-- ==== Sys2Proof/Tests/Slice0.lean ====
section
/-! SUPPORT. The model's own tests: the field checks that refuse ill-formed commands, descriptors written out from the spec's
encoding, vectors of spec/95_test_vectors.md (every expected value is the spec's), and for every obligation with hypotheses a
concrete state that meets them all. -/

open Sys2Proof Sys2Proof.Machine

namespace Sys2Proof.Tests

set_option Elab.async false

/-! ### WellFormed refuses what R98 does not accept -/

theorem test_wellFormed_refuses_bqinit_without_stages : Instr.wellFormed (.bqinit 0x140 0) = false := by decide
theorem test_wellFormed_refuses_biquad_without_stages : Instr.wellFormed (.biquad 0x300 0x200 0x100 0x140 0 4) = false := by
  decide
theorem test_wellFormed_refuses_sshr_without_width : Instr.wellFormed (.sshr 0x104 0x100 4 0) = false := by decide
theorem test_wellFormed_accepts_the_ends :
    Instr.wellFormed (.bqinit 0x140 255) = true ∧ Instr.wellFormed (.biquad 0x300 0x200 0x100 0x140 1 0) = true ∧
      Instr.wellFormed (.sshr 0x104 0x100 31 63) = true := by decide

/-! ### Decoding: words written out field by field (R92, R94, R95), and the spec's own -/

/-- R92: bits 31:27 reserved, BW 26:21, SH 20:16, NST 15:8, OP 7:0. -/
theorem test_decode_sshr_bit_by_bit :
    decode ⟨0b00000_010000_00100_00000000_00001001#32, 0x100, 0, 0x104, 0, 0, 0, 0⟩ = .ok (.sshr 0x104 0x100 4 16) := by decide
/-- NST = 0b10000001 = 129. -/
theorem test_decode_biquad_bit_by_bit :
    decode ⟨0b0000000000000000_10000001_00001000#32, 1, 2, 3, 4, 5, 6, 7⟩ = .ok (.biquad 3 1 4 5 129 6) := by decide
theorem test_decode_bqinit_bit_by_bit :
    decode ⟨0b0000000000000000_11111111_00000111#32, 1, 2, 3, 4, 5, 6, 7⟩ = .ok (.bqinit 5 255) := by decide
theorem test_decode_end : decode ⟨0x00000000, 1, 2, 3, 4, 5, 6, 7⟩ = .ok .endList := by decide
theorem test_decode_conv16 : decode ⟨0x00000001, 1, 2, 3, 4, 5, 6, 7⟩ = .ok (.conv16 3 1 6) := by decide
theorem test_decode_fill : decode ⟨0x00000002, 1, 2, 3, 4, 5, 6, 7⟩ = .ok (.fill 3 2 6) := by decide
theorem test_decode_sub : decode ⟨0x00000003, 1, 2, 3, 4, 5, 6, 7⟩ = .ok (.sub 3 1 2 6) := by decide
theorem test_decode_scale : decode ⟨0x00000004, 1, 2, 3, 4, 5, 6, 7⟩ = .ok (.scale 3 1 2 6) := by decide
theorem test_decode_offset : decode ⟨0x00000005, 1, 2, 3, 4, 5, 6, 7⟩ = .ok (.offset 3 1 2 6) := by decide
theorem test_decode_mul : decode ⟨0x00000006, 1, 2, 3, 4, 5, 6, 7⟩ = .ok (.mul 3 1 2 6) := by decide
/-- V-DC-01 to V-DC-04, V-END-02, V-BQ-20, V-BQ-21, V-SH-20 to V-SH-22. -/
theorem test_decode_rejections :
    [0x0000000A#32, 0x0000010A, 0x000000FF].all (fun w => decode ⟨w, 0, 0, 0, 0, 0, 0, 0⟩ = .error .illegalOp) = true ∧
    [0x80000002#32, 0x00000100, 0x00010108, 0x00200109, 0x08200009].all
      (fun w => decode ⟨w, 0, 0, 0, 0, 0, 0, 0⟩ = .error .rsvdField) = true ∧
    [0x00000008#32, 0x00040009].all (fun w => decode ⟨w, 3, 0, 0, 0, 0, 0, 0⟩ = .error .badParam) = true := by decide
/-- R90, R71: the words stand little-endian in DMEM; fewer than 32 bytes are no command. -/
theorem test_decode_bytes :
    decodeBytes ([0x09, 0x00, 0x04, 0x02, 0x00, 0x01, 0, 0, 0, 0, 0, 0, 0x04, 0x01, 0, 0] ++ List.replicate 16 0 ++ [0xAA])
      = .ok (.sshr 0x104 0x100 4 16, [0xAA]) ∧
    decodeBytes (List.replicate 31 0) = .error .truncated := by decide
theorem test_decodeTableWord : decodeTableWord 32 0x0000FF07 = some (.bqinit 0 255) := by decide +kernel

/-! ### One step of each command -/

/-- DMEM holding words at addresses. -/
def dataMem (ws : List (Nat × Word)) : Memory := ws.foldl (fun m w => m.write32 w.1 w.2) []

/-- A run about to fetch the descriptor `d` at address 0, with words of data in DMEM. -/
def ready (d : Descriptor) (ws : List (Nat × Word)) : State :=
  { State.reset with
    status := { State.reset.status with busy := true }
    mem := dataMem ([(0, d.w0), (4, d.w1), (8, d.w2), (12, d.w3), (16, d.w4), (20, d.w5), (24, d.w6), (28, d.w7)] ++ ws) }

/-- The state one step leads to. -/
def after (s : State) : Option State :=
  match step s with
  | .next t => some t
  | _ => none

/-- A state shown by evaluation to have a next one. -/
theorem step_next {s : State} (h : (after s).isSome = true) : ∃ t, step s = .next t := by
  unfold after at h
  split at h
  · exact ⟨_, by assumption⟩
  · cases h

/-- STATUS, CMDPTR, CMDCOUNT and words of DMEM after one step. -/
def seen (s : State) (as : List Nat) : Option (Word × Word × Word × List Word) :=
  (after s).map fun t => (t.status.word, t.cmdptr, t.cmdcount, as.map t.mem.read32)

/-- V-END-03: the unused words are ignored; DONE. -/
theorem test_end : seen (ready ⟨0, 0xFFFFFFFF, 0xFFFFFFFF, 0xFFFFFFFF, 0xFFFFFFFF, 0xFFFFFFFF, 0xFFFFFFFF, 0xFFFFFFFF⟩ []) []
    = some (0x00000002, 0, 0, []) := by decide +kernel
/-- V-CV-30 (the run is still under way, so BUSY and NV show). -/
theorem test_conv16_nan : seen (ready ⟨1, 0x100, 0, 0x200, 0, 0, 3, 0⟩ [(0x100, 0x3F000000), (0x104, 0x7FC00000), (0x108, 0xBF800000)])
    [0x200, 0x204] = some (0x00000009, 0x20, 1, [0x00004000, 0x00008000]) := by decide +kernel
/-- V-CV-31: in place. -/
theorem test_conv16_in_place : seen (ready ⟨1, 0x100, 0, 0x100, 0, 0, 2, 0⟩ [(0x100, 0x3F000000), (0x104, 0xBF000000)])
    [0x100, 0x104] = some (0x00000001, 0x20, 1, [0xC0004000, 0xBF000000]) := by decide +kernel
/-- V-FL-02: the payload is kept. -/
theorem test_fill_keeps_payload : seen (ready ⟨2, 0, 0x7FC00001, 0x200, 0, 0, 1, 0⟩ []) [0x200, 0x204]
    = some (0x00000001, 0x20, 1, [0x7FC00001, 0]) := by decide +kernel
/-- V-FL-05: no range wraps. -/
theorem test_fill_no_wrap : (after (ready ⟨2, 0, 0, 0xFFFFFFFC, 0, 0, 1, 0⟩ [])).map (fun t => (t.status.word, t.faultaddr, t.cmdptr))
    = some (0x00030604, 0xFFFFFFFC, 0) := by decide +kernel
/-- V-SB-01, V-SB-03, V-SB-05, V-SB-08, in one block. -/
theorem test_sub : seen (ready ⟨3, 0x100, 0x120, 0x140, 0, 0, 4, 0⟩ [(0x100, 0x3FC00000), (0x104, 0x80000000), (0x108, 0x80000000),
    (0x10C, 0x7F7FFFFF), (0x120, 0x3E800000), (0x124, 0), (0x128, 0x80000000), (0x12C, 0xFF7FFFFF)]) [0x140, 0x144, 0x148, 0x14C]
    = some (0x00000001, 0x20, 1, [0x3FA00000, 0x80000000, 0, 0x7F800000]) := by decide +kernel
/-- V-SB-20: A's range is checked before D's alignment. -/
theorem test_sub_first_fault : (after (ready ⟨3, 0xFFF0, 0x100, 0x102, 0, 0, 8, 0⟩ [])).map (fun t => (t.status.word, t.faultaddr))
    = some (0x00010604, 0xFFF0) := by decide +kernel
/-- V-SC-02, V-SC-07, V-SC-08, V-SC-06. -/
theorem test_scale : seen (ready ⟨4, 0x100, 0x3F000000, 0x140, 0, 0, 4, 0⟩ [(0x100, 0xC0000000), (0x104, 1), (0x108, 3),
    (0x10C, 0x00800000)]) [0x140, 0x144, 0x148, 0x14C]
    = some (0x00000001, 0x20, 1, [0xBF800000, 0, 2, 0x00400000]) := by decide +kernel
/-- V-OF-04: a tie to even. -/
theorem test_offset : seen (ready ⟨5, 0x100, 0x34400000, 0x140, 0, 0, 1, 0⟩ [(0x100, 0x3F800000)]) [0x140]
    = some (0x00000001, 0x20, 1, [0x3F800002]) := by decide +kernel
/-- V-MU-01, V-MU-03, V-MU-05. -/
theorem test_mul : seen (ready ⟨6, 0x100, 0x120, 0x140, 0, 0, 3, 0⟩ [(0x100, 0x40000000), (0x104, 0x3DCCCCCD), (0x108, 0x7F800000),
    (0x120, 0xC0400000), (0x124, 0x3DCCCCCD)]) [0x140, 0x144, 0x148]
    = some (0x00000001, 0x20, 1, [0xC0C00000, 0x3C23D70B, 0x7FC00000]) := by decide +kernel
/-- V-BI-01, on its first and last words. -/
theorem test_bqinit : seen (ready ⟨0x00000207, 0, 0, 0, 0, 0x140, 0, 0⟩ [(0x13C, 7), (0x140, 0x41200000), (0x15C, 0x41200000), (0x160, 8)])
    [0x13C, 0x140, 0x15C, 0x160] = some (0x00000001, 0x20, 1, [7, 0, 0, 8]) := by decide +kernel
/-- V-BI-03. -/
theorem test_bqinit_range : (after (ready ⟨0x0000FF07, 0, 0, 0, 0, 0xF014, 0, 0⟩ [])).map (fun t => (t.status.word, t.faultaddr))
    = some (0x00050604, 0xF014) := by decide +kernel
/-- V-BQ-01: outputs and end state. -/
theorem test_biquad_history : seen (ready ⟨0x00000108, 0x300, 0, 0x400, 0x100, 0x200, 3, 0⟩ [(0x100, 0x3F000000), (0x104, 0x3E800000),
    (0x10C, 0xBF000000), (0x300, 0x3F800000)]) [0x400, 0x404, 0x408, 0x200, 0x204, 0x208, 0x20C]
    = some (0x00000001, 0x20, 1, [0x3F000000, 0x3F000000, 0x3E800000, 0, 0, 0x3E800000, 0x3F000000]) := by decide +kernel
/-- V-BQ-02: two stages. -/
theorem test_biquad_stages : seen (ready ⟨0x00000208, 0x300, 0, 0x400, 0x100, 0x200, 1, 0⟩ [(0x100, 0x40000000), (0x114, 0x40000000),
    (0x300, 0x3FC00000)]) [0x400, 0x200, 0x208, 0x210, 0x218]
    = some (0x00000001, 0x20, 1, [0x40C00000, 0x3FC00000, 0x40400000, 0x40400000, 0x40C00000]) := by decide +kernel
/-- V-SH-04: floor, not truncation. -/
theorem test_sshr_floor : seen (ready ⟨0x04010009, 0x100, 0, 0x104, 0, 0, 0, 0⟩ [(0x100, 0xFFFFFF9B)]) [0x104]
    = some (0x00000001, 0x20, 1, [0xFFFFFFCD]) := by decide +kernel
/-- V-SH-12: clamped below. -/
theorem test_sshr_clamp : seen (ready ⟨0x01020009, 0x100, 0, 0x104, 0, 0, 0, 0⟩ [(0x100, 0xFFFFFC18)]) [0x104]
    = some (0x00000001, 0x20, 1, [0xFFFFFF80]) := by decide +kernel

/-! ### The host's steps and the machine's other entry points -/

/-- P5's second fetch: a descriptor past DMEM. -/
theorem test_fetch_out_of_range : (after { ready .zero [] with cmdptr := 0x10000 }).map (fun t => (t.status.word, t.faultaddr, t.cmdptr))
    = some (0x00000104, 0x10000, 0x10000) := by decide +kernel
/-- V-RG-02: clearing ERR clears ECODE. -/
theorem test_status_write_clears : (after { State.reset with
      status := { busy := false, done := false, err := true, nv := false, ecode := 2, eopnd := 0 }
      turns := [.host (.write 0x08 4 0x00000004)] }).map (fun t => t.status.word) = some 0 := by decide +kernel
/-- V-RG-03: CMDPTR's low bits are hardwired to 0. -/
theorem test_cmdptr_low_bits : (after { State.reset with turns := [.host (.write 0x0C 4 0x123)] }).map (·.cmdptr) = some 0x120 := by
  decide +kernel
/-- V-RG-04: no START bit, no run. -/
theorem test_ctrl_write : (after { State.reset with turns := [.host (.write 0x04 4 6)] }).map
    (fun t => (t.ctrl.word, t.status.busy, t.prefilterMode, t.irq)) = some (6, false, true, false) := by decide +kernel
/-- The first step after reset with an instruction placed runs it. -/
theorem test_withFetchWord : (after (State.reset.withFetchWord 32 0x0000FF07)).map (fun t => (t.cmdcount, t.cmdptr)) = some (1, 0x20) := by
  decide +kernel
/-- P2's last data line and P3's: the assembler places words. -/
theorem test_assemble : (Asm.assemble [".org 0x18".toList, ".f32 -0.25 ; two words".toList, ".word 0x00001234".toList]).toOption.map
    (fun m => [m.read32 0x18, m.read32 0x1C]) = some [0xBE800000, 0x1234] := by decide +kernel

/-! ### Witnesses: states that meet the hypotheses of the obligations -/

/-- Every operand form of R95 at a boundary of what R124 accepts, in the default 64 KiB DMEM (V-BI-02, V-CV-34). -/
def goodCommands : List Instr :=
  [.conv16 0xFFFE 0xFFFC 1, .conv16 0x10000 0x100 0, .fill 0xFFFC 0x7FC00001 1, .fill 0 0 0x4000, .sub 0x200 0xFFF0 0x100 4,
    .scale 0x100 0x100 0x3F000000 3, .offset 0xFFFC 0 0x80000000 1, .mul 0 0 0 1, .bqinit 0xF010 255,
    .biquad 0x300 0x300 0xFFEC 0xFFF0 1 4, .biquad 0x400 0x10000 0x100 0x200 2 0, .sshr 0xFFFC 0xFFFC 31 63]

/-- DecodeEncodeRoundTrip, DecodeBytesOfEncoding, CompletedCommandFrame, ExecuteAccessesAlignedInRange and WorkPerCommand. -/
theorem witness_good_commands :
    (goodCommands.all fun i => i.wellFormed && decide (i ≠ .endList) && decide (OperandsOk Config.default.dmemSize i)) = true := by
  decide +kernel

theorem witness_wellFormed_end : Instr.wellFormed .endList = true := by decide

/-- AcceptedControlWord, with every field of w0 set. -/
theorem witness_accepted : decode ⟨0x07FF0009, 1, 2, 3, 4, 5, 6, 7⟩ = .ok (.sshr 3 1 31 63) := by decide

/-- A run about to fetch a FILL, the state of the witnesses about one command. -/
def fillState : State := ready ⟨2, 0, 0x3F800000, 0x40, 0, 0, 1, 0⟩ []

/-- StepRunsDecodedInstruction, AccessesRefineCommand, EveryRunEnds, StepKeepsParametersAndOrder, PrefiltAffectsNoCommand. -/
theorem witness_boundary :
    fillState.turns = [] ∧ fillState.status.busy = true ∧ fillState.seq = .idle ∧ fillState.seq.phase = .fetch 0 ∧
    fillState.cfg.wf ∧ fillState.cmdptr.toNat + 32 ≤ fillState.cfg.dmemSize ∧
    decodeBytes fillState.descriptorBytes = .ok (.fill 0x40 0x3F800000 1, []) ∧
    (∃ t, step fillState = .next t) :=
  ⟨by decide +kernel, by decide +kernel, by decide +kernel, by decide +kernel, by decide +kernel, by decide +kernel,
    by decide +kernel, step_next (by decide +kernel)⟩

/-- FetchAndDecodeTrap, one witness for each clause: the first descriptor that does not fit, and the three rejections. -/
theorem witness_traps :
    (let s := { fillState with cmdptr := 0xFFE4 }
     s.turns = [] ∧ s.status.busy = true ∧ s.seq.phase = .fetch 0 ∧ s.cfg.dmemSize < s.cmdptr.toNat + 32) ∧
    ([(0x0000000A#32, DecodeFault.illegalOp), (0x80000002, .rsvdField), (0x00000007, .badParam)].all fun p =>
      let s := { ready .zero [(0xFFE0, p.1)] with cmdptr := 0xFFE0 }
      decide (s.turns = []) && s.status.busy && decide (s.seq.phase = .fetch 0) &&
        decide (s.cmdptr.toNat + 32 ≤ s.cfg.dmemSize) && decide (decodeBytes s.descriptorBytes = .error (.rejected p.2))) = true := by
  decide +kernel

/-- IdleSequencerMakesNoStep, both clauses. -/
theorem witness_idle :
    State.reset.status.busy = false ∧ State.reset.turns = [] ∧ (State.reset.withTurns [.sequencer]).turns = .sequencer :: [] := by
  decide

/-- FirstBadOperandTraps: C misaligned before S (V-BQ-22), and C out of range (V-BQ-23). -/
theorem witness_first_bad :
    ([(0x102#32, 0x201#32), (0xFFF0, 0x200)].all fun p =>
      let i : Instr := .biquad 0x400 0x300 p.1 p.2 1 1
      let pre : List (BitVec 3 × Word × Nat × Nat) := [(1, 0x300, 4, 4), (3, 0x400, 4, 4)]
      let o : BitVec 3 × Word × Nat × Nat := (4, p.1, 4, 20)
      i.wellFormed && decide (operandTable i = pre ++ o :: [(5, p.2, 4, 16)]) &&
        decide (∀ q ∈ pre, OperandOk State.reset.cfg.dmemSize q.2.1 q.2.2.1 q.2.2.2) &&
        decide (¬ OperandOk State.reset.cfg.dmemSize o.2.1 o.2.2.1 o.2.2.2)) = true := by decide +kernel

/-- The same run stopped after its descriptor was fetched, with a turn of the sequencer and one of the host pending. -/
def fetched (d : Descriptor) : State :=
  { ready d [] with seq := { Sequencer.idle with phase := .decode, desc := d }, turns := [.sequencer, .host (.read 0x08 4)] }

/-- FaultsArePrecise: a decode fault and a validation fault, for a whole command and at its decode step; and a fetch fault as a turn of
the sequencer. The hidden state is that of a run each time. -/
theorem witness_precise :
    [ready ⟨0xFF, 0, 0, 0, 0, 0, 0, 0⟩ [], ready ⟨1, 0x102, 0, 0x201, 0, 0, 1, 0⟩ [], fetched ⟨0xFF, 0, 0, 0, 0, 0, 0, 0⟩,
      fetched ⟨1, 0x102, 0, 0x201, 0, 0, 1, 0⟩, { fillState with cmdptr := 0xFFE4, turns := [.sequencer] }].all (fun s =>
      !s.status.err && ((after s).map fun t => t.status.err) == some true) = true ∧
    (ready ⟨0xFF, 0, 0, 0, 0, 0, 0, 0⟩ []).seqOk ∧ (fetched ⟨0xFF, 0, 0, 0, 0, 0, 0, 0⟩).seqOk :=
  ⟨by decide +kernel, rfl, trivial⟩

/-- LenZeroTouchesNothing: every command of the list, its bases at the end of DMEM; and V-CV-35, which traps. -/
theorem witness_len_zero :
    ([Instr.conv16 0x10000 0xFFFC 0, .fill 0x10000 5 0, .sub 0x10000 0 4 0, .scale 0x10000 8 5 0, .offset 0x10000 8 5 0,
      .mul 0x10000 0 4 0, .biquad 0x10000 0x10000 0xFFEC 0xFFF0 1 0].all fun i =>
        decide (OperandsOk State.reset.cfg.dmemSize i)) = true ∧ (1#8 ≠ 0) ∧
    ¬ OperandsOk State.reset.cfg.dmemSize (.conv16 0x10001 0x100 0) := by decide +kernel

/-- StepKeepsRegisterInvariants and RecordedFaultStays: a running state, an idle one and a faulted one that have R49's invariants. -/
theorem witness_regInv :
    fillState.RegInv ∧ State.reset.RegInv ∧ (fillState.faulted 0x05 3 0x201).RegInv ∧
      (fillState.faulted 0x05 3 0x201).status.err = true ∧ ∃ t, step (fillState.faulted 0x05 3 0x201) = .next t :=
  ⟨⟨by decide, by decide, by decide⟩, ⟨by decide, by decide, by decide⟩, ⟨by decide, by decide, by decide⟩, by decide,
    step_next (by decide +kernel)⟩

/-- BusyEndsAtEndFaultOrReset, one witness for each way: END, a fault, a reset event; END and a fault at both grains. -/
theorem witness_busy_ends :
    [ready .zero [], fetched .zero, ready ⟨0xFF, 0, 0, 0, 0, 0, 0, 0⟩ [], fetched ⟨0xFF, 0, 0, 0, 0, 0, 0, 0⟩,
      { fillState with turns := [.host .reset] }].all (fun s =>
      s.status.busy && !s.status.err && !s.status.done && decide (s.status.ecode = 0 ∧ s.status.eopnd = 0) &&
        ((after s).map fun t => t.status.busy) == some false) = true := by decide +kernel

/-- Conv16Completes and Conv16ElementsApart: equal bases, the destination below, and the destination above. -/
theorem witness_conv16 :
    [((0x100 : Word), (0x100 : Word)), (0xFA, 0x100), (0x10C, 0x100)].all (fun p =>
      decide (OperandsOk State.reset.cfg.dmemSize (.conv16 p.1 p.2 3)) &&
        decide (p.1 = p.2 ∨ p.1.toNat + 2 * 3 ≤ p.2.toNat ∨ p.2.toNat + 4 * 3 ≤ p.1.toNat)) = true := by decide +kernel

/-- ConversionProperties: -1.0, U and a number below U that is not on the grid, each with the hypotheses of its clause. -/
theorem witness_conversion :
    ([0xBF800000#32, 0x3F7FFE00, 0x3F7FFDF8, 0x80000000].all fun f =>
      !F32.isNaN f && F32.isFinite f && !F32.lt f 0xBF800000#32 && !F32.lt 0x3F7FFE00#32 f) = true ∧
    F32.isNaN 0x7F800000 = false ∧ F32.lt 0x7F800000 0xFF800000 = false ∧ F32.lt 0xFF800000 0x7F800000 = true := by decide +kernel

/-- FillCompletes: all of DMEM, and nothing. -/
theorem witness_fill :
    OperandsOk State.reset.cfg.dmemSize (.fill 0 0x3F800000 0x4000) ∧
      OperandsOk State.reset.cfg.dmemSize (.fill 0x10000 0x3F800000 0) := by decide +kernel

/-- TwoSourceCommandsComplete and ElementwiseResultsApart: in place on A, B apart and above; and all three apart. -/
theorem witness_two_sources :
    (OperandsOk State.reset.cfg.dmemSize (.sub 0x100 0x100 0x110 4) ∧ SameOrApart 0x100 0x100 16 ∧ SameOrApart 0x100 0x110 16) ∧
    (OperandsOk State.reset.cfg.dmemSize (.sub 0xFFF0 0 0x10 4) ∧ SameOrApart 0xFFF0 0 16 ∧ SameOrApart 0xFFF0 0x10 16) := by
  decide +kernel

/-- ScalarCommandsComplete: an overlap by one element. -/
theorem witness_scalar : OperandsOk State.reset.cfg.dmemSize (.scale 0xFFF0 0xFFEC 0x3F000000 4) := by decide +kernel

/-- BqinitZeroesState (V-BI-02) and BiquadCompletes, with state and coefficients up to the end of DMEM. -/
theorem witness_biquad :
    (255#8 ≠ 0 ∧ OperandsOk State.reset.cfg.dmemSize (.bqinit 0xF010 255)) ∧
    (2#8 ≠ 0 ∧ OperandsOk State.reset.cfg.dmemSize (.biquad 0x300 0x300 0x100 0xFFE0 2 4)) ∧
    (1#8 ≠ 0 ∧ OperandsOk State.reset.cfg.dmemSize (.biquad 0x400 0x300 0xFFEC 0x200 1 0)) := by decide +kernel

/-- IdentitySection: V-BQ-05's state and input, V-BQ-04's, and V-BQ-10's. -/
theorem witness_identity :
    ((F32.isFinite 0x40A00000 && F32.isFinite 0xC0E00000 && F32.isFinite 0x40400000 && F32.isFinite 0x41100000) = true ∧
      F32.isNaN 0x3E800000 = false ∧ F32.isNaN 0x80000000 = false ∧ F32.isNaN 0x7F800000 = false) ∧
    (F32.isFinite 0x7F800000 && F32.isFinite 0 && F32.isFinite 0 && F32.isFinite 0) = false ∧ F32.isNaN 0x7FC00001 = true := by
  decide +kernel

/-- SshrCompletes and ShiftProperties: BW = 1, 31, 32 and 63, and values below, inside and above the range. -/
theorem witness_sshr :
    ([1#6, 31, 32, 63].all fun bw => decide (bw ≠ 0 ∧ OperandsOk State.reset.cfg.dmemSize (.sshr 0xFFFC 0 31 bw))) = true ∧
    ((0x00001234#32).toInt / 2 ^ 4 > 2 ^ (8 - 1) - 1 ∧ (0xFFFFFC18#32).toInt / 2 ^ 2 < -(2 ^ (8 - 1)) ∧
      (0xFFFFFC18#32).toInt ≤ (0x00001234#32).toInt) := by decide +kernel

/-- AddRoundsToNearestEven and SubRoundsToNearestEven: a zero result, a tie (V-OF-03), the largest sum below the overflow bound, and
the bound itself. -/
theorem witness_add :
    ([0x80000000#32, 0x3F800000, 0x33800000, 0x7F7FFFFF, 0x73000000].all fun b => F32.isFinite b) = true ∧
    F32.val 0x80000000 + F32.val 0 = 0 ∧
    (F32.val 0x3F800000 + F32.val 0x33800000 ≠ 0 ∧ (F32.val 0x3F800000 + F32.val 0x33800000).natAbs < (2 ^ 25 - 1) * 2 ^ 252) ∧
    (2 ^ 25 - 1) * 2 ^ 252 ≤ (F32.val 0x7F7FFFFF + F32.val 0x73000000).natAbs ∧
    (F32.val 0x7F7FFFFF + F32.val 0x72FFFFFF).natAbs < (2 ^ 25 - 1) * 2 ^ 252 := by decide +kernel

/-- MulRoundsToNearestEven: a product that underflows in a tie (V-SC-07) and one that overflows (V-SC-05). -/
theorem witness_mul :
    ([0x00000001#32, 0x3F000000, 0x7F000000, 0x41200000].all fun b => F32.isFinite b) = true ∧
    (F32.val 0x00000001 * F32.val 0x3F000000).natAbs < (2 ^ 25 - 1) * 2 ^ 401 ∧
    (2 ^ 25 - 1) * 2 ^ 401 ≤ (F32.val 0x7F000000 * F32.val 0x41200000).natAbs := by decide +kernel

/-- SpecialValues and PseudoInstructionsExact: one pattern of each class. -/
theorem witness_classes :
    F32.isNaN 0x7FC00001 = true ∧ F32.isInf 0x7F800000 = true ∧ F32.isInf 0xFF800000 = true ∧
    (F32.isFinite 0x80000000 = true ∧ F32.val 0x80000000 = 0) ∧ (F32.isFinite 0x00000001 = true ∧ F32.val 0x00000001 ≠ 0) ∧
    F32.isNaN 0x80000000 = false := by decide +kernel

/-- CommandReadsNoRegister: two states with different registers and aperture and the same DMEM. -/
theorem witness_registers_differ :
    let s' := { fillState with
      cmdptr := 0x40, ctrl := { prefilt := true, irqen := true }, cmdcount := 9
      cfg := { fillState.cfg with dmemWindow := 0x20000, apertureBase := 0x4000 } }
    fillState.cfg.dmemSize = s'.cfg.dmemSize ∧ fillState.mem = s'.mem ∧ fillState ≠ s' := by decide +kernel

/-- A run between two accesses: the FILL decoded, nothing written yet. -/
def midway : State := { fillState with
  seq := { Sequencer.idle with phase := .execute, desc := ⟨2, 0, 0x3F800000, 0x40, 0, 0, 1, 0⟩ } }

/-- LatchedDescriptorStays, with the sequencer and with the host moving. -/
theorem witness_latched :
    [midway, midway.withTurns [.host (.write 0x10000 4 0xFFFFFFFF)]].all (fun s =>
      decide (∀ j, s.seq.phase ≠ .fetch j) && ((after s).map fun t => decide (∀ j, t.seq.phase ≠ .fetch j)) == some true) = true := by
  decide +kernel

/-- HostReadsRegister: the first and the last word of the register space. -/
theorem witness_register_reads :
    [0x00, 0x18, 0xFC].all (fun off => decide (off < 0x100 ∧ off % 4 = 0 ∧
      (State.reset.withTurns [.host (.read (State.reset.cfg.apertureBase + off) 4)]).turns =
        .host (.read (State.reset.cfg.apertureBase + off) 4) :: [])) = true := by decide +kernel

/-- HostWritesStatus, HostWritesCtrl (START accepted, and refused while BUSY), HostWritesCmdptr. -/
theorem witness_register_writes :
    (State.reset.withTurns [.host (.write (State.reset.cfg.apertureBase + 0x08) 4 0xE)]).turns =
      .host (.write (State.reset.cfg.apertureBase + 0x08) 4 0xE) :: [] ∧
    (let s := State.reset.withTurns [.host (.write (State.reset.cfg.apertureBase + 0x04) 4 5)]
     (5#32).getLsbD 0 = true ∧ s.status.busy = false ∧ s.status.err = false) ∧
    (fillState.withTurns [.host (.write (fillState.cfg.apertureBase + 0x04) 4 5)]).status.busy = true ∧
    (fillState.withTurns [.host (.write (fillState.cfg.apertureBase + 0x0C) 4 0x43)]).status.busy = true := by decide +kernel

/-- ReservedAndReadOnlyOffsets: the boundary offsets. -/
theorem witness_reserved :
    [0x1C, 0xFC].all (fun off => decide (off % 4 = 0 ∧ 0x1C ≤ off ∧ off ≤ 0xFC)) = true ∧
    [0x00, 0x10, 0x14, 0x18].all (fun off => decide (off % 4 = 0)) = true := by decide

/-- MixedWidthReads, HostWritesDmem and HostReadsDmem: the last word, half-word and byte of DMEM. -/
theorem witness_window :
    State.reset.cfg.wf ∧ (0xFFFC % 4 = 0 ∧ 0xFFFC + 4 ≤ State.reset.cfg.dmemSize ∧ 3 < 4) ∧
    ([(0xFFFC, 4), (0xFFFE, 2), (0xFFFF, 1)].all fun p =>
      decide ((p.2 = 1 ∨ p.2 = 2 ∨ p.2 = 4) ∧ p.1 % p.2 = 0 ∧ p.1 + p.2 ≤ State.reset.cfg.dmemSize)) = true := by decide +kernel

/-- BusErrorsChangeNothing: each of its three conditions, at a boundary; the first with widths 3 and 8 as well. -/
theorem witness_bus_errors :
    (0xFF < 0x100 ∧ (1 ≠ 4 ∨ 0xFF % 4 ≠ 0)) ∧ (0 < 0x100 ∧ (3 ≠ 4 ∨ 0 % 4 ≠ 0)) ∧ (0xFC < 0x100 ∧ (8 ≠ 4 ∨ 0xFC % 4 ≠ 0)) ∧
    (State.reset.cfg.dmemWindow ≤ 0x1FFFE ∧ 0x1FFFE < State.reset.cfg.dmemWindow + State.reset.cfg.dmemSize ∧
      (0x1FFFE - State.reset.cfg.dmemWindow) % 4 ≠ 0) ∧
    ([0x100, 0xFFFF, 0x20000].all fun off => decide (0x100 ≤ off ∧
      (off < State.reset.cfg.dmemWindow ∨ State.reset.cfg.dmemWindow + State.reset.cfg.dmemSize ≤ off))) = true := by decide +kernel

/-- ResetEventEffect, in the middle of a command. -/
theorem witness_reset : (midway.withTurns [.host .reset]).turns = .host .reset :: [] := by decide

/-- IrqStaysUntilCleared: an asserted level with the sequencer idle. -/
theorem witness_irq :
    let s := { State.reset with ctrl := { prefilt := false, irqen := true }, status := { State.reset.status with done := true } }
    s.irq = true ∧ s.status.err = false ∧ s.status.busy = false ∧ s.status.ecode = 0 ∧ s.status.eopnd = 0 ∧
      (after s).isSome = true := by decide +kernel

/-- NvIsSticky: NV set while a run goes on, and cleared by the host. -/
theorem witness_nv :
    let s := { fillState with status := { fillState.status with nv := true } }
    s.status.nv = true ∧ (after s).isSome = true ∧
      ((after (s.withTurns [.host (.write 0x08 4 8)])).map fun t => t.status.nv) = some false := by decide +kernel

/-- FaultAddressChangesOnlyAtFault: a step that changes it. -/
theorem witness_faultaddr :
    ((after (ready ⟨1, 0x102, 0, 0x201, 0, 0, 1, 0⟩ [])).map fun t => t.faultaddr) = some 0x102 := by decide +kernel

/-- HostCannotMoveALiveRun: a CMDPTR write and a START during a run. -/
theorem witness_live :
    [HostTxn.write 0x0C 4 0x43, .write 0x04 4 1].all (fun x =>
      let s := fillState.withTurns [.host x]
      s.status.busy && decide (x ≠ .reset) && decide (s.turns = .host x :: []) && (after s).isSome) = true := by decide +kernel

/-- A power-up that meets InvariantAtReset's hypotheses. -/
theorem witness_powerUp :
    Config.default.wf ∧ Memory.wf [(0, 1), (0xFFFF, 0xAA)] ∧ Memory.within Config.default.dmemSize [(0, 1), (0xFFFF, 0xAA)] := by
  decide +kernel

/-- StepKeepsInvariant and NoStepStops: the invariant holds of a run at a boundary and of one between two accesses. -/
theorem witness_inv : fillState.Inv ∧ midway.Inv ∧ (∃ t, step fillState = .next t) ∧ ∃ t, step midway = .next t := by
  refine ⟨⟨by decide +kernel, by decide +kernel, by decide +kernel, by decide +kernel, ⟨by decide, by decide, by decide⟩,
      by decide, by decide, rfl⟩,
    ⟨by decide +kernel, by decide +kernel, by decide +kernel, by decide +kernel, ⟨by decide, by decide, by decide⟩,
      by decide, by decide, ⟨_, _, rfl, rfl, by decide +kernel, by decide +kernel⟩⟩, step_next (by decide +kernel),
    step_next (by decide +kernel)⟩

end Sys2Proof.Tests
end

section
/-! What every step keeps, and that no step stops (spec/00_scope.md R3, R7): each from the moves of `Laws/Sequencer`. -/

namespace Sys2Proof.Machine

/-! ### The parameters and the pending turns (R3, R80) -/

/-- The sequencer changes neither the parameters nor the pending turns. -/
theorem SeqMove.keeps_cfg_turns {s t : State} (h : SeqMove s t) : t.cfg = s.cfg ∧ t.turns = s.turns := by
  cases h <;> exact ⟨rfl, rfl⟩

/-- No host transaction changes the parameters or the turns still pending, a reset event included. -/
theorem HostMove.keeps_cfg_turns {s t : State} {x : HostTxn} (h : HostMove s x t) :
    t.cfg = s.cfg ∧ t.turns = s.turns := by
  cases h <;> exact ⟨rfl, rfl⟩

/-- Settles O56: whichever agent moves, it moves from the state whose oldest turn is already taken. -/
theorem stepKeepsParametersAndOrder : Obligations.StepKeepsParametersAndOrder := by
  intro s t h
  obtain ⟨x, rest, hx, rfl⟩ | ⟨-, hmove⟩ := step_move h
  · rw [hx]
    exact (hostStep_move x (s.withTurns rest)).keeps_cfg_turns
  · exact hmove.keeps_cfg_turns

/-! ### No step stops (R7, R125, R205) -/

/-- A word fetch lies in DMEM once the 32 descriptor bytes do (R122). -/
theorem fetchStep_answers {s : State} {j : Fin 8} (h : j ≠ 0 → inRange s.cfg.dmemSize s.cmdptr.toNat 32 = true) :
    ∃ t, fetchStep s j = .next t := by
  unfold fetchStep
  split
  · exact ⟨_, rfl⟩
  · rename_i hc
    have hr : inRange s.cfg.dmemSize s.cmdptr.toNat 32 = true := by
      by_cases hj : j = 0
      · simpa [hj] using hc
      · exact h hj
    rw [inRange_iff] at hr
    exact ⟨_, guarded_of_inDmem _ (by omega)⟩

/-- Decoding and validation access no DMEM (R123, R124). -/
theorem decodeStep_answers (s : State) : ∃ t, decodeStep s = .next t := by
  unfold decodeStep
  split
  · exact ⟨_, rfl⟩
  · split
    · exact ⟨_, rfl⟩
    · split <;> exact ⟨_, rfl⟩

/-- What is left of a validated command's element lies in DMEM, so its next action is done (R125). -/
theorem executeStep_answers {s : State} {c : Instr} {b : Body} (hb : bodyOf c = some b)
    (hv : validate s.cfg.dmemSize b.operands = none) (hi : s.seq.i < b.stages) : ∃ t, executeStep b s = .next t := by
  unfold executeStep
  split
  · rename_i hk
    have hin := (bodyOf_inDmem hb hv hk hi s.seq.x).resume s.seq.pos s.seq.rd
    split <;> rename_i hp <;> rw [hp] at hin
    · exact ⟨_, rfl⟩
    · exact ⟨_, guarded_of_inDmem _ hin.1⟩
    · exact ⟨_, guarded_of_inDmem _ hin.1⟩
    · exact ⟨_, rfl⟩
  · exact ⟨_, rfl⟩

/-- A single access answers a next state wherever the hidden state is sound. -/
theorem accessStep_answers {s : State} (h : s.seqOk) : ∃ t, accessStep s = .next t := by
  unfold State.seqOk at h
  unfold accessStep
  split
  · split <;> rename_i hp <;> simp only [hp] at h
    · exact fetchStep_answers fun hj => by rwa [if_neg hj] at h
    · exact decodeStep_answers s
    · obtain ⟨i, b, hd, hb, hv, hi⟩ := h
      simp only [hd, hb]
      exact executeStep_answers hb hv hi
    · exact ⟨_, rfl⟩
  · exact ⟨_, rfl⟩

/-- A whole command always answers a next state: its validation is part of the step. -/
theorem commandCycle_answers (s : State) : ∃ t, commandCycle s = .next t := by
  unfold commandCycle
  split
  · split
    · rename_i i _
      obtain ⟨c, o, a, he⟩ | ⟨-, he⟩ | ⟨b, -, -, -, he⟩ := exec_cases i s <;> exact ⟨_, he⟩
    · exact ⟨_, rfl⟩
  · exact ⟨_, rfl⟩

/-- Settles O59: of the invariant only the soundness of the hidden state is needed. -/
theorem noStepStops : Obligations.NoStepStops := by
  intro s hs
  unfold step
  split
  · exact ⟨_, rfl⟩
  · rename_i rest _
    exact accessStep_answers (s := s.withTurns rest) hs.seqOk
  · unfold sequencerStep
    split
    · split
      · exact commandCycle_answers s
      · exact accessStep_answers hs.seqOk
    · exact ⟨_, rfl⟩

end Sys2Proof.Machine
end

section
/-! Binary32 operations on finite patterns, rounded once (spec/00_scope.md R9, R10), and their special values (R10 (4)). -/

namespace Sys2Proof.F32

/-! ### Classes and values of patterns (R9) -/

/-- A magnitude with its sign. -/
def signed (neg : Bool) (m : Nat) : Int := if neg then -(m : Int) else m

theorem val_eq (b : Word) : val b = signed (sign b) (magOf (low b)) := by
  rw [val, mag_eq, signed]

@[simp] theorem natAbs_signed (neg : Bool) (m : Nat) : (signed neg m).natAbs = m := by
  cases neg <;> simp [signed]

/-- Every integer is its magnitude with its sign; a zero may carry either. -/
theorem signed_natAbs (n : Int) : signed (n < 0) n.natAbs = n := by
  simp only [signed, decide_eq_true_eq]
  split <;> omega

/-- The product of two signed magnitudes carries the XOR of the signs. -/
theorem signed_mul (s t : Bool) (m k : Nat) : signed s m * signed t k = signed (s != t) (m * k) := by
  cases s <;> cases t <;> simp [signed]

theorem signed_not (s : Bool) (m : Nat) : signed (!s) m = -signed s m := by
  cases s <;> simp [signed]

/-- Only +0.0 and -0.0 have magnitude 0. -/
theorem magOf_eq_zero_iff (M : Nat) : magOf M = 0 ↔ M = 0 := by
  unfold magOf
  split
  · omega
  · simp
    omega

theorem val_eq_zero_iff (b : Word) : val b = 0 ↔ mag b = 0 := by
  rw [val_eq, ← mag_eq, ← Int.natAbs_eq_zero, natAbs_signed]

theorem val_pack (neg : Bool) {m : Nat} (hm : m < 2 ^ 31) : val (pack neg m) = signed neg (magOf m) := by
  rw [val_eq, sign_pack neg hm, low_pack neg hm]

theorem isFinite_pack (neg : Bool) {m : Nat} (hm : m < 0x7F800000) : isFinite (pack neg m) = true := by
  rw [isFinite_eq, low_pack neg (by omega), decide_eq_true hm]

/-- The last bit of a packed pattern is 0 where bits 30:0 are even. -/
theorem pack_lsb_of_even (neg : Bool) {m : Nat} (hm : m < 2 ^ 31) (h : m % 2 = 0) :
    (pack neg m).getLsbD 0 = false := by
  rw [BitVec.getLsbD, toNat_pack neg hm, Nat.testBit_zero]
  cases neg <;> simp <;> omega

theorem isNaN_of_isFinite {b : Word} (h : isFinite b = true) : isNaN b = false := by
  simp_all [isFinite, isNaN]

theorem isInf_of_isFinite {b : Word} (h : isFinite b = true) : isInf b = false := by
  simp_all [isFinite, isInf]

theorem isNaN_of_isInf {b : Word} (h : isInf b = true) : isNaN b = false := by
  simp_all [isInf, isNaN]

theorem isInf_iff_low (b : Word) : isInf b = true ↔ low b = 0x7F800000 := by
  rw [isInf, expo_eq, frac_eq, Bool.and_eq_true, decide_eq_true_eq, decide_eq_true_eq]
  omega

theorem isInf_inf (neg : Bool) : isInf (inf neg) = true := by
  rw [isInf_iff_low, inf, low_pack neg (by decide)]

theorem inf_eq (neg : Bool) : inf neg = if neg then 0xFF800000#32 else 0x7F800000#32 := by
  cases neg <;> rfl

/-- An infinity is not multiplied as a zero. -/
theorem mag_ne_zero_of_isInf {b : Word} (h : isInf b = true) : mag b ≠ 0 := by
  rw [mag_eq, (isInf_iff_low b).1 h, Ne, magOf_eq_zero_iff]
  decide

/-! ### The sign flipped -/

@[simp] theorem low_neg (b : Word) : low (neg b) = low b := by
  rw [low, low, neg, BitVec.toNat_xor, Nat.xor_mod_two_pow]
  simp

@[simp] theorem sign_neg (b : Word) : sign (neg b) = !sign b := by
  simp [sign, neg]

@[simp] theorem isNaN_neg (b : Word) : isNaN (neg b) = isNaN b := by
  simp only [isNaN, expo_eq, frac_eq, low_neg]

@[simp] theorem isInf_neg (b : Word) : isInf (neg b) = isInf b := by
  simp only [isInf, expo_eq, frac_eq, low_neg]

@[simp] theorem isFinite_neg (b : Word) : isFinite (neg b) = isFinite b := by
  simp only [isFinite_eq, low_neg]

@[simp] theorem val_neg (b : Word) : val (neg b) = -val b := by
  rw [val_eq, val_eq, sign_neg, low_neg, signed_not]

/-! ### One rounding of a signed value (R10 (1)) -/

/-- `r` is the rounding of `n` units of 2^(-149-sub) to nearest, ties to even: it is finite, no finite value is nearer, and where
another is as near its last bit is 0. -/
def NearestEven (sub : Nat) (n : Int) (r : Word) : Prop :=
  isFinite r = true ∧ ∀ c : Word, isFinite c = true → |val r * 2 ^ sub - n| ≤ |val c * 2 ^ sub - n| ∧
    (|val r * 2 ^ sub - n| = |val c * 2 ^ sub - n| → val c ≠ val r → r.getLsbD 0 = false)

/-- The distance between two signed magnitudes. -/
theorem abs_signed_sub (s t : Bool) (g m : Nat) :
    |signed s g - signed t m| = if s = t then |(g : Int) - m| else (g : Int) + m := by
  cases s <;> cases t <;>
    simp only [signed, Int.abs_eq_natAbs, Bool.false_eq_true, reduceCtorEq, if_true, if_false] <;> omega

theorem signed_mul_pow (s : Bool) (g k : Nat) : signed s g * 2 ^ k = signed s (g * 2 ^ k) := by
  cases s <;> simp [signed]

theorem roundMag_le (sub m : Nat) : roundMag sub m ≤ 0x7F800000 := Nat.min_le_right _ _

/-- Below the overflow bound the magnitude is rounded to nearest even, whatever the sign. A value of the other sign is never nearer
than zero is. -/
theorem nearestEven_pack (neg : Bool) {sub m e : Nat} (he : 252 + sub = e) (hm : m < (2 ^ 25 - 1) * 2 ^ e) :
    NearestEven sub (signed neg m) (pack neg (roundMag sub m)) := by
  subst he
  obtain ⟨hfin, hnear⟩ := (roundMag_spec sub m).1 hm
  have hlt : roundMag sub m < 2 ^ 31 := by omega
  refine ⟨isFinite_pack neg hfin, fun c _ => ?_⟩
  have hzero := hnear 0
  have hc := hnear (low c)
  rw [val_pack neg hlt, val_eq c, signed_mul_pow, signed_mul_pow, abs_signed_sub, abs_signed_sub, if_pos rfl]
  rw [show magOf 0 = 0 from rfl] at hzero
  push_cast at hzero ⊢
  by_cases hs : sign c = neg
  · rw [if_pos hs, hs]
    exact ⟨hc.1, fun he hne => pack_lsb_of_even neg hlt (hc.2 he fun h => hne (by rw [h]))⟩
  · have hdist : |(0 : Int) * 2 ^ sub - m| = m := by simp
    rw [hdist] at hzero
    rw [if_neg hs]
    have hg : (0 : Int) ≤ magOf (low c) * 2 ^ sub := by positivity
    refine ⟨by omega, fun he hne => pack_lsb_of_even neg hlt (hzero.2 (by omega) fun h => hne ?_)⟩
    have hc0 : magOf (low c) = 0 := by
      have : (magOf (low c) * 2 ^ sub : Int) = 0 := by omega
      simpa using this
    rw [hc0, ← h]
    simp [signed]

/-- From the overflow bound up the magnitude rounds to infinity. -/
theorem pack_roundMag_overflow (neg : Bool) {sub m e : Nat} (he : 252 + sub = e) (hm : (2 ^ 25 - 1) * 2 ^ e ≤ m) :
    pack neg (roundMag sub m) = inf neg := by
  subst he
  rw [(roundMag_spec sub m).2 hm, inf]

theorem sign_pack_roundMag (neg : Bool) (sub m : Nat) : sign (pack neg (roundMag sub m)) = neg :=
  sign_pack neg (lt_of_le_of_lt (roundMag_le sub m) (by decide))

/-! ### Sums -/

/-- Both addends of an exact zero sum decide its sign (R10). -/
theorem roundSum_zero (bothNeg : Bool) : roundSum bothNeg 0 = if bothNeg then 0x80000000#32 else 0 := by
  cases bothNeg <;> rfl

theorem roundSum_of_ne_zero (bothNeg : Bool) {n : Int} (hn : n ≠ 0) :
    roundSum bothNeg n = pack (n < 0) (roundMag 0 n.natAbs) := by
  rw [roundSum, if_neg hn]

/-- A nonzero sum below the overflow bound is rounded to nearest even, with its own sign. -/
theorem roundSum_nearest (bothNeg : Bool) {n : Int} (hn : n ≠ 0) (hb : n.natAbs < (2 ^ 25 - 1) * 2 ^ 252) :
    NearestEven 0 n (roundSum bothNeg n) ∧ sign (roundSum bothNeg n) = decide (n < 0) := by
  have h := nearestEven_pack (n < 0) (sub := 0) rfl hb
  rw [signed_natAbs] at h
  rw [roundSum_of_ne_zero bothNeg hn]
  exact ⟨h, sign_pack_roundMag _ _ _⟩

/-- A sum from the overflow bound up is the infinity of its sign. -/
theorem roundSum_overflow (bothNeg : Bool) {n : Int} (hb : (2 ^ 25 - 1) * 2 ^ 252 ≤ n.natAbs) :
    roundSum bothNeg n = if n < 0 then 0xFF800000#32 else 0x7F800000#32 := by
  have hn : n ≠ 0 := by rintro rfl; simp at hb
  rw [roundSum_of_ne_zero bothNeg hn, pack_roundMag_overflow _ (sub := 0) rfl hb, inf_eq]
  simp

/-- What R10 says of the sum `n` of finite values, `zero` being the pattern of an exact zero. -/
theorem roundSum_spec (bothNeg : Bool) (n : Int) :
    let r := roundSum bothNeg n
    (n = 0 → r = if bothNeg then 0x80000000#32 else 0) ∧
    (n ≠ 0 → n.natAbs < (2 ^ 25 - 1) * 2 ^ 252 → isFinite r = true ∧ sign r = decide (n < 0) ∧
      ∀ c : Word, isFinite c = true → |val r - n| ≤ |val c - n| ∧
        (|val r - n| = |val c - n| → val c ≠ val r → r.getLsbD 0 = false)) ∧
    ((2 ^ 25 - 1) * 2 ^ 252 ≤ n.natAbs → r = if n < 0 then 0xFF800000#32 else 0x7F800000#32) := by
  refine ⟨fun h => h ▸ roundSum_zero bothNeg, fun hn hb => ?_, roundSum_overflow bothNeg⟩
  obtain ⟨⟨hfin, hnear⟩, hsign⟩ := roundSum_nearest bothNeg hn hb
  simp only [pow_zero, mul_one] at hnear
  exact ⟨hfin, hsign, hnear⟩

theorem add_of_finite {a b : Word} (ha : isFinite a = true) (hb : isFinite b = true) :
    add a b = roundSum (sign a && sign b) (val a + val b) := by
  simp [add, isNaN_of_isFinite, isInf_of_isFinite, ha, hb]

theorem sub_of_finite {a b : Word} (ha : isFinite a = true) (hb : isFinite b = true) :
    sub a b = roundSum (sign a && !sign b) (val a - val b) := by
  rw [sub, add_of_finite ha (by rwa [isFinite_neg]), sign_neg, val_neg, sub_eq_add_neg]

theorem mul_of_finite {a b : Word} (ha : isFinite a = true) (hb : isFinite b = true) :
    mul a b = pack (sign a != sign b) (roundMag 149 (mag a * mag b)) := by
  simp [mul, isNaN_of_isFinite, isInf_of_isFinite, ha, hb]

/-- A negative pattern less a positive one of the same value is -0.0 less +0.0. -/
theorem neg_pos_of_val_eq {a b : Word} (h : val a - val b = 0) :
    (sign a && !sign b) = true ↔ a = 0x80000000#32 ∧ b = 0 := by
  constructor
  · intro hs
    obtain ⟨ha, hb⟩ : sign a = true ∧ sign b = false := by simpa using hs
    rw [val_eq, val_eq, ha, hb] at h
    simp only [signed, if_true, Bool.false_eq_true, if_false] at h
    have hla := (magOf_eq_zero_iff (low a)).1 (by omega)
    have hlb := (magOf_eq_zero_iff (low b)).1 (by omega)
    rw [← pack_sign_low a, ← pack_sign_low b, ha, hb, hla, hlb]
    exact ⟨rfl, rfl⟩
  · rintro ⟨rfl, rfl⟩
    rfl

/-- Settles O32: a sum of finite patterns is rounded once. -/
theorem addRoundsToNearestEven : Obligations.AddRoundsToNearestEven := by
  intro a b ha hb
  simpa only [add_of_finite ha hb, Bool.and_eq_true] using roundSum_spec (sign a && sign b) (val a + val b)

/-- Settles O33: a difference is a sum with the second sign flipped, and rounded once. -/
theorem subRoundsToNearestEven : Obligations.SubRoundsToNearestEven := by
  intro a b ha hb
  rw [sub_of_finite ha hb]
  obtain ⟨hzero, hrest⟩ := roundSum_spec (sign a && !sign b) (val a - val b)
  refine ⟨fun h => ?_, hrest⟩
  rw [hzero h]
  simp only [neg_pos_of_val_eq h]

/-! ### Products -/

/-- The exact product of two patterns, in units of 2^-298. -/
theorem val_mul_val (a b : Word) : val a * val b = signed (sign a != sign b) (mag a * mag b) := by
  rw [val_eq, val_eq, signed_mul, mag_eq, mag_eq]

/-- Settles O34: a product of finite patterns is rounded once, with the XOR of the signs. -/
theorem mulRoundsToNearestEven : Obligations.MulRoundsToNearestEven := by
  intro a b ha hb
  simp only [mul_of_finite ha hb, val_mul_val, natAbs_signed]
  exact ⟨sign_pack_roundMag _ _ _, nearestEven_pack _ (e := 401) rfl, fun hm => by
    rw [pack_roundMag_overflow _ (e := 401) rfl hm]
    exact isInf_inf _⟩

/-! ### NaNs and infinities (R10 (4)) -/

theorem add_of_isNaN {a b : Word} (h : isNaN a = true ∨ isNaN b = true) : add a b = qNaN := by
  rw [add, if_pos (by simpa using h)]

theorem mul_of_isNaN {a b : Word} (h : isNaN a = true ∨ isNaN b = true) : mul a b = qNaN := by
  simp only [mul, if_pos (show (isNaN a || isNaN b) = true by simpa using h)]

theorem add_isInf_isInf {a b : Word} (ha : isInf a = true) (hb : isInf b = true) :
    add a b = if sign a = sign b then a else qNaN := by
  by_cases h : sign a = sign b <;> simp [add, isNaN_of_isInf, ha, hb, h]

theorem add_isInf_isFinite {a b : Word} (ha : isInf a = true) (hb : isFinite b = true) : add a b = a := by
  simp [add, isNaN_of_isInf, isNaN_of_isFinite, isInf_of_isFinite, ha, hb]

theorem add_isFinite_isInf {a b : Word} (ha : isFinite a = true) (hb : isInf b = true) : add a b = b := by
  simp [add, isNaN_of_isInf, isNaN_of_isFinite, isInf_of_isFinite, ha, hb]

/-- The infinity of the XOR of two signs. -/
theorem inf_xor (s t : Bool) : inf (s != t) = if s = t then 0x7F800000#32 else 0xFF800000#32 := by
  cases s <;> cases t <;> rfl

/-- An infinity times what is no NaN: 0 * inf is invalid, and everything else is an infinity. -/
theorem mul_isInf_left {a b : Word} (ha : isInf a = true) (hb : isNaN b = false) :
    mul a b = if mag b = 0 then qNaN else if sign a = sign b then 0x7F800000#32 else 0xFF800000#32 := by
  simp [mul, isNaN_of_isInf, ha, hb, ← inf_xor]

theorem mul_isFinite_isInf {a b : Word} (ha : isFinite a = true) (hb : isInf b = true) :
    mul a b = if mag a = 0 then qNaN else if sign a = sign b then 0x7F800000#32 else 0xFF800000#32 := by
  simp [mul, isNaN_of_isInf, isNaN_of_isFinite, isInf_of_isFinite, ha, hb, ← inf_xor]

/-- Settles O35, class by class of the two operands; a difference is the sum with the second sign flipped. -/
theorem specialValues : Obligations.SpecialValues := by
  intro a b
  refine ⟨fun h => ?_, fun ha hb => ?_, fun ha hb => ?_, fun ha hb => ?_, fun ha hb => ?_⟩
  · exact ⟨add_of_isNaN h, add_of_isNaN (by simpa using h), mul_of_isNaN h⟩
  · refine ⟨add_isInf_isInf ha hb, ?_⟩
    rw [sub, add_isInf_isInf ha (by rwa [isInf_neg]), sign_neg]
    cases sign a <;> cases sign b <;> rfl
  · refine ⟨add_isInf_isFinite ha hb, add_isInf_isFinite ha (by rwa [isFinite_neg]), ?_⟩
    simp only [val_eq_zero_iff]
    exact mul_isInf_left ha (isNaN_of_isFinite hb)
  · refine ⟨add_isFinite_isInf ha hb, add_isFinite_isInf ha (by rwa [isInf_neg]), ?_⟩
    simp only [val_eq_zero_iff]
    exact mul_isFinite_isInf ha hb
  · rw [mul_isInf_left ha (isNaN_of_isInf hb), if_neg (mag_ne_zero_of_isInf hb)]

end Sys2Proof.F32
end

section
/-! R49's register invariants and the invariant of the whole machine: each part from the moves of the two agents, and what only
the commands themselves show, DMEM's form and the hidden state, from the sequencer's steps. -/

namespace Sys2Proof.Machine

/-! ### R49's register invariants -/

/-- R49 speaks of STATUS alone. -/
theorem State.RegInv.of_status_eq {s t : State} (hs : s.RegInv) (h : t.status = s.status) : t.RegInv :=
  ⟨h ▸ hs.noFault, h ▸ hs.busy, h ▸ hs.fault⟩

/-- The sequencer keeps R49: it records a cause with ERR (R206), and raises DONE only as BUSY falls (R129). -/
theorem SeqMove.keeps_regInv {s t : State} (h : SeqMove s t) (hs : s.RegInv) : t.RegInv := by
  cases h with
  | stay => exact hs
  | trap hb c o a => exact ⟨nofun, nofun, fun _ => c.ecode_range⟩
  | endRun => exact ⟨hs.noFault, nofun, hs.fault⟩
  | work => exact ⟨hs.noFault, hs.busy, hs.fault⟩
  | count => exact hs.of_status_eq rfl
  | advance => exact hs.of_status_eq rfl
  | command => exact ⟨hs.noFault, hs.busy, hs.fault⟩

/-- A STATUS write (R38), field by field. -/
theorem Status.writeW1C_eq (t : Status) (w : Word) :
    t.writeW1C w = {
      busy := t.busy
      done := t.done && !w.getLsbD 1
      err := t.err && !w.getLsbD 2
      nv := t.nv && !w.getLsbD 3
      ecode := if w.getLsbD 2 then 0 else t.ecode
      eopnd := if w.getLsbD 2 then 0 else t.eopnd } := by
  unfold writeW1C
  cases w.getLsbD 1 <;> cases w.getLsbD 2 <;> cases w.getLsbD 3 <;> simp

/-- A STATUS write clears ERR together with the cause (R38), so R49 is kept. -/
theorem writeStatus_keeps_regInv {s : State} (w : Word) (hs : s.RegInv) : (writeStatus s w).RegInv := by
  have hst : (writeStatus s w).status = s.status.writeW1C w := rfl
  rw [Status.writeW1C_eq] at hst
  cases hw : w.getLsbD 2
  · refine ⟨?_, fun hb => ?_, ?_⟩ <;> simp only [hst, hw, Bool.not_false, Bool.and_true] at *
    · exact hs.noFault
    · simp [hs.busy hb]
    · exact hs.fault
  · refine ⟨?_, fun hb => ?_, ?_⟩ <;> simp only [hst, hw] at *
    · simp
    · simp [hs.busy hb]
    · simp

/-- The host keeps R49: a START is accepted only with ERR = 0, and clears DONE (R120). -/
theorem HostMove.keeps_regInv {s t : State} {x : HostTxn} (h : HostMove s x t) (hs : s.RegInv) : t.RegInv := by
  cases h with
  | reset => exact ⟨fun _ => ⟨rfl, rfl⟩, nofun, nofun⟩
  | start w hw hb he => exact ⟨hs.noFault, fun _ => ⟨he, rfl⟩, hs.fault⟩
  | status w => exact (writeStatus_keeps_regInv w hs).of_status_eq rfl
  | _ => exact hs.of_status_eq rfl

/-- Settles O16: reset clears STATUS, and the moves of both agents keep R49. -/
theorem stepKeepsRegisterInvariants : Obligations.StepKeepsRegisterInvariants := by
  refine ⟨⟨fun _ => ⟨rfl, rfl⟩, nofun, nofun⟩, fun s t hs h => ?_⟩
  obtain ⟨x, rest, -, rfl⟩ | ⟨-, hmove⟩ := step_move h
  · exact (hostStep_move x _).keeps_regInv (hs.of_status_eq rfl)
  · exact hmove.keeps_regInv (hs.of_status_eq rfl)

/-! ### CMDPTR (R40) -/

/-- Clearing the low two bits of a word rounds it down to a multiple of 4. -/
theorem and_clear_low_two (w : Word) : w &&& 0xFFFFFFFC#32 = BitVec.ofNat 32 (w.toNat / 4 * 4) := by
  apply BitVec.eq_of_getLsbD_eq
  intro j hj
  have hmask : (0xFFFFFFFC#32).getLsbD j = decide (2 ≤ j) := by interval_cases j <;> rfl
  rw [BitVec.getLsbD_and, hmask, BitVec.getLsbD_ofNat, decide_eq_true hj, Bool.true_and]
  show _ = (w.toNat / 2 ^ 2 * 2 ^ 2).testBit j
  rw [Nat.testBit_mul_two_pow, Nat.testBit_div_two_pow, Bool.and_comm, BitVec.getLsbD]
  by_cases h2 : 2 ≤ j
  · rw [Nat.sub_add_cancel h2]
  · simp [h2]

/-- The sequencer moves CMDPTR by 32 (R127), so its low two bits stay clear. -/
theorem SeqMove.keeps_ptrAligned {s t : State} (h : SeqMove s t) (hs : s.cmdptr.toNat % 4 = 0) : t.cmdptr.toNat % 4 = 0 := by
  have hnext : (s.cmdptr + 32#32).toNat % 4 = 0 := by
    rw [BitVec.toNat_add, show (32#32).toNat = 32 from rfl]
    omega
  cases h with
  | advance => exact hnext
  | command => exact hnext
  | _ => exact hs

/-- The host stores CMDPTR with its low two bits cleared (R40), and reset sets it to 0. -/
theorem HostMove.keeps_ptrAligned {s t : State} {x : HostTxn} (h : HostMove s x t) (hs : s.cmdptr.toNat % 4 = 0) :
    t.cmdptr.toNat % 4 = 0 := by
  cases h with
  | reset => rfl
  | cmdptr w hb =>
    show (w &&& 0xFFFFFFFC#32).toNat % 4 = 0
    rw [and_clear_low_two, BitVec.toNat_ofNat]
    omega
  | _ => exact hs

/-! ### ERR and DONE (R210) -/

/-- A run that ends has neither ERR nor DONE (R49 (2)), so the sequencer never has both set. -/
theorem SeqMove.keeps_oneEnd {s t : State} (h : SeqMove s t) (hr : s.RegInv)
    (hs : ¬ (s.status.err = true ∧ s.status.done = true)) : ¬ (t.status.err = true ∧ t.status.done = true) := by
  cases h with
  | trap hb c o a => simp [hr.busy hb]
  | endRun hb => simp [hr.busy hb]
  | _ => exact hs

/-- No host transaction sets ERR or DONE. -/
theorem HostMove.keeps_oneEnd {s t : State} {x : HostTxn} (h : HostMove s x t)
    (hs : ¬ (s.status.err = true ∧ s.status.done = true)) : ¬ (t.status.err = true ∧ t.status.done = true) := by
  cases h with
  | reset => simp [resetEvent, State.reset]
  | start => simp
  | status w =>
    rw [State.withReply_status, writeStatus, Status.writeW1C_eq]
    simp only [Bool.and_eq_true]
    exact fun ⟨⟨he, _⟩, hd, _⟩ => hs ⟨he, hd⟩
  | _ => exact hs

/-! ### The hidden state (R48, R121) -/

/-- A run that ends leaves nothing latched (R48). -/
theorem SeqMove.keeps_idle {s t : State} (h : SeqMove s t) (hs : s.status.busy = false → s.seq = .idle) :
    t.status.busy = false → t.seq = .idle := by
  cases h with
  | stay => exact hs
  | work hb => exact fun h => absurd (hb.symm.trans h) nofun
  | count hb => exact fun h => absurd (hb.symm.trans h) nofun
  | _ => exact fun _ => rfl

/-- The host either leaves BUSY and the hidden state as they are, or leaves nothing latched. -/
theorem HostMove.keeps_idle {s t : State} {x : HostTxn} (h : HostMove s x t)
    (hs : s.status.busy = false → s.seq = .idle) : t.status.busy = false → t.seq = .idle := by
  cases h with
  | reset => exact fun _ => rfl
  | start => exact fun _ => rfl
  | _ => exact hs

/-- With nothing latched the hidden state is sound. -/
theorem State.seqOk_of_idle {s : State} (h : s.seq = .idle) : s.seqOk := by
  simp [State.seqOk, h, Sequencer.idle]

/-- The host writes CMDPTR only while nothing is latched, so the hidden state stays sound. -/
theorem HostMove.keeps_seqOk {s t : State} {x : HostTxn} (h : HostMove s x t)
    (hi : s.status.busy = false → s.seq = .idle) (hs : s.seqOk) : t.seqOk := by
  cases h with
  | reset => exact State.seqOk_of_idle rfl
  | start => exact State.seqOk_of_idle rfl
  | cmdptr w hb => exact State.seqOk_of_idle (hi hb)
  | _ => exact hs

/-! ### DMEM's form -/

/-- The host writes DMEM inside the window alone (R31). -/
theorem HostMove.keeps_memOk {s t : State} {x : HostTxn} (h : HostMove s x t) (hs : s.MemOk) : t.MemOk := by
  cases h with
  | dmem _ _ a n v h => exact ⟨Memory.wf_writeLE hs.1 _ _ _, Memory.within_writeLE hs.2 _ _ _ h⟩
  | _ => exact hs

/-! ### What the moves do not show: DMEM and the hidden state within a command -/

/-- DMEM is in form and inside its size, and the hidden state is sound. -/
abbrev State.DataOk (s : State) : Prop := s.MemOk ∧ s.seqOk

/-- A trap keeps DMEM and leaves nothing latched (R206). -/
theorem State.DataOk.trap {s : State} (hs : s.DataOk) (c : FaultCode) (o : BitVec 3) (a : Word) :
    (s.trap c o a).DataOk := ⟨hs.1, seqOk_of_idle rfl⟩

/-- END keeps DMEM and leaves nothing latched (R129). -/
theorem State.DataOk.endRun {s : State} (hs : s.DataOk) : s.endRun.DataOk := ⟨hs.1, seqOk_of_idle rfl⟩

/-- The bytes of the whole descriptor are found in DMEM before its first word is latched (R122). -/
theorem fetchStep_keeps_dataOk {s t : State} {j : Fin 8} (hp : s.seq.phase = .fetch j) (h : fetchStep s j = .next t)
    (hs : s.DataOk) : t.DataOk := by
  have hsq := hs.2
  simp only [State.seqOk, hp] at hsq
  unfold fetchStep at h
  split at h
  · cases h
    exact hs.trap _ _ _
  · rename_i hc
    have hr : inRange s.cfg.dmemSize s.cmdptr.toNat 32 = true := by
      by_cases hj : j = 0
      · simpa [hj] using hc
      · rwa [if_neg hj] at hsq
    obtain ⟨-, rfl⟩ := guarded_next h
    refine ⟨hs.1, ?_⟩
    by_cases h7 : j = 7
    · simp [State.seqOk, h7]
    · have hj : j + 1 ≠ 0 := by omega
      simpa [State.seqOk, h7, hj] using hr

/-- What the decoder accepts is well-formed (R98, R99). -/
theorem wellFormed_of_decode {d : Descriptor} {i : Instr} (h : decode d = .ok i) : i.wellFormed = true := by
  unfold decode at h
  split at h
  · cases h
  · split_ifs at h with _ hw
    cases h
    exact hw

/-- A well-formed command has at least one stage (R98). -/
theorem stages_pos_of_bodyOf {i : Instr} {b : Body} (h : bodyOf i = some b) (hw : i.wellFormed = true) : 0 < b.stages := by
  cases i <;> cases h
  case biquad d a c s nst len =>
    have hn : nst ≠ 0 := by simpa [Instr.wellFormed] using hw
    exact Nat.pos_of_ne_zero fun h => hn (BitVec.eq_of_toNat_eq h)
  all_goals exact Nat.one_pos

/-- Execute begins only with a descriptor that was decoded and validated (R121). -/
theorem decodeStep_keeps_dataOk {s t : State} (h : decodeStep s = .next t) (hs : s.DataOk) : t.DataOk := by
  unfold decodeStep at h
  split at h
  · cases h
    exact hs.trap _ _ _
  · rename_i i hd
    split at h
    · cases h
      exact hs.endRun
    · rename_i b hb
      split at h
      · cases h
        exact hs.trap _ _ _
      · rename_i hv
        cases h
        exact ⟨hs.1, i, b, hd, hb, hv, stages_pos_of_bodyOf hb (wellFormed_of_decode hd)⟩

/-- The stage index stays below the number of stages. -/
theorem Sequencer.nextUnit_i_lt {q : Sequencer} {n : Nat} (h : q.i < n) (y : Word) : (q.nextUnit n y).i < n := by
  unfold nextUnit
  split
  · assumption
  · exact Nat.zero_lt_of_lt h

/-- Going on to the next unit keeps the latched descriptor and the phase. -/
theorem Sequencer.nextUnit_desc_phase (q : Sequencer) (n : Nat) (y : Word) :
    (q.nextUnit n y).desc = q.desc ∧ (q.nextUnit n y).phase = q.phase := by
  unfold nextUnit
  split <;> exact ⟨rfl, rfl⟩

/-- The hidden state during Execute is sound as long as the descriptor, validated, and a stage of its command are latched. -/
theorem State.seqOk_of_execute {s : State} {c : Instr} {b : Body} (hp : s.seq.phase = .execute)
    (hd : decode s.seq.desc = .ok c) (hb : bodyOf c = some b) (hv : validate s.cfg.dmemSize b.operands = none)
    (hi : s.seq.i < b.stages) : s.seqOk := by
  simp only [State.seqOk, hp]
  exact ⟨c, b, hd, hb, hv, hi⟩

/-- An action of Execute writes inside DMEM, and keeps the latched descriptor and the stage index in bounds. -/
theorem executeStep_keeps_dataOk {s t : State} {c : Instr} {b : Body} (hp : s.seq.phase = .execute)
    (hd : decode s.seq.desc = .ok c) (hb : bodyOf c = some b) (hv : validate s.cfg.dmemSize b.operands = none)
    (hi : s.seq.i < b.stages) (h : executeStep b s = .next t) (hs : s.MemOk) : t.DataOk := by
  unfold executeStep at h
  split at h
  · split at h
    · cases h
      obtain ⟨hdesc, hphase⟩ := s.seq.nextUnit_desc_phase b.stages ‹Word›
      exact ⟨hs, State.seqOk_of_execute (hphase.trans hp) ((congrArg decode hdesc).trans hd) hb hv
        (Sequencer.nextUnit_i_lt hi _)⟩
    · obtain ⟨-, rfl⟩ := guarded_next h
      exact ⟨hs, State.seqOk_of_execute hp hd hb hv hi⟩
    · obtain ⟨hin, rfl⟩ := guarded_next h
      exact ⟨⟨Memory.wf_writeLE hs.1 _ _ _, Memory.within_writeLE hs.2 _ _ _ hin⟩,
        State.seqOk_of_execute hp hd hb hv hi⟩
    · cases h
      exact ⟨hs, State.seqOk_of_execute hp hd hb hv hi⟩
  · cases h
    exact ⟨hs, trivial⟩

/-- A single access keeps DMEM's form and a sound hidden state. -/
theorem accessStep_keeps_dataOk {s t : State} (h : accessStep s = .next t) (hs : s.DataOk) : t.DataOk := by
  unfold accessStep at h
  split at h
  · split at h
    · exact fetchStep_keeps_dataOk ‹_› h hs
    · exact decodeStep_keeps_dataOk h hs
    · rename_i hp
      have hsq := hs.2
      simp only [State.seqOk, hp] at hsq
      obtain ⟨i, b, hd, hb, hv, hi⟩ := hsq
      simp only [hd, hb] at h
      exact executeStep_keeps_dataOk hp hd hb hv hi h hs.1
    · cases h
      exact ⟨hs.1, State.seqOk_of_idle rfl⟩
  · cases h
    exact hs

/-- A whole command keeps DMEM's form, its Execute being validated (R124), and leaves nothing latched. -/
theorem commandCycle_keeps_dataOk {s t : State} (h : commandCycle s = .next t) (hs : s.DataOk) : t.DataOk := by
  unfold commandCycle at h
  split at h
  · split at h
    · rename_i i _
      obtain ⟨c, o, a, he⟩ | ⟨-, he⟩ | ⟨b, hb, -, hv, he⟩ := exec_cases i s <;> rw [he] at h <;> cases h
      · exact hs.trap _ _ _
      · exact hs.endRun
      · exact ⟨bodyOf_execute_memOk hb hv hs.1, State.seqOk_of_idle rfl⟩
    · cases h
      exact hs.trap _ _ _
  · cases h
    exact hs.trap _ _ _

/-- The sequencer moving alone keeps DMEM's form and a sound hidden state. -/
theorem sequencerStep_keeps_dataOk {s t : State} (h : sequencerStep s = .next t) (hs : s.DataOk) : t.DataOk := by
  unfold sequencerStep at h
  split at h
  · split at h
    · exact commandCycle_keeps_dataOk h hs
    · exact accessStep_keeps_dataOk h hs
  · cases h
    exact hs

/-! ### The invariant of the machine -/

/-- The invariant does not speak of the pending turns. -/
theorem State.Inv.withTurns {s : State} (hs : s.Inv) (ts : List Turn) : (s.withTurns ts).Inv :=
  ⟨hs.cfg, hs.memWf, hs.memWithin, hs.ptrAligned, hs.regs.of_status_eq rfl, hs.oneEnd, hs.idle, hs.seqOk⟩

theorem State.Inv.dataOk {s : State} (hs : s.Inv) : s.DataOk := ⟨⟨hs.memWf, hs.memWithin⟩, hs.seqOk⟩

/-- A move of the sequencer keeps the invariant if the step behind it keeps DMEM's form and a sound hidden state. -/
theorem SeqMove.keeps_inv {s t : State} (h : SeqMove s t) (hs : s.Inv) (hd : t.DataOk) : t.Inv where
  cfg := h.keeps_cfg_turns.1 ▸ hs.cfg
  memWf := hd.1.1
  memWithin := hd.1.2
  ptrAligned := h.keeps_ptrAligned hs.ptrAligned
  regs := h.keeps_regInv hs.regs
  oneEnd := h.keeps_oneEnd hs.regs hs.oneEnd
  idle := h.keeps_idle hs.idle
  seqOk := hd.2

/-- A host transaction keeps the invariant. -/
theorem HostMove.keeps_inv {s t : State} {x : HostTxn} (h : HostMove s x t) (hs : s.Inv) : t.Inv where
  cfg := h.keeps_cfg_turns.1 ▸ hs.cfg
  memWf := (h.keeps_memOk hs.dataOk.1).1
  memWithin := (h.keeps_memOk hs.dataOk.1).2
  ptrAligned := h.keeps_ptrAligned hs.ptrAligned
  regs := h.keeps_regInv hs.regs
  oneEnd := h.keeps_oneEnd hs.oneEnd
  idle := h.keeps_idle hs.idle
  seqOk := h.keeps_seqOk hs.idle hs.seqOk

/-- Settles O58: the host's move, a single access, or the sequencer alone. -/
theorem stepKeepsInvariant : Obligations.StepKeepsInvariant := by
  intro s t hs h
  unfold step at h
  split at h
  · cases h
    exact (hostStep_move _ _).keeps_inv (hs.withTurns _)
  · have hs := hs.withTurns ‹List Turn›
    exact (accessStep_move h).keeps_inv hs (accessStep_keeps_dataOk h hs.dataOk)
  · exact (sequencerStep_move h).keeps_inv hs (sequencerStep_keeps_dataOk h hs.dataOk)

end Sys2Proof.Machine
end

section
/-! What a command's effect depends on: its operands, DMEM and DMEM_SIZE (spec/10_state.md R45, R46), and nothing of CTRL (R36). -/

namespace Sys2Proof.Machine

/-- A command whose fields are not accepted traps under BAD_PARAM, at CMDPTR (R98, log entry 12). -/
theorem exec_of_not_wellFormed {i : Instr} (h : i.wellFormed = false) (s : State) :
    exec i s = .next (s.trap .badParam 0 s.cmdptr) := by
  cases i with
  | bqinit v nst => exact if_pos (by simpa [Instr.wellFormed] using h)
  | biquad d a c v nst len => exact if_pos (by simpa [Instr.wellFormed] using h)
  | sshr d a sh bw => exact if_pos (by simpa [Instr.wellFormed] using h)
  | _ => cases h

/-- Two states with the same DMEM_SIZE take the same course: both trap under the same cause, at the same operand or each at its
own CMDPTR, or both end the run, or both complete the same command. -/
theorem exec_same_course (i : Instr) {s s' : State} (h : s.cfg.dmemSize = s'.cfg.dmemSize) :
    (exec i s = .next (s.trap .badParam 0 s.cmdptr) ∧ exec i s' = .next (s'.trap .badParam 0 s'.cmdptr)) ∨
    (∃ c o a, exec i s = .next (s.trap c o a) ∧ exec i s' = .next (s'.trap c o a)) ∨
    (exec i s = .next s.endRun ∧ exec i s' = .next s'.endRun) ∨
    ∃ b : Body, exec i s = .next (b.execute s).complete ∧ exec i s' = .next (b.execute s').complete := by
  by_cases he : i = .endList
  · subst he
    exact .inr (.inr (.inl ⟨rfl, rfl⟩))
  · obtain ⟨b, hb⟩ := bodyOf_of_ne_end he
    cases hw : i.wellFormed with
    | false => exact .inl ⟨exec_of_not_wellFormed hw s, exec_of_not_wellFormed hw s'⟩
    | true =>
      rw [exec_eq_runCommand hb hw, exec_eq_runCommand hb hw]
      cases hv : validate s.cfg.dmemSize b.operands with
      | some r => exact .inr (.inl ⟨_, _, _, runCommand_of_raise hv, runCommand_of_raise (h ▸ hv)⟩)
      | none => exact .inr (.inr (.inr ⟨b, runCommand_of_ok hv, runCommand_of_ok (h ▸ hv)⟩))

/-- Execute reads DMEM and nothing else of the state. -/
theorem Body.execute_mem_eq (b : Body) {s s' : State} (h : s.mem = s'.mem) : (b.execute s).mem = (b.execute s').mem :=
  b.execute_relates (fun s s' => s.mem = s'.mem) (fun p s s' h => p.run_of_mem_eq s s' h) s s' h

/-- Settles O39: traps and END leave DMEM as it is, and Execute is a function of it. -/
theorem commandReadsNoRegister : Obligations.CommandReadsNoRegister := by
  intro i s s' hsize hmem
  obtain ⟨h, h'⟩ | ⟨c, o, a, h, h'⟩ | ⟨h, h'⟩ | ⟨b, h, h'⟩ := exec_same_course i hsize
  · exact ⟨_, _, h, h', hmem⟩
  · exact ⟨_, _, h, h', hmem⟩
  · exact ⟨_, _, h, h', hmem⟩
  · exact ⟨_, _, h, h', b.execute_mem_eq hmem⟩

/-! ### PREFILT (R36) -/

/-- CTRL.PREFILT replaced. -/
def State.withPrefilt (s : State) (p : Bool) : State := { s with ctrl := { s.ctrl with prefilt := p } }

/-- Actions neither read nor write PREFILT. -/
theorem Prog.run_withPrefilt (q : Prog) (s : State) (p : Bool) :
    q.run (s.withPrefilt p) = ((q.run s).1, (q.run s).2.withPrefilt p) := by
  induction q generalizing s with
  | ret x => rfl
  | read a k ih => exact ih (s.mem.read32 a) s
  | write a n v k ih => exact ih (s.withMem (s.mem.writeLE a n v))
  | setNV k ih => exact ih s.withNV

/-- Execute neither reads nor writes PREFILT. -/
theorem Body.execute_withPrefilt (b : Body) (s : State) (p : Bool) :
    b.execute (s.withPrefilt p) = (b.execute s).withPrefilt p := by
  refine b.execute_relates (fun s s' => s' = s.withPrefilt p) ?_ s _ rfl
  rintro q s - rfl
  rw [q.run_withPrefilt]
  exact ⟨rfl, rfl⟩

/-- Settles O40: traps, END and completion do not touch CTRL, and Execute does not read it. -/
theorem prefiltAffectsNoCommand : Obligations.PrefiltAffectsNoCommand := by
  intro i s t p ht
  change exec i (s.withPrefilt p) = .next (t.withPrefilt p)
  obtain ⟨h, h'⟩ | ⟨c, o, a, h, h'⟩ | ⟨h, h'⟩ | ⟨b, h, h'⟩ := exec_same_course i (s := s) (s' := s.withPrefilt p) rfl <;>
    rw [ht] at h <;> cases h
  · exact h'
  · exact h'
  · exact h'
  · rw [h', b.execute_withPrefilt]
    rfl

end Sys2Proof.Machine
end

section
/-! The host's transactions (spec/10_state.md R30 to R44): what an access reaches, what a register and the window answer, and what
a transaction leaves as it is. -/

namespace Sys2Proof.Machine

/-- A pending host transaction is the step. -/
theorem step_of_host {s : State} {x : HostTxn} {rest : List Turn} (h : s.turns = .host x :: rest) :
    step s = .next (hostStep x (s.withTurns rest)) := by
  rw [step, h]

/-! ### What an access reaches (R30, R31) -/

/-- An aligned 32-bit access below 0x100 reaches the register there. -/
theorem target_of_register (c : Config) {off : Nat} (hoff : off < 0x100) (h4 : off % 4 = 0) :
    target c (c.apertureBase + off) 4 = .register off := by
  simp only [target, Nat.add_sub_cancel_left]
  rw [if_neg (by omega), if_pos hoff, if_pos ⟨trivial, h4⟩]

/-- A naturally aligned access of 1, 2 or 4 bytes through the window reaches DMEM. -/
theorem target_of_dmem {c : Config} (hc : c.wf) {a n : Nat} (hn : n = 1 ∨ n = 2 ∨ n = 4) (ha : a % n = 0)
    (hin : a + n ≤ c.dmemSize) : target c (c.apertureBase + c.dmemWindow + a) n = .dmem a := by
  obtain ⟨-, -, -, -, hwin⟩ := hc
  simp only [target, Nat.add_assoc, Nat.add_sub_cancel_left]
  rw [if_neg (by omega), if_neg (by omega), if_pos (by omega), if_pos ⟨hn, ha⟩]

/-- An access of a register that is not an aligned 32-bit one, a misaligned one of the window, and one outside both reach nothing. -/
theorem target_of_bad {c : Config} (hc : c.wf) {off n : Nat}
    (h : (off < 0x100 ∧ (n ≠ 4 ∨ off % 4 ≠ 0)) ∨
      (c.dmemWindow ≤ off ∧ off < c.dmemWindow + c.dmemSize ∧ (off - c.dmemWindow) % n ≠ 0) ∨
      (0x100 ≤ off ∧ (off < c.dmemWindow ∨ c.dmemWindow + c.dmemSize ≤ off))) :
    target c (c.apertureBase + off) n = .busError := by
  obtain ⟨-, -, -, -, hwin⟩ := hc
  simp only [target, Nat.add_sub_cancel_left]
  rw [if_neg (by omega)]
  split
  · rw [if_neg (by omega)]
  · split
    · rw [if_neg (by omega)]
    · rfl

/-! ### The two directions of a register access -/

/-- A register read answers the register and changes nothing else (R75). -/
theorem step_readReg {s : State} {off : Nat} {rest : List Turn} (hoff : off < 0x100) (h4 : off % 4 = 0)
    (h : s.turns = .host (.read (s.cfg.apertureBase + off) 4) :: rest) :
    step s = .next { s with turns := rest, reply := some (.data (readReg s off)) } := by
  rw [step_of_host h, hostStep, hostRead, State.withTurns_cfg, target_of_register _ hoff h4]
  rfl

/-- A register write is what the register makes of it, acknowledged. -/
theorem step_writeReg {s : State} {off : Nat} {w : Word} {rest : List Turn} (hoff : off < 0x100) (h4 : off % 4 = 0)
    (h : s.turns = .host (.write (s.cfg.apertureBase + off) 4 w) :: rest) :
    step s = .next ((writeReg (s.withTurns rest) off w).withReply (some .ack)) := by
  rw [step_of_host h, hostStep, hostWrite, State.withTurns_cfg, target_of_register _ hoff h4]

/-! ### The words of CTRL and STATUS (R35, R37) -/

/-- Two vectors one after the other, as numbers. -/
theorem toNat_append_eq {m n : Nat} (x : BitVec m) (y : BitVec n) : (x ++ y).toNat = x.toNat * 2 ^ n + y.toNat := by
  rw [BitVec.toNat_append, ← Nat.shiftLeft_add_eq_or_of_lt y.isLt, Nat.shiftLeft_eq]

theorem toNat_bit (b : Bool) : (bit b).toNat = b.toNat := by cases b <;> rfl

/-- CTRL's fields at their places (R35). -/
theorem Ctrl.word_eq (c : Ctrl) : c.word = BitVec.ofNat 32 (2 * c.prefilt.toNat + 4 * c.irqen.toNat) := by
  apply BitVec.eq_of_toNat_eq
  have h1 := c.prefilt.toNat_le
  have h2 := c.irqen.toNat_le
  simp only [Ctrl.word, toNat_append_eq, toNat_bit, BitVec.toNat_ofNat]
  omega

/-- STATUS's fields at their places (R37). -/
theorem Status.word_eq (t : Status) :
    t.word = BitVec.ofNat 32 (t.busy.toNat + 2 * t.done.toNat + 4 * t.err.toNat + 8 * t.nv.toNat +
      2 ^ 8 * t.ecode.toNat + 2 ^ 16 * t.eopnd.toNat) := by
  apply BitVec.eq_of_toNat_eq
  have hbusy := t.busy.toNat_le
  have hdone := t.done.toNat_le
  have herr := t.err.toNat_le
  have hnv := t.nv.toNat_le
  have hecode := t.ecode.isLt
  have heopnd := t.eopnd.isLt
  simp only [Status.word, toNat_append_eq, toNat_bit, BitVec.toNat_ofNat]
  omega

/-! ### Registers -/

/-- Settles O42: the register's value by R34's map, CTRL and STATUS by their fields. -/
theorem hostReadsRegister : Obligations.HostReadsRegister := by
  intro s off rest hoff h4 h
  rw [step_readReg hoff h4 h, readReg, Ctrl.word_eq, Status.word_eq]
  rfl

/-- Settles O43: the fields a STATUS write leaves (R38). -/
theorem hostWritesStatus : Obligations.HostWritesStatus := by
  intro s w rest h
  rw [step_writeReg (by decide) (by decide) h, writeReg, if_neg (by decide), if_pos rfl, writeStatus, Status.writeW1C_eq]
  rfl

/-- Settles O45: clearing bits 1:0 rounds down to a multiple of 4. -/
theorem hostWritesCmdptr : Obligations.HostWritesCmdptr := by
  intro s w rest h
  rw [step_writeReg (by decide) (by decide) h, writeReg, if_neg (by decide), if_neg (by decide), if_pos rfl, writeCmdptr,
    and_clear_low_two]
  cases hb : s.status.busy <;> simp [State.withTurns, State.withReply, hb]

/-- A write at an offset other than CTRL's, STATUS's and CMDPTR's is ignored (R34, R44). -/
theorem writeReg_ignored (s : State) {off : Nat} (w : Word) (h : off ≠ 0x04 ∧ off ≠ 0x08 ∧ off ≠ 0x0C) :
    writeReg s off w = s := by
  rw [writeReg, if_neg h.1, if_neg h.2.1, if_neg h.2.2]

/-- A reserved offset reads 0 (R44). -/
theorem readReg_reserved (s : State) {off : Nat} (h : 0x1C ≤ off) : readReg s off = 0 := by
  rw [readReg]
  iterate 7 rw [if_neg (by omega)]

/-- Settles O46: reserved offsets read 0, and no offset of the four kinds is one a write reaches. -/
theorem reservedAndReadOnlyOffsets : Obligations.ReservedAndReadOnlyOffsets := by
  intro s off w rest h4
  refine ⟨fun hlo hhi h => ?_, fun hoff h => ?_⟩
  · rw [step_readReg (by omega) h4 h, readReg_reserved s hlo]
  · rw [step_writeReg (by omega) h4 h, writeReg_ignored _ w (by omega)]
    rfl

/-! ### The window (R31, R71) -/

/-- Byte `j` of a word, as a number. -/
theorem extractLsb'_eq_byte (v : Word) (j : Nat) : v.extractLsb' (8 * j) 8 = BitVec.ofNat 8 (v.toNat / 256 ^ j) := by
  apply BitVec.eq_of_toNat_eq
  rw [BitVec.extractLsb'_toNat, BitVec.toNat_ofNat, Nat.shiftRight_eq_div_pow, pow_mul]
  rfl

/-- Byte `j` of `n` bytes read is the byte at `a + j`, and 0 above them (R71). -/
theorem Memory.byte_readLE (m : Memory) (a n j : Nat) :
    BitVec.ofNat 8 (m.readLE a n / 256 ^ j) = if j < n then m.readByte (a + j) else 0 := by
  induction n generalizing a j with
  | zero => simp
  | succ n ih =>
    have hb := (m.readByte a).isLt
    rw [readLE_succ]
    cases j with
    | zero =>
      apply BitVec.eq_of_toNat_eq
      simpa using hb
    | succ j =>
      rw [pow_succ', ← Nat.div_div_eq_div_mul, show ((m.readByte a).toNat + 256 * m.readLE (a + 1) n) / 256 =
        m.readLE (a + 1) n by omega, ih, show a + 1 + j = a + (j + 1) by omega]
      simp only [Nat.add_lt_add_iff_right]

/-- Settles O48: the write reaches DMEM whatever BUSY is, and changes the bytes it names. -/
theorem hostWritesDmem : Obligations.HostWritesDmem := by
  intro s a n v rest hc hn ha hin h
  refine ⟨s.mem.writeLE a n v.toNat, ?_, fun j hj => ?_, fun y hy => ?_⟩
  · rw [step_of_host h, hostStep, hostWrite, State.withTurns_cfg, target_of_dmem hc hn ha hin]
    rfl
  · rw [Memory.readByte_writeLE _ _ _ _ _ hj, extractLsb'_eq_byte]
  · exact Memory.readByte_writeLE_of_outside _ _ _ _ _ hy

/-- Settles O60: the read reaches DMEM whatever BUSY is, and a value of at most 4 bytes is kept whole. -/
theorem hostReadsDmem : Obligations.HostReadsDmem := by
  intro s a n rest hc hn ha hin h
  refine ⟨BitVec.ofNat 32 (s.mem.readLE a n), ?_, fun j _ => ?_⟩
  · rw [step_of_host h, hostStep, hostRead, State.withTurns_cfg, target_of_dmem hc hn ha hin]
    rfl
  · have hlt : s.mem.readLE a n < 2 ^ 32 :=
      (s.mem.readLE_lt a n).trans_le (Nat.pow_le_pow_right (j := 4) (by decide) (by omega))
    rw [extractLsb'_eq_byte, BitVec.toNat_ofNat, Nat.mod_eq_of_lt hlt, Memory.byte_readLE]

/-- Settles O49: a bad access reaches nothing, and only the response is recorded (R205). -/
theorem busErrorsChangeNothing : Obligations.BusErrorsChangeNothing := by
  intro s off n v rest hc hbad h
  have ht := target_of_bad hc hbad
  obtain h | h := h
  · rw [step_of_host h, hostStep, hostRead, State.withTurns_cfg, ht]
    rfl
  · rw [step_of_host h, hostStep, hostWrite, State.withTurns_cfg, ht]
    rfl

/-! ### FAULTADDR, and a run under way -/

/-- The sequencer changes FAULTADDR only as it records a fault (R41, R206). -/
theorem SeqMove.faultaddr_eq_or_trap {s t : State} (h : SeqMove s t) :
    t.faultaddr = s.faultaddr ∨ (s.status.busy = true ∧ ∃ c o a, t = s.trap c o a) := by
  cases h with
  | trap hb c o a => exact .inr ⟨hb, c, o, a, rfl⟩
  | _ => exact .inl rfl

/-- No host transaction but a reset event changes FAULTADDR (R41). -/
theorem HostMove.faultaddr_eq {s t : State} {x : HostTxn} (h : HostMove s x t) (hx : x ≠ .reset) :
    t.faultaddr = s.faultaddr := by
  cases h with
  | reset => exact absurd rfl hx
  | _ => rfl

/-- Settles O53: of the moves of both agents only a trap and a reset event change FAULTADDR. -/
theorem faultAddressChangesOnlyAtFault : Obligations.FaultAddressChangesOnlyAtFault := by
  refine ⟨rfl, fun s t h => ?_⟩
  obtain ⟨x, rest, hx, rfl⟩ | ⟨-, hmove⟩ := step_move h
  · by_cases hr : x = .reset
    · subst hr
      exact .inr (.inr ⟨rest, hx⟩)
    · exact .inl ((hostStep_move x _).faultaddr_eq hr)
  · obtain heq | ⟨hb, c, o, a, rfl⟩ := hmove.faultaddr_eq_or_trap
    · exact .inl heq
    · exact .inr (.inl ⟨hb, rfl, rfl, c.ecode, o, rfl⟩)

/-- During a run the host moves neither CMDPTR, CMDCOUNT, BUSY nor the hidden state, but by a reset event (R40, R120, R243). -/
theorem HostMove.keeps_live_run {s t : State} {x : HostTxn} (h : HostMove s x t) (hx : x ≠ .reset)
    (hb : s.status.busy = true) :
    t.cmdptr = s.cmdptr ∧ t.cmdcount = s.cmdcount ∧ t.seq = s.seq ∧ t.status.busy = true := by
  cases h with
  | reset => exact absurd rfl hx
  | start w hw hidle => exact absurd (hb.symm.trans hidle) nofun
  | cmdptr w hidle => exact absurd (hb.symm.trans hidle) nofun
  | _ => exact ⟨rfl, rfl, rfl, hb⟩

/-- Settles O55: a CMDPTR write and a START find BUSY = 1, and the other transactions touch none of these. -/
theorem hostCannotMoveALiveRun : Obligations.HostCannotMoveALiveRun := by
  intro s t x rest hb hx hturns h
  rw [step_of_host hturns] at h
  cases h
  have hmove := hostStep_move x (s.withTurns rest)
  obtain ⟨hptr, hcount, hseq, hbusy⟩ := hmove.keeps_live_run hx hb
  exact ⟨hptr, hcount, hseq, hbusy, hmove.faultaddr_eq hx⟩

end Sys2Proof.Machine
end

section
/-! The byte order of DMEM as the host sees it (spec/20_memory.md R71), and the latched descriptor (R85, R122). -/

namespace Sys2Proof.Machine

/-! ### Mixed widths (R71) -/

/-- Words with the same four bytes are the same. -/
theorem word_eq_of_bytes {x y : Word} (h : ∀ j < 4, x.extractLsb' (8 * j) 8 = y.extractLsb' (8 * j) 8) : x = y := by
  apply BitVec.eq_of_getLsbD_eq
  intro i hi
  have hbit := congrArg (·.getLsbD (i % 8)) (h (i / 8) (by omega))
  simpa [BitVec.getLsbD_extractLsb', Nat.mod_lt, Nat.div_add_mod] using hbit

/-- The bytes of a value's part of `n` bytes from byte `d`, zero-extended: the value's own, and 0 above them. -/
theorem byte_of_part (v : Word) (d : Nat) {n j : Nat} (hj : j < 4) :
    ((v.extractLsb' (8 * d) (8 * n)).setWidth 32).extractLsb' (8 * j) 8 =
      if j < n then v.extractLsb' (8 * (d + j)) 8 else 0 := by
  apply BitVec.eq_of_getLsbD_eq
  intro i hi
  split
  · have hin : 8 * j + i < 8 * n := by omega
    simp [hi, hin, show 8 * j + i < 32 by omega, show 8 * d + (8 * j + i) = 8 * (d + j) + i by omega]
  · have hout : ¬ 8 * j + i < 8 * n := by omega
    simp [hout]

/-- A run goes on from the state its first step answers. -/
theorem core_run_succ {s t : State} (h : step s = .next t) (n : Nat) :
    Sys2Proof.core.run (n + 1) s = Sys2Proof.core.run n t := by
  have hcore : Sys2Proof.core.step s = .next t := h
  simp only [Host.Core.run, hcore]

/-- After a word of DMEM is written, an aligned read inside it answers that part of the value, the least significant byte first. -/
theorem run_write_word_read_part {s : State} {a d n : Nat} {v : Word} {rest : List Turn} (hc : s.cfg.wf) (ha : a % 4 = 0)
    (hin : a + 4 ≤ s.cfg.dmemSize) (hn : n = 1 ∨ n = 2 ∨ n = 4) (hd : d % n = 0) (hdn : d + n ≤ 4)
    (h : s.turns = .host (.write (s.cfg.apertureBase + s.cfg.dmemWindow + a) 4 v) ::
      .host (.read (s.cfg.apertureBase + s.cfg.dmemWindow + a + d) n) :: rest) :
    ∃ t, Sys2Proof.core.run 2 s = .next t ∧
      t.reply = some (.data ((v.extractLsb' (8 * d) (8 * n)).setWidth 32)) := by
  rw [Nat.add_assoc _ a d] at h
  have hda : (a + d) % n = 0 := by
    obtain rfl | rfl | rfl := hn <;> omega
  have hdin : a + d + n ≤ s.cfg.dmemSize := by omega
  obtain ⟨m, hwrite, hbytes, -⟩ := hostWritesDmem s a 4 v _ hc (by decide) ha hin h
  obtain ⟨r, hread, hr⟩ := hostReadsDmem
    { s with
      turns := .host (.read (s.cfg.apertureBase + s.cfg.dmemWindow + (a + d)) n) :: rest
      reply := some .ack
      mem := m } (a + d) n rest hc hn hda hdin rfl
  have hpart : r = (v.extractLsb' (8 * d) (8 * n)).setWidth 32 := by
    refine word_eq_of_bytes fun j hj => ?_
    rw [hr j hj, byte_of_part v d hj]
    split
    · rw [← hbytes (d + j) (by omega)]
      exact congrArg m.readByte (Nat.add_assoc a d j)
    · rfl
  exact ⟨_, (core_run_succ hwrite 1).trans (core_run_succ hread 0), hpart ▸ rfl⟩

/-- Settles O47: each read answers the part of the value at its offset in the word. -/
theorem mixedWidthReads : Obligations.MixedWidthReads := by
  intro s a j v hc ha hin hj
  have hpart := fun (d n : Nat) hn hd hdn => run_write_word_read_part (s := s.withTurns
    [.host (.write (s.cfg.apertureBase + s.cfg.dmemWindow + a) 4 v),
      .host (.read (s.cfg.apertureBase + s.cfg.dmemWindow + a + d) n)]) (d := d) (n := n) hc ha hin hn hd hdn rfl
  refine ⟨hpart 0 2 (by decide) (by decide) (by decide), hpart 2 2 (by decide) (by decide) (by decide),
    hpart j 1 (by decide) (Nat.mod_one j) (by omega), ?_⟩
  obtain ⟨t, hrun, hreply⟩ := hpart 0 4 (by decide) (by decide) (by decide)
  exact ⟨t, hrun, by simpa using hreply⟩

/-! ### The latched descriptor (R85, R122) -/

/-- A host transaction leaves the hidden state as it is, or drops it (R48). -/
theorem HostMove.keeps_or_drops_seq {s t : State} {x : HostTxn} (h : HostMove s x t) : t.seq = s.seq ∨ t.seq = .idle := by
  cases h with
  | reset => exact .inr rfl
  | start => exact .inr rfl
  | _ => exact .inl rfl

/-- Decoding and validation keep the latched descriptor, or the run ends (R123, R124, R129). -/
theorem decodeStep_keeps_or_drops_desc {s t : State} (h : decodeStep s = .next t) :
    t.seq.desc = s.seq.desc ∨ t.seq = .idle := by
  unfold decodeStep at h
  split at h
  · cases h
    exact .inr rfl
  · split at h
    · cases h
      exact .inr rfl
    · split at h <;> cases h
      · exact .inr rfl
      · exact .inl rfl

/-- Every action of Execute, its DMEM writes included, keeps the latched descriptor (R85). -/
theorem executeStep_keeps_desc {b : Body} {s t : State} (h : executeStep b s = .next t) : t.seq.desc = s.seq.desc := by
  unfold executeStep at h
  split at h
  · split at h
    · cases h
      exact (s.seq.nextUnit_desc_phase b.stages _).1
    · obtain ⟨-, rfl⟩ := guarded_next h
      rfl
    · obtain ⟨-, rfl⟩ := guarded_next h
      rfl
    · cases h
      rfl
  · cases h
    rfl

/-- Past the fetch, a single access or internal step keeps the latched descriptor, or drops it with the command (R48). -/
theorem accessStep_keeps_or_drops_desc {s t : State} (hs : ∀ j, s.seq.phase ≠ .fetch j) (h : accessStep s = .next t) :
    t.seq.desc = s.seq.desc ∨ t.seq = .idle := by
  unfold accessStep at h
  split at h
  · split at h
    · exact absurd ‹_› (hs _)
    · exact decodeStep_keeps_or_drops_desc h
    · split at h
      · cases h
        exact .inr rfl
      · split at h
        · cases h
          exact .inr rfl
        · exact .inl (executeStep_keeps_desc h)
    · cases h
      exact .inr rfl
  · cases h
    exact .inl rfl

/-- Past the fetch, the sequencer moving alone moves access by access (R121). -/
theorem sequencerStep_of_latched {s : State} (hs : ∀ j, s.seq.phase ≠ .fetch j) : sequencerStep s = accessStep s := by
  unfold sequencerStep
  split
  · rw [if_neg (hs 0)]
  · rename_i hb
    rw [accessStep, if_neg hb]

/-- Past the fetch, a step of either agent keeps the latched descriptor, or drops it with the command. -/
theorem step_keeps_or_drops_desc {s t : State} (hs : ∀ j, s.seq.phase ≠ .fetch j) (h : step s = .next t) :
    t.seq.desc = s.seq.desc ∨ t.seq = .idle := by
  unfold step at h
  split at h
  · cases h
    exact (hostStep_move _ _).keeps_or_drops_seq.imp_left (congrArg Sequencer.desc)
  · exact accessStep_keeps_or_drops_desc (s := s.withTurns ‹List Turn›) hs h
  · rw [sequencerStep_of_latched hs] at h
    exact accessStep_keeps_or_drops_desc hs h

/-- Settles O41: a dropped descriptor leaves the sequencer about to fetch. -/
theorem latchedDescriptorStays : Obligations.LatchedDescriptorStays := by
  intro s t hs h ht
  obtain hdesc | hidle := step_keeps_or_drops_desc hs h
  · exact hdesc
  · exact absurd (congrArg Sequencer.phase hidle) (ht 0)

end Sys2Proof.Machine
end

section
/-! The encoding (spec/30_encoding.md): the decoder's answers, the fields of a control word, and that decoding and encoding agree. -/

namespace Sys2Proof

/-! ### The opcode map (R94, R97) -/

@[simp] theorem Opcode.ofByte_byte (op : Opcode) : Opcode.ofByte op.byte = some op := by
  cases op <;> rfl

/-- A byte is an opcode of R94, or above 0x09 and illegal (R97). -/
theorem Opcode.ofByte_cases (b : Byte) :
    (0x09 < b.toNat ∧ Opcode.ofByte b = none) ∨ ∃ op : Opcode, b = op.byte := by
  rcases Nat.lt_or_ge 0x09 b.toNat with h | h
  · refine .inl ⟨h, ?_⟩
    unfold Opcode.ofByte
    split
    case h_11 => rfl
    all_goals omega
  · right
    obtain ⟨op, hop⟩ : ∃ op : Opcode, op.byte.toNat = b.toNat := by
      generalize b.toNat = n at h
      interval_cases n
      exacts [⟨.endList, rfl⟩, ⟨.conv16, rfl⟩, ⟨.fill, rfl⟩, ⟨.sub, rfl⟩, ⟨.scale, rfl⟩, ⟨.offset, rfl⟩, ⟨.mul, rfl⟩,
        ⟨.bqinit, rfl⟩, ⟨.biquad, rfl⟩, ⟨.sshr, rfl⟩]
    exact ⟨op, (BitVec.eq_of_toNat_eq hop).symm⟩

/-! ### The decoder, opcode by opcode (R99) -/

theorem decode_of_illegal {d : Descriptor} (h : Opcode.ofByte d.op = none) : decode d = .error .illegalOp := by
  rw [decode, h]

/-- The checks that follow a legal opcode, in R99's order. -/
theorem decode_of_op {d : Descriptor} {op : Opcode} (h : d.op = op.byte) :
    decode d = if d.w0 &&& op.rsvd ≠ 0 then .error .rsvdField
      else if (op.assemble d).wellFormed then .ok (op.assemble d) else .error .badParam := by
  rw [decode, h, Opcode.ofByte_byte]

/-- A descriptor with a legal opcode, no reserved bit set and accepted fields decodes to its opcode's command. -/
theorem decode_eq_ok {d : Descriptor} {op : Opcode} (hop : d.op = op.byte) (hr : d.w0 &&& op.rsvd = 0)
    (hw : (op.assemble d).wellFormed = true) : decode d = .ok (op.assemble d) := by
  rw [decode_of_op hop, if_neg (not_not.2 hr), if_pos hw]

/-- Only such a descriptor is accepted. -/
theorem op_of_decode_eq_ok {d : Descriptor} {i : Instr} (h : decode d = .ok i) :
    ∃ op : Opcode, d.op = op.byte ∧ d.w0 &&& op.rsvd = 0 ∧ op.assemble d = i := by
  obtain ⟨-, hbad⟩ | ⟨op, hop⟩ := Opcode.ofByte_cases d.op
  · rw [decode_of_illegal hbad] at h
    cases h
  · rw [decode_of_op hop] at h
    split_ifs at h with hr hw
    cases h
    exact ⟨op, hop, not_not.1 hr, rfl⟩

/-! ### The fields of a control word (R92, R96) -/

section
variable (op : Opcode) (nst : BitVec 8) (sh : BitVec 5) (bw : BitVec 6)

@[simp] theorem controlWord_op : (controlWord op nst sh bw).extractLsb' 0 8 = op.byte :=
  BitVec.extractLsb'_append_eq_right

@[simp] theorem controlWord_nst : (controlWord op nst sh bw).extractLsb' 8 8 = nst := by
  rw [controlWord, BitVec.extractLsb'_append_eq_of_le (by decide)]
  exact BitVec.extractLsb'_append_eq_right

@[simp] theorem controlWord_sh : (controlWord op nst sh bw).extractLsb' 16 5 = sh := by
  rw [controlWord, BitVec.extractLsb'_append_eq_of_le (by decide), BitVec.extractLsb'_append_eq_of_le (by decide)]
  exact BitVec.extractLsb'_append_eq_right

@[simp] theorem controlWord_bw : (controlWord op nst sh bw).extractLsb' 21 6 = bw := by
  rw [controlWord, BitVec.extractLsb'_append_eq_of_le (by decide), BitVec.extractLsb'_append_eq_of_le (by decide),
    BitVec.extractLsb'_append_eq_of_le (by decide)]
  exact BitVec.extractLsb'_append_eq_right

end

/-- A word whose reserved bits 31:27 are 0 is the control word of its fields. -/
theorem controlWord_of_fields {w : Word} {op : Opcode} {nst : BitVec 8} {sh : BitVec 5} {bw : BitVec 6}
    (htop : w.extractLsb' 27 5 = 0) (hbw : w.extractLsb' 21 6 = bw) (hsh : w.extractLsb' 16 5 = sh)
    (hnst : w.extractLsb' 8 8 = nst) (hop : w.extractLsb' 0 8 = op.byte) : controlWord op nst sh bw = w := by
  rw [controlWord, ← hop, ← hnst, ← hsh, ← hbw, ← show w.extractLsb' 27 5 = 0#5 from htop]
  simp only [BitVec.extractLsb'_append_extractLsb'_eq_extractLsb']
  exact BitVec.extractLsb'_eq_self

/-- A field that a mask covers is 0 where no bit of the mask is set (R96). -/
theorem field_eq_zero {w mask : Word} {start n : Nat} (h : w &&& mask = 0)
    (hm : mask.extractLsb' start n = BitVec.allOnes n) : w.extractLsb' start n = 0 := by
  have hfield := congrArg (BitVec.extractLsb' start n) h
  rw [BitVec.extractLsb'_and, hm, BitVec.and_allOnes] at hfield
  exact hfield.trans BitVec.extractLsb'_zero

/-! ### Decoding what was encoded -/

/-- The opcode of a command (R94). -/
def Instr.opcode : Instr → Opcode
  | .endList => .endList
  | .conv16 _ _ _ => .conv16
  | .fill _ _ _ => .fill
  | .sub _ _ _ _ => .sub
  | .scale _ _ _ _ => .scale
  | .offset _ _ _ _ => .offset
  | .mul _ _ _ _ => .mul
  | .bqinit _ _ => .bqinit
  | .biquad _ _ _ _ _ _ => .biquad
  | .sshr _ _ _ _ => .sshr

theorem encode_op (i : Instr) : (encode i).op = i.opcode.byte := by
  cases i <;> exact controlWord_op _ _ _ _

/-- No operand of a command is lost in its encoding (R93, R95). -/
theorem assemble_encode (i : Instr) : i.opcode.assemble (encode i) = i := by
  cases i <;>
    simp [Instr.opcode, Opcode.assemble, encode, Descriptor.nst, Descriptor.sh, Descriptor.bw]

open Laws.EncodeMeetsRow in
/-- Every encoding meets its row of spec/opcode_table.json. -/
theorem encode_meets_row : (i : Instr) → Statement i
  | .endList => endList
  | .conv16 d a len => conv16 d a len
  | .fill d x len => fill d x len
  | .sub d a b len => sub d a b len
  | .scale d a x len => scale d a x len
  | .offset d a x len => offset d a x len
  | .mul d a b len => mul d a b len
  | .bqinit s nst => bqinit s nst
  | .biquad d a c s nst len => biquad d a c s nst len
  | .sshr d a sh bw => sshr d a sh bw

open Laws.EncodeMeetsRow in
/-- The reserved bits of R96 are fixed bits of the command's row, and 0 there. -/
theorem row_and_rsvd (i : Instr) :
    (row i).mask &&& i.opcode.rsvd = i.opcode.rsvd ∧ (row i).pattern &&& i.opcode.rsvd = 0 := by
  cases i <;> simp only [row, Instr.opcode, Opcode.rsvd] <;> decide

/-- An encoding sets no reserved bit (R96). -/
theorem encode_and_rsvd (i : Instr) : (encode i).w0 &&& i.opcode.rsvd = 0 := by
  obtain ⟨hmask, hpattern⟩ := row_and_rsvd i
  rw [← hmask, ← BitVec.and_assoc, (encode_meets_row i).1, hpattern]

/-- Settles O1: an encoding passes the decoder's checks, and its opcode takes back the operands. -/
theorem decodeEncodeRoundTrip : Obligations.DecodeEncodeRoundTrip := by
  intro i hi
  have h := decode_eq_ok (encode_op i) (encode_and_rsvd i) (by rwa [assemble_encode])
  rwa [assemble_encode] at h

/-! ### Encoding what was decoded (R96 to R98) -/

/-- With no reserved bit set, the fields an opcode does not take are 0 as the encoder writes them, and those it takes stand in the
encoding as they stood. -/
theorem encode_assemble_w0 {d : Descriptor} {op : Opcode} (hop : d.op = op.byte) (hr : d.w0 &&& op.rsvd = 0) :
    (encode (op.assemble d)).w0 = d.w0 := by
  have htop : d.w0.extractLsb' 27 5 = 0 := field_eq_zero hr (by cases op <;> rfl)
  cases op with
  | bqinit | biquad => exact controlWord_of_fields htop (field_eq_zero hr rfl) (field_eq_zero hr rfl) rfl hop
  | sshr => exact controlWord_of_fields htop rfl rfl (field_eq_zero hr rfl) hop
  | _ => exact controlWord_of_fields htop (field_eq_zero hr rfl) (field_eq_zero hr rfl) (field_eq_zero hr rfl) hop

/-- Settles O4: an accepted descriptor passed the checks of R96 and R98. -/
theorem acceptedControlWord : Obligations.AcceptedControlWord := by
  intro d i h
  obtain ⟨op, hop, hr, rfl⟩ := op_of_decode_eq_ok h
  exact ⟨encode_assemble_w0 hop hr, Machine.wellFormed_of_decode h⟩

/-- Settles O3: at each opcode the mask is R96's, the field check is R98's where the opcode has one, and the operands are R95's. -/
theorem decodeFollowsProcedure : Obligations.DecodeFollowsProcedure := by
  intro d
  dsimp only
  obtain ⟨hbig, hbad⟩ | ⟨op, hop⟩ := Opcode.ofByte_cases d.op
  · exact (decode_of_illegal hbad).trans (if_pos hbig).symm
  · rw [decode_of_op hop, show d.w0.extractLsb' 0 8 = op.byte from hop]
    cases op <;>
      simp [Opcode.byte, Opcode.rsvd, Opcode.assemble, Instr.wellFormed, Descriptor.nst, Descriptor.sh, Descriptor.bw]

/-! ### Descriptors as bytes (R71, R90) -/

theorem bytesWord_wordBytes (w : Word) :
    bytesWord (w.extractLsb' 0 8) (w.extractLsb' 8 8) (w.extractLsb' 16 8) (w.extractLsb' 24 8) = w := by
  rw [bytesWord]
  simp only [BitVec.extractLsb'_append_extractLsb'_eq_extractLsb']
  exact BitVec.extractLsb'_eq_self

theorem takeWords_wordBytes (n : Nat) (w : Word) (bs : List Byte) :
    takeWords (n + 1) (wordBytes w ++ bs) = (takeWords n bs).map fun r => (w :: r.1, r.2) := by
  simp only [wordBytes, List.cons_append, List.nil_append, takeWords, bytesWord_wordBytes]

theorem takeWords_bytes (d : Descriptor) (rest : List Byte) :
    takeWords 8 (d.bytes ++ rest) = some ([d.w0, d.w1, d.w2, d.w3, d.w4, d.w5, d.w6, d.w7], rest) := by
  simp only [Descriptor.bytes, List.append_assoc, takeWords_wordBytes, takeWords, Option.map_some]

/-- The bytes of an accepted descriptor decode to its command. -/
theorem decodeBytes_bytes {d : Descriptor} {i : Instr} (h : decode d = .ok i) (rest : List Byte) :
    decodeBytes (d.bytes ++ rest) = .ok (i, rest) := by
  rw [decodeBytes, takeWords_bytes]
  simp only [h]

/-- Settles O2: the bytes are taken back word by word, and the words decode by the round trip. -/
theorem decodeBytesOfEncoding : Obligations.DecodeBytesOfEncoding := fun i rest hi =>
  decodeBytes_bytes (decodeEncodeRoundTrip i hi) rest

/-! ### The spec's own words and lines (spec/95_test_vectors.md) -/

/-- Settles O5: the accepted descriptors are encodings, and the rejected ones are evaluated. -/
theorem specWordsDecode : Obligations.SpecWordsDecode :=
  ⟨decodeEncodeRoundTrip (.bqinit 0x140 2) rfl, decodeEncodeRoundTrip (.biquad 0x300 0x200 0x100 0x140 2 4) rfl,
    decodeEncodeRoundTrip (.conv16 0x400 0x300 4) rfl, decodeEncodeRoundTrip (.sub 0x250 0x240 0x230 4) rfl,
    decodeEncodeRoundTrip (.sshr 0x104 0x100 4 8) rfl, by decide, by decide, by decide⟩

/-- Settles O6: each line is assembled. -/
theorem assemblerLines : Obligations.AssemblerLines := ⟨rfl, rfl, rfl, rfl, rfl, rfl⟩

end Sys2Proof

namespace Sys2Proof.Machine

/-! ### BAD_PARAM from the commands (R98, R202) -/

/-- Trap entry is the record R206 gives. -/
theorem State.trap_eq_faulted (s : State) (c : FaultCode) (o : BitVec 3) (a : Word) :
    s.trap c o a = s.faulted c.ecode o a := rfl

/-- A command whose fields are not accepted is recorded under code 0x04, at CMDPTR (R200, R206). -/
theorem exec_faulted_of_not_wellFormed {i : Instr} (h : i.wellFormed = false) (s : State) :
    exec i s = .next (s.faulted 0x04 0 s.cmdptr) := by
  rw [exec_of_not_wellFormed h, State.trap_eq_faulted]
  rfl

/-- Settles O12: a zero field is not accepted, whatever the other operands are. -/
theorem badParamTraps : Obligations.BadParamTraps := fun s _ _ _ _ _ _ =>
  ⟨exec_faulted_of_not_wellFormed rfl s, exec_faulted_of_not_wellFormed rfl s, exec_faulted_of_not_wellFormed rfl s⟩

end Sys2Proof.Machine
end

section
/-! The pseudo-instructions (spec/30_encoding.md R101): rounding keeps every value of the format, so that adding -0.0 and
multiplying by -1.0 are exact. -/

namespace Sys2Proof.F32

/-! ### Rounding a value of the format -/

/-- A larger pattern has a larger magnitude: from one to the next the significand grows by one unit of its exponent. -/
theorem magOf_strictMono : StrictMono magOf := by
  refine strictMono_nat_of_lt_succ fun M => ?_
  obtain ⟨e, d, rfl, hd, he⟩ : ∃ e d, M = e * 2 ^ 23 + d ∧ d < 2 ^ 24 ∧ (0 < e → 2 ^ 23 ≤ d) :=
    ⟨M / 2 ^ 23 - 1, M - (M / 2 ^ 23 - 1) * 2 ^ 23, by omega, by omega, by omega⟩
  rw [Nat.add_assoc, magOf_shift e d hd.le he, magOf_shift e (d + 1) hd fun h => (he h).trans d.le_succ]
  exact Nat.mul_lt_mul_of_pos_right d.lt_succ_self (by positivity)

/-- Every finite magnitude lies below the overflow bound. -/
theorem magOf_lt_overflow {M : Nat} (hM : M < 0x7F800000) : magOf M < (2 ^ 25 - 1) * 2 ^ 252 :=
  calc magOf M ≤ magOf (253 * 2 ^ 23 + (2 ^ 24 - 1)) := magOf_strictMono.monotone (by omega)
    _ = (2 ^ 24 - 1) * 2 ^ 253 := magOf_shift _ _ (by decide) (by decide)
    _ < (2 ^ 25 - 1) * 2 ^ 252 := by decide

/-- A finite magnitude, on whatever finer scale it is written, rounds to itself: nothing is nearer to it, and no other pattern has
its value. -/
theorem roundMag_magOf (sub : Nat) {M : Nat} (hM : M < 0x7F800000) : roundMag sub (magOf M * 2 ^ sub) = M := by
  have hbound : magOf M * 2 ^ sub < (2 ^ 25 - 1) * 2 ^ (252 + sub) := by
    rw [Nat.pow_add, ← Nat.mul_assoc]
    exact Nat.mul_lt_mul_of_pos_right (magOf_lt_overflow hM) (by positivity)
  have hnear := (((roundMag_spec sub _).1 hbound).2 M).1
  have hval : magOf (roundMag sub (magOf M * 2 ^ sub)) * 2 ^ sub = magOf M * 2 ^ sub := by
    push_cast at hnear
    rw [sub_self, abs_zero, abs_nonpos_iff, sub_eq_zero] at hnear
    exact_mod_cast hnear
  exact magOf_strictMono.injective (Nat.eq_of_mul_eq_mul_right (by positivity) hval)

/-! ### Adding -0.0, multiplying by -1.0 -/

theorem isInf_or_isFinite {x : Word} (h : isNaN x = false) : isInf x = true ∨ isFinite x = true := by
  simp only [isNaN, isInf, isFinite, Bool.and_eq_false_iff, Bool.and_eq_true, decide_eq_true_eq, decide_eq_false_iff_not] at h ⊢
  tauto

theorem low_lt_of_isFinite {x : Word} (h : isFinite x = true) : low x < 0x7F800000 := by
  simpa [isFinite_eq] using h

/-- A pattern with its sign flipped is packed from the other sign. -/
theorem pack_not_sign_low (x : Word) : pack (!sign x) (low x) = neg x := by
  rw [← sign_neg, ← low_neg, pack_sign_low]

/-- The exact value of a finite pattern rounds to the pattern; a zero keeps the sign its addends give it (R10). -/
theorem roundSum_val {x : Word} (hx : isFinite x = true) : roundSum (sign x) (val x) = x := by
  by_cases h0 : low x = 0
  · have hval : val x = 0 := by rw [val_eq_zero_iff, mag_eq, h0]; rfl
    rw [hval, roundSum, if_pos rfl, ← h0, pack_sign_low]
  · have hpos : 0 < magOf (low x) := magOf_strictMono (Nat.pos_of_ne_zero h0)
    have hne : val x ≠ 0 := by rw [Ne, val_eq_zero_iff, mag_eq]; exact hpos.ne'
    have hneg : decide (val x < 0) = sign x := by
      rw [val_eq]
      cases sign x <;> simp [signed, hpos]
    have hround : roundMag 0 (magOf (low x)) = low x := by simpa using roundMag_magOf 0 (low_lt_of_isFinite hx)
    rw [roundSum_of_ne_zero _ hne, hneg, val_eq, natAbs_signed, hround, pack_sign_low]

theorem add_negZero {x : Word} (hx : isNaN x = false) : add x 0x80000000#32 = x := by
  have hval : val 0x80000000#32 = 0 := rfl
  have hsign : sign 0x80000000#32 = true := rfl
  obtain hinf | hfin := isInf_or_isFinite hx
  · exact add_isInf_isFinite hinf rfl
  · rw [add_of_finite hfin rfl, hval, hsign, Bool.and_true, add_zero, roundSum_val hfin]

/-- The significand of -1.0 is a power of two, so the product is the magnitude itself on the finer scale. -/
theorem mul_negOne {x : Word} (hx : isNaN x = false) : mul x 0xBF800000#32 = neg x := by
  have hmag : mag 0xBF800000#32 = 2 ^ 149 := rfl
  have hsign : (sign x != sign 0xBF800000#32) = !sign x := by cases sign x <;> rfl
  obtain hinf | hfin := isInf_or_isFinite hx
  · rw [mul_isInf_left hinf rfl, if_neg (by rw [hmag]; decide), ← inf_xor, hsign, inf, ← (isInf_iff_low x).1 hinf,
      pack_not_sign_low]
  · rw [mul_of_finite hfin rfl, hmag, hsign, mag_eq, roundMag_magOf 149 (low_lt_of_isFinite hfin), pack_not_sign_low]

/-- Settles O36: the expansions are R101's by definition, and each result is exact by class of the operand. -/
theorem pseudoInstructionsExact : Obligations.PseudoInstructionsExact :=
  ⟨fun _ _ _ => ⟨rfl, rfl, rfl⟩, fun _ =>
    ⟨fun h => ⟨add_negZero h, mul_negOne h⟩, fun h => ⟨add_of_isNaN (.inl h), mul_of_isNaN (.inl h)⟩⟩⟩

end Sys2Proof.F32
end

section
/-! The command cycle (spec/40_sequencer.md): the descriptor at CMDPTR, validation, what a completed command leaves as it is, the
accesses of Execute, and how a run ends. -/

namespace Sys2Proof.Machine

/-! ### END, the idle sequencer, and START (R129, R132, R120) -/

/-- Settles O10: END is the end of a run. -/
theorem endEndsRun : Obligations.EndEndsRun := fun _ => rfl

/-- With no turn pending a step is the sequencer's alone. -/
theorem step_of_no_turns {s : State} (h : s.turns = []) : step s = sequencerStep s := by
  rw [step, h]

/-- A turn given to the sequencer is one of its single accesses. -/
theorem step_of_sequencer {s : State} {rest : List Turn} (h : s.turns = .sequencer :: rest) :
    step s = accessStep (s.withTurns rest) := by
  rw [step, h]

/-- Settles O9: both grains of the sequencer ask for BUSY first. -/
theorem idleSequencerMakesNoStep : Obligations.IdleSequencerMakesNoStep := by
  intro s hb
  refine ⟨fun h => ?_, fun rest h => ?_⟩
  · rw [step_of_no_turns h, sequencerStep, hb]
    rfl
  · rw [step_of_sequencer h, accessStep, State.withTurns_status, hb]
    rfl

/-- Settles O44: a CTRL write begins a run exactly if START is written while BUSY = 0 and ERR = 0. -/
theorem hostWritesCtrl : Obligations.HostWritesCtrl := by
  intro s w rest h
  rw [step_writeReg (by decide) (by decide) h, writeReg, if_pos rfl, writeCtrl_eq,
    apply_ite (State.withReply · _)]
  rfl

/-! ### The descriptor at CMDPTR (R122, R123) -/

/-- The bytes of a word read are the four bytes of DMEM (R71). -/
theorem wordBytes_read32 (m : Memory) (a : Nat) :
    wordBytes (m.read32 a) = [m.readByte a, m.readByte (a + 1), m.readByte (a + 2), m.readByte (a + 3)] := by
  have byte : ∀ j < 4, (m.read32 a).extractLsb' (8 * j) 8 = m.readByte (a + j) := fun j hj => by
    rw [extractLsb'_eq_byte, Memory.read32, BitVec.toNat_ofNat, Nat.mod_eq_of_lt (by exact m.readLE_lt a 4), Memory.byte_readLE,
      if_pos hj]
  rw [wordBytes, ← byte 1 (by decide), ← byte 2 (by decide), ← byte 3 (by decide)]
  exact congrArg (· :: _) (byte 0 (by decide))

/-- The 32 bytes at CMDPTR are those of the eight words fetched. -/
theorem descriptorBytes_eq (s : State) : s.descriptorBytes = s.fetchWords.bytes := by
  simp only [State.fetchWords, Descriptor.bytes, wordBytes_read32]
  rfl

/-- The 32 bytes at CMDPTR decode to the command that the words fetched decode to. -/
theorem decodeBytes_descriptorBytes_ok (s : State) (i : Instr) :
    decodeBytes s.descriptorBytes = .ok (i, []) ↔ decode s.fetchWords = .ok i := by
  rw [descriptorBytes_eq, ← List.append_nil s.fetchWords.bytes, decodeBytes, takeWords_bytes]
  cases h : decode s.fetchWords <;> simp [h]

/-- The 32 bytes at CMDPTR are rejected as the words fetched are. -/
theorem decodeBytes_descriptorBytes_rejected (s : State) (f : DecodeFault) :
    decodeBytes s.descriptorBytes = .error (.rejected f) ↔ decode s.fetchWords = .error f := by
  rw [descriptorBytes_eq, ← List.append_nil s.fetchWords.bytes, decodeBytes, takeWords_bytes]
  cases h : decode s.fetchWords <;> simp [h]

/-- At a command's boundary with no turn pending a step is a whole command (R121). -/
theorem step_of_boundary {s : State} (ht : s.turns = []) (hb : s.status.busy = true) (hp : s.seq.phase = .fetch 0) :
    step s = commandCycle s := by
  rw [step_of_no_turns ht, sequencerStep, if_pos hb, if_pos hp]

section
variable {s : State} (hr : s.cmdptr.toNat + 32 ≤ s.cfg.dmemSize)
include hr

/-- An accepted descriptor's command is executed. -/
theorem commandCycle_of_ok {i : Instr} (hd : decode s.fetchWords = .ok i) : commandCycle s = exec i s := by
  rw [commandCycle, if_pos ((inRange_iff _ _ _).2 (.inr hr)), hd]

/-- A rejected descriptor raises the decoder's fault at CMDPTR (R123). -/
theorem commandCycle_of_error {f : DecodeFault} (hd : decode s.fetchWords = .error f) :
    commandCycle s = .next (s.trap (decodeCause f) 0 s.cmdptr) := by
  rw [commandCycle, if_pos ((inRange_iff _ _ _).2 (.inr hr)), hd]
  rfl

end

/-- A descriptor not wholly in DMEM raises FETCH_OOR (R122). -/
theorem commandCycle_of_out {s : State} (hr : s.cfg.dmemSize < s.cmdptr.toNat + 32) :
    commandCycle s = .next (s.trap .fetchOor 0 s.cmdptr) := by
  rw [commandCycle, if_neg (by rw [inRange_iff]; omega)]

/-- Settles O7: the bytes at CMDPTR decode to what the fetched words decode to. -/
theorem stepRunsDecodedInstruction : Obligations.StepRunsDecodedInstruction := by
  intro s i ht hb hp hr hd
  rw [decodeBytes_descriptorBytes_ok] at hd
  rw [step_of_boundary ht hb hp, commandCycle_of_ok hr hd]

/-- The fault of rejected bytes, as R206 records it. -/
theorem step_of_rejected {s : State} (ht : s.turns = []) (hb : s.status.busy = true) (hp : s.seq.phase = .fetch 0)
    (hr : s.cmdptr.toNat + 32 ≤ s.cfg.dmemSize) {f : DecodeFault}
    (hd : decodeBytes s.descriptorBytes = .error (.rejected f)) :
    step s = .next (s.faulted (decodeCause f).ecode 0 s.cmdptr) := by
  rw [decodeBytes_descriptorBytes_rejected] at hd
  rw [step_of_boundary ht hb hp, commandCycle_of_error hr hd, State.trap_eq_faulted]

/-- Settles O8: the range of the fetch, and each of the decoder's three rejections. -/
theorem fetchAndDecodeTrap : Obligations.FetchAndDecodeTrap := by
  intro s ht hb hp
  refine ⟨fun hr => ?_, fun hr => ?_⟩
  · rw [step_of_boundary ht hb hp, commandCycle_of_out hr]
    rfl
  · exact ⟨step_of_rejected ht hb hp hr, step_of_rejected ht hb hp hr, step_of_rejected ht hb hp hr⟩

/-! ### Validation (R124) -/

/-- A command with an operand in R95's table has a body. -/
theorem bodyOf_of_operand {i : Instr} {o : BitVec 3 × Word × Nat × Nat} (h : o ∈ operandTable i) :
    ∃ b, bodyOf i = some b :=
  bodyOf_of_ne_end fun he => by simp [he, operandTable] at h

/-- Settles O11: the body validates R95's operands in R95's order. -/
theorem firstBadOperandTraps : Obligations.FirstBadOperandTraps := by
  intro s i pre post o hw htable hpre ho
  obtain ⟨b, hb⟩ := bodyOf_of_operand (i := i) (o := o) (by simp [htable])
  have hops := operands_of_bodyOf hb
  rw [htable, List.map_eq_append_iff] at hops
  obtain ⟨pre', rest, hb_ops, rfl, hrest⟩ := hops
  obtain ⟨o', post', rfl, rfl, -⟩ := List.map_eq_cons_iff.1 hrest
  have hraise := validate_first_bad (List.forall_mem_map.1 hpre) ho (post := post')
  rw [← hb_ops] at hraise
  rw [exec_eq_runCommand hb hw, runCommand_of_raise hraise, State.trap_eq_faulted]
  dsimp only
  split <;> rfl

/-- A command whose operands are not all good has a first bad one, at which it traps. -/
theorem exec_of_bad_operand {i : Instr} {s : State} (hw : i.wellFormed = true) (h : ¬ OperandsOk s.cfg.dmemSize i) :
    ∃ o ∈ operandTable i, ¬ OperandOk s.cfg.dmemSize o.2.1 o.2.2.1 o.2.2.2 ∧
      exec i s = .next (s.faulted (if o.2.1.toNat % o.2.2.1 ≠ 0 then 0x05 else 0x06) o.1 o.2.1) := by
  obtain ⟨o, hfind⟩ : ∃ o, (operandTable i).find? (fun o => ¬ OperandOk s.cfg.dmemSize o.2.1 o.2.2.1 o.2.2.2) = some o := by
    rw [← Option.isSome_iff_exists, List.find?_isSome]
    simpa only [OperandsOk, not_forall, exists_prop, decide_eq_true_eq] using h
  obtain ⟨ho, pre, post, htable, hpre⟩ := List.find?_eq_some_iff_append.1 hfind
  simp only [decide_eq_true_eq] at ho
  refine ⟨o, by simp [htable], ho, firstBadOperandTraps s i pre post o hw htable (fun p hp => ?_) ho⟩
  simpa only [decide_not, Bool.not_not, decide_eq_true_eq] using hpre p hp

/-- A command whose operands are good executes and completes. -/
theorem exec_of_ok {i : Instr} {b : Body} {s : State} (hb : bodyOf i = some b) (hw : i.wellFormed = true)
    (h : OperandsOk s.cfg.dmemSize i) : exec i s = .next (b.execute s).complete := by
  rw [exec_eq_runCommand hb hw, runCommand_of_ok ((validate_bodyOf hb _).2 h)]

/-! ### The frame of a completed command (R125, R127) -/

/-- Settles O13: Execute changes DMEM and NV alone, NV only for CONV16 and DMEM only where the command stores. -/
theorem completedCommandFrame : Obligations.CompletedCommandFrame := by
  intro s i hne hw hok
  obtain ⟨b, hb⟩ := bodyOf_of_ne_end hne
  have hmem : ∀ x, NotStored i x → (b.execute s).complete.mem.readByte x = s.mem.readByte x :=
    fun x hx => bodyOf_execute_readByte hb hx s
  have hnv : (b.execute s).complete.status.nv ≠ s.status.nv → ∃ d a len, i = .conv16 d a len := by
    contrapose!
    exact fun hi => congrArg Status.nv (bodyOf_execute_status hb hi s)
  refine ⟨_, exec_of_ok hb hw hok, ?_⟩
  obtain ⟨m, v, -, hx⟩ := b.execute_changes s
  rw [hx] at hmem hnv ⊢
  exact ⟨rfl, rfl, rfl, rfl, rfl, rfl, rfl, rfl, rfl, hnv, hmem⟩

/-! ### Commands with no element (R126) -/

/-- With no element Execute does nothing and accesses nothing. -/
theorem Body.execute_of_count_zero {b : Body} (h : b.count = 0) (s : State) :
    b.execute s = s ∧ b.traceElems 0 b.count s = [] := by
  rw [execute, h]
  exact ⟨rfl, rfl⟩

/-- A validated command with no element completes with DMEM as it was, and makes no access. -/
theorem exec_of_no_element {i : Instr} {b : Body} {s : State} (hb : bodyOf i = some b) (hw : i.wellFormed = true)
    (hn : b.count = 0) (h : OperandsOk s.cfg.dmemSize i) :
    exec i s = .next (s.completed s.mem) ∧ executeTrace i s = [] := by
  obtain ⟨hexec, htrace⟩ := Body.execute_of_count_zero hn s
  refine ⟨?_, by simpa only [executeTrace, hb] using htrace⟩
  rw [exec_of_ok hb hw h, hexec]
  rfl

/-- Settles O15: each of the commands has no element, and its validation is that of R124. -/
theorem lenZeroTouchesNothing : Obligations.LenZeroTouchesNothing := by
  intro s d a b c v x nst hnst i hi
  have hbody : i.wellFormed = true ∧ ∃ b, bodyOf i = some b ∧ b.count = 0 := by
    simp only [List.mem_cons, List.not_mem_nil, or_false] at hi
    obtain rfl | rfl | rfl | rfl | rfl | rfl | rfl := hi
    case inr.inr.inr.inr.inr.inr => exact ⟨by simpa [Instr.wellFormed] using hnst, _, rfl, rfl⟩
    all_goals exact ⟨rfl, _, rfl, rfl⟩
  obtain ⟨hw, b, hb, hn⟩ := hbody
  exact ⟨exec_of_no_element hb hw hn, exec_of_bad_operand hw⟩

/-! ### The accesses of Execute (R72, R124) -/

/-- An operand's elements are 4 bytes wide, or 2 for the results of CONV16 (R95). -/
theorem align_of_operand {i : Instr} {b : Body} (h : bodyOf i = some b) :
    ∀ o ∈ b.operands, o.align = 4 ∨ (o.align = 2 ∧ ∃ d a len, i = .conv16 d a len) := by
  cases i <;> cases h <;>
    simp [bodyConv16, bodyFill, bodySub, bodyScale, bodyOffset, bodyMul, bodyBqinit, bodyBiquad, bodySshr,
      Operand.a, Operand.b, Operand.c, Operand.d, Operand.s]

/-- An access inside an aligned operand, at a multiple of its element size, is aligned. -/
theorem Operand.Covers.aligned {o : Operand} {x : Access} (h : o.Covers x) (ho : o.base.toNat % o.align = 0) :
    x.addr % x.bytes = 0 := by
  obtain ⟨hlo, -, hoff, hbytes⟩ := h
  rw [hbytes, ← Nat.add_sub_cancel' hlo, Nat.add_mod, ho, hoff, Nat.zero_add, Nat.zero_mod]

/-- Settles O37: every access lies in a validated operand, one element wide. -/
theorem executeAccessesAlignedInRange : Obligations.ExecuteAccessesAlignedInRange := by
  intro s i hw hok x hx
  rw [executeTrace] at hx
  split at hx
  · cases hx
  · rename_i b hb
    have hv := (validate_bodyOf hb _).2 hok
    obtain ⟨o, ho, hcov, -, hwide⟩ := b.traceElems_forall b.Allows (fun k hk i hi => bodyOf_accesses hb hk hi) s x hx
    refine ⟨hcov.aligned ((validate_eq_none _ _).1 hv o ho).1,
      b.traceElems_forall _ (fun k hk i hi => bodyOf_inDmem hb hv hk hi) s x hx, ?_⟩
    obtain ⟨-, -, -, hbytes⟩ := hcov
    rw [hbytes] at hwide ⊢
    obtain h4 | ⟨h2, hconv⟩ := align_of_operand hb o ho
    · exact .inl h4
    · exact .inr ⟨h2, hwide.resolve_left (by omega), hconv⟩

/-! ### How a run ends (R130, R131) -/

/-- A whole command ends the run, or goes on to the next command's boundary 32 bytes further (R127). -/
theorem commandCycle_ends_or_advances {s t : State} (h : commandCycle s = .next t) :
    t.status.busy = false ∨
    (s.cmdptr.toNat + 32 ≤ s.cfg.dmemSize ∧ ∃ m v, t = ((s.withMem m).setNVTo v).complete) := by
  by_cases hr : s.cmdptr.toNat + 32 ≤ s.cfg.dmemSize
  · cases hd : decode s.fetchWords with
    | ok i =>
      rw [commandCycle_of_ok hr hd] at h
      obtain ⟨c, o, a, he⟩ | ⟨-, he⟩ | ⟨b, -, -, -, he⟩ := exec_cases i s <;> rw [he] at h <;> cases h
      · exact .inl rfl
      · exact .inl rfl
      · obtain ⟨m, v, -, hx⟩ := b.execute_changes s
        exact .inr ⟨hr, m, v, congrArg State.complete hx⟩
    | error f =>
      rw [commandCycle_of_error hr hd] at h
      cases h
      exact .inl rfl
  · rw [commandCycle_of_out (by omega)] at h
    cases h
    exact .inl rfl

/-- Settles O17: by induction on the descriptors left in DMEM; CMDPTR does not wrap below 2^31 (R3). -/
theorem everyRunEnds : Obligations.EveryRunEnds := by
  intro s hc ht hb hq
  induction hleft : (s.cfg.dmemSize - s.cmdptr.toNat) / 32 using Nat.strong_induction_on generalizing s with
  | _ k ih =>
    obtain ⟨t, h⟩ := commandCycle_answers s
    have hstep := (step_of_boundary ht hb (congrArg Sequencer.phase hq)).trans h
    obtain hend | ⟨hr, m, v, rfl⟩ := commandCycle_ends_or_advances h
    · exact ⟨1, t, by omega, core_run_succ hstep 0, hend⟩
    · obtain ⟨-, -, hsize, -⟩ := id hc
      have hptr : (s.cmdptr + 32#32).toNat = s.cmdptr.toNat + 32 := by
        rw [BitVec.toNat_add, BitVec.toNat_ofNat]
        omega
      have hfewer : (s.cfg.dmemSize - (s.cmdptr + 32#32).toNat) / 32 < k := by omega
      obtain ⟨n, u, hn, hrun, hend⟩ := ih _ hfewer ((s.withMem m).setNVTo v).complete hc ht hb rfl rfl
      exact ⟨n + 1, u, by omega, (core_run_succ hstep n).trans hrun, hend⟩

/-- The sequencer's move that leaves BUSY = 0, at either grain: END at the descriptor that runs, or a recorded fault. -/
theorem step_stops {s t : State} (hb : s.status.busy = true) (hx : ∀ x rest, s.turns ≠ .host x :: rest)
    (h : step s = .next t) (ht : t.status.busy = false) :
    (((s.turns = [] ∧ s.seq.phase = .fetch 0 ∧ s.cmdptr.toNat + 32 ≤ s.cfg.dmemSize ∧
        decodeBytes s.descriptorBytes = .ok (.endList, [])) ∨
      ((∀ j, s.seq.phase ≠ .fetch j) ∧ decode s.seq.desc = .ok .endList)) ∧ t = (s.withTurns s.turns.tail).endRun) ∨
    ∃ c o a, t = (s.withTurns s.turns.tail).trap c o a := by
  have access : ∀ u : State, u.status = s.status → u.seq = s.seq → accessStep u = .next t →
      (((∀ j, s.seq.phase ≠ .fetch j) ∧ decode s.seq.desc = .ok .endList) ∧ t = u.endRun) ∨ ∃ c o a, t = u.trap c o a := by
    intro u hstatus hseq hu
    obtain ⟨hf, hd, rfl⟩ | ⟨c, o, a, rfl, -⟩ := accessStep_stops (hstatus ▸ hb) hu ht
    · exact .inl ⟨hseq ▸ ⟨hf, hd⟩, rfl⟩
    · exact .inr ⟨c, o, a, rfl⟩
  rcases hturns : s.turns with _ | ⟨⟨⟩ | _, rest⟩
  · have hself : s.withTurns [].tail = s := by rw [List.tail_nil, ← hturns]; rfl
    rw [hself]
    rw [step_of_no_turns hturns, sequencerStep, if_pos hb] at h
    split at h
    · rename_i hp
      obtain ⟨hr, hd, rfl⟩ | htrap := commandCycle_stops hb h ht
      · exact .inl ⟨.inl ⟨rfl, hp, by rw [inRange_iff] at hr; omega, (decodeBytes_descriptorBytes_ok s _).2 hd⟩, rfl⟩
      · exact .inr htrap
    · exact (access s rfl rfl h).imp_left fun ⟨hend, heq⟩ => ⟨.inr hend, heq⟩
  · exact absurd hturns (hx _ _)
  · rw [step_of_sequencer hturns] at h
    exact (access (s.withTurns rest) rfl rfl h).imp_left fun ⟨hend, heq⟩ => ⟨.inr hend, heq⟩

/-- Settles O19: the host ends a run by a reset event alone, and the sequencer at END or by a fault. -/
theorem busyEndsAtEndFaultOrReset : Obligations.BusyEndsAtEndFaultOrReset := by
  intro s t hs hb h ht
  obtain ⟨herr, hdone⟩ := hs.busy hb
  obtain ⟨x, rest, hx, rfl⟩ | ⟨hx, -⟩ := step_move h
  · by_cases hr : x = .reset
    · subst hr
      exact .inr (.inr ⟨rest, hx, rfl, rfl⟩)
    · obtain ⟨-, -, -, hlive⟩ := (hostStep_move x (s.withTurns rest)).keeps_live_run hr hb
      exact absurd (hlive.symm.trans ht) nofun
  · obtain ⟨hend, rfl⟩ | ⟨c, o, a, rfl⟩ := step_stops hb hx h ht
    · exact .inl ⟨rfl, herr, rfl, hend⟩
    · exact .inr (.inl ⟨hdone, rfl, c.ecode, o, a, rfl⟩)

end Sys2Proof.Machine
end

section
/-! The two grains of the sequencer (spec/40_sequencer.md R121, spec/20_memory.md R74, R81): a whole command is what its single
accesses lead to. The fetch, decoding and validation, the actions of each element, and completion are followed turn by turn. -/

namespace Sys2Proof.Machine

/-! ### Turns of the sequencer alone -/

/-- Some number of sequencer turns, with none of the host's between, lead from `s` to `t`, whatever turns are pending behind
them. -/
def State.Reaches (s t : State) : Prop :=
  ∀ rest, ∃ n, Sys2Proof.core.run n (s.withTurns (List.replicate n .sequencer ++ rest)) = .next (t.withTurns rest)

/-- One single access or internal step, which does not depend on the turns pending behind it. -/
theorem State.Reaches.of_access {s t : State} (h : ∀ ts, accessStep (s.withTurns ts) = .next (t.withTurns ts)) :
    s.Reaches t := fun rest =>
  ⟨1, core_run_succ (s := s.withTurns (.sequencer :: rest)) (h rest) 0⟩

/-- A run goes on from where its first part leads. -/
theorem core_run_add {n m : Nat} {s t : State} (h : Sys2Proof.core.run n s = .next t) :
    Sys2Proof.core.run (n + m) s = Sys2Proof.core.run m t := by
  induction n generalizing s with
  | zero =>
    cases h
    rw [Nat.zero_add]
  | succ n ih =>
    cases hs : step s with
    | next u =>
      rw [core_run_succ hs] at h
      rw [Nat.add_right_comm, core_run_succ hs, ih h]
    | fault r | refused r => simp [Host.Core.run, show Sys2Proof.core.step s = _ from hs] at h

theorem State.Reaches.refl (s : State) : s.Reaches s := fun _ => ⟨0, rfl⟩

theorem State.Reaches.trans {s t u : State} (hst : s.Reaches t) (htu : t.Reaches u) : s.Reaches u := by
  intro rest
  obtain ⟨m, hm⟩ := htu rest
  obtain ⟨n, hn⟩ := hst (List.replicate m .sequencer ++ rest)
  refine ⟨n + m, ?_⟩
  rw [List.replicate_add, List.append_assoc, core_run_add hn, hm]

/-! ### One access, phase by phase (R121) -/

section
variable {s : State} (hb : s.status.busy = true)
include hb

theorem accessStep_of_fetch {j : Fin 8} (hp : s.seq.phase = .fetch j) : accessStep s = fetchStep s j := by
  rw [accessStep, if_pos hb, hp]

theorem accessStep_of_decode (hp : s.seq.phase = .decode) : accessStep s = decodeStep s := by
  rw [accessStep, if_pos hb, hp]

theorem accessStep_of_execute {c : Instr} {b : Body} (hp : s.seq.phase = .execute) (hd : decode s.seq.desc = .ok c)
    (hc : bodyOf c = some b) : accessStep s = executeStep b s := by
  rw [accessStep, if_pos hb, hp, hd]
  dsimp only
  rw [hc]

theorem accessStep_of_advance (hp : s.seq.phase = .advance) : accessStep s = .next s.advancePtr := by
  rw [accessStep, if_pos hb, hp]

end

/-! ### Fetch (R122) -/

/-- The range of all 32 bytes is checked with the first word. -/
theorem fetchStep_of_out {s : State} (hr : s.cfg.dmemSize < s.cmdptr.toNat + 32) :
    fetchStep s 0 = .next (s.trap .fetchOor 0 s.cmdptr) :=
  if_pos (by simpa [inRange] using hr)

/-- The hidden state once word `j` at CMDPTR is latched. -/
def State.seqFetched (s : State) (q : Sequencer) (j : Fin 8) : Sequencer :=
  { q with
    desc := q.desc.setWord j (s.mem.read32 (s.cmdptr.toNat + 4 * j.val))
    phase := if j = 7 then .decode else .fetch (j + 1) }

/-- Word `j` is latched, and the next word or decoding comes next. -/
theorem fetchStep_of_inRange {s : State} (hr : s.cmdptr.toNat + 32 ≤ s.cfg.dmemSize) (j : Fin 8) :
    fetchStep s j = .next (s.withSeq (s.seqFetched s.seq j)) := by
  rw [fetchStep, if_neg (by simp [inRange, hr])]
  exact guarded_of_inDmem _ (by omega)

/-- The hidden state once the descriptor `d` is latched (R122). -/
def Sequencer.latched (d : Descriptor) : Sequencer := { Sequencer.idle with phase := .decode, desc := d }

/-- From a command's boundary eight word reads latch the descriptor. -/
theorem reaches_latched {s : State} (hb : s.status.busy = true) (hr : s.cmdptr.toNat + 32 ≤ s.cfg.dmemSize) :
    (s.withSeq .idle).Reaches (s.withSeq (.latched s.fetchWords)) := by
  have word : ∀ (j : Fin 8) (q : Sequencer), q.phase = .fetch j → (s.withSeq q).Reaches (s.withSeq (s.seqFetched q j)) :=
    fun j q hq => .of_access fun ts => (accessStep_of_fetch (s := (s.withSeq q).withTurns ts) hb hq).trans
      (fetchStep_of_inRange (s := (s.withSeq q).withTurns ts) hr j)
  exact (word 0 _ rfl).trans <| (word 1 _ rfl).trans <| (word 2 _ rfl).trans <| (word 3 _ rfl).trans <|
    (word 4 _ rfl).trans <| (word 5 _ rfl).trans <| (word 6 _ rfl).trans (word 7 _ rfl)

/-! ### The actions of an element, one by one -/

/-- `p` is what is left of the actions `q` when `pos` of them are done and `rd` are the values their reads gave, all of them used. -/
def Prog.Left (q : Prog) (pos : Nat) (rd : List Word) (p : Prog) : Prop :=
  ∀ n vs, q.resume (pos + n) (rd ++ vs) = p.resume n vs

theorem Prog.Left.start (q : Prog) : q.Left 0 [] q := fun n vs => by rw [Nat.zero_add, List.nil_append]

theorem Prog.Left.resume_eq {q p : Prog} {pos : Nat} {rd : List Word} (h : q.Left pos rd p) : q.resume pos rd = p := by
  have h0 := h 0 []
  rw [Nat.add_zero, List.append_nil] at h0
  rw [h0]
  cases p <;> rfl

/-- One more action done, `p'` being what `p` leaves after it, given the values `ws` it read. -/
theorem Prog.Left.did {q p p' : Prog} {pos : Nat} {rd : List Word} (h : q.Left pos rd p) (ws : List Word)
    (hp : ∀ n vs, p.resume (n + 1) (ws ++ vs) = p'.resume n vs) : q.Left (pos + 1) (rd ++ ws) p' := fun n vs => by
  rw [Nat.add_assoc, Nat.add_comm 1 n, List.append_assoc, h, hp]

/-- The hidden state while the latched descriptor `d` executes: element `k` at stage `i`, `x` handed on by the stage before, `pos`
actions done and `rd` the values read. -/
def Sequencer.executing (d : Descriptor) (k i : Nat) (x : Word) (pos : Nat) (rd : List Word) : Sequencer :=
  { phase := .execute, desc := d, k := k, i := i, x := x, pos := pos, rd := rd }

/-! ### Decoding and validation (R123, R124) -/

section
variable {s : State}

theorem decodeStep_of_error {f : DecodeFault} (hd : decode s.seq.desc = .error f) :
    decodeStep s = .next (s.trap (decodeCause f) 0 s.cmdptr) := by
  rw [decodeStep, hd]
  rfl

theorem decodeStep_of_end (hd : decode s.seq.desc = .ok .endList) : decodeStep s = .next s.endRun := by
  rw [decodeStep, hd]
  rfl

variable {c : Instr} {b : Body} (hd : decode s.seq.desc = .ok c) (hc : bodyOf c = some b)
include hd hc

theorem decodeStep_of_raise {r : Raise} (hv : validate s.cfg.dmemSize b.operands = some r) :
    decodeStep s = .next (s.trap r.code r.opnd r.addr) := by
  rw [decodeStep, hd]
  dsimp only
  rw [hc]
  dsimp only
  rw [hv]
  rfl

theorem decodeStep_of_valid (hv : validate s.cfg.dmemSize b.operands = none) :
    decodeStep s = .next (s.withSeq (.executing s.seq.desc 0 0 0 0 [])) := by
  rw [decodeStep, hd]
  dsimp only
  rw [hc]
  dsimp only
  rw [hv]
  rfl

end

/-! ### One step of Execute (R81, R125) -/

section
variable {b : Body} {s : State} (hk : s.seq.k < b.count)
include hk

theorem executeStep_of_ret {y : Word} (h : (b.unit s.seq.k s.seq.i s.seq.x).resume s.seq.pos s.seq.rd = .ret y) :
    executeStep b s = .next (s.withSeq (s.seq.nextUnit b.stages y)) := by
  rw [executeStep, if_pos hk, h]

theorem executeStep_of_read {a : Nat} {k : Word → Prog}
    (h : (b.unit s.seq.k s.seq.i s.seq.x).resume s.seq.pos s.seq.rd = .read a k) (hin : a + 4 ≤ s.cfg.dmemSize) :
    executeStep b s = .next (s.withSeq (s.seq.did [s.mem.read32 a])) := by
  rw [executeStep, if_pos hk, h]
  exact guarded_of_inDmem _ hin

theorem executeStep_of_write {a n v : Nat} {k : Prog}
    (h : (b.unit s.seq.k s.seq.i s.seq.x).resume s.seq.pos s.seq.rd = .write a n v k) (hin : a + n ≤ s.cfg.dmemSize) :
    executeStep b s = .next ((s.withMem (s.mem.writeLE a n v)).withSeq (s.seq.did [])) := by
  rw [executeStep, if_pos hk, h]
  exact guarded_of_inDmem _ hin

theorem executeStep_of_setNV {k : Prog}
    (h : (b.unit s.seq.k s.seq.i s.seq.x).resume s.seq.pos s.seq.rd = .setNV k) :
    executeStep b s = .next (s.withNV.withSeq (s.seq.did [])) := by
  rw [executeStep, if_pos hk, h]

end

/-- With no element left the command is counted (R127). -/
theorem executeStep_of_no_element {b : Body} {s : State} (hk : b.count ≤ s.seq.k) :
    executeStep b s = .next (s.countCommand.withSeq { s.seq with phase := .advance }) := by
  rw [executeStep, if_neg (Nat.not_lt.2 hk)]

/-! ### Execute and Complete (R125, R127) -/

/-- A run is under way in a DMEM of a given size. -/
def State.RunningIn (s : State) (size : Nat) : Prop := s.status.busy = true ∧ s.cfg.dmemSize = size

/-- Actions do not end a run. -/
theorem State.RunningIn.run {s : State} {size : Nat} (h : s.RunningIn size) (p : Prog) : (p.run s).2.RunningIn size := by
  obtain ⟨m, v, -, hr⟩ := p.run_changes s
  rw [hr]
  exact h

theorem State.RunningIn.runStages {s : State} {size : Nat} (h : s.RunningIn size) (b : Body) (k n i : Nat) (x : Word) :
    (b.runStages k i n x s).RunningIn size := by
  induction n generalizing i x s with
  | zero => exact h
  | succ n ih => exact ih (h.run _) _ _

/-- The next stage of the element takes over the value handed on. -/
theorem Sequencer.nextUnit_of_lt (d : Descriptor) (k : Nat) {i n : Nat} (x y : Word) (h : i + 1 < n) :
    (executing d k i x 0 []).nextUnit n y = executing d k (i + 1) y 0 [] := if_pos h

/-- After its last stage the next element begins. -/
theorem Sequencer.nextUnit_of_last (d : Descriptor) (k : Nat) {i n : Nat} (x y : Word) (h : i + 1 = n) :
    (executing d k i x 0 []).nextUnit n y = executing d (k + 1) 0 0 0 [] := if_neg h.not_lt

section
variable {d : Descriptor} {c : Instr} {b : Body} {size : Nat} (hd : decode d = .ok c) (hb : bodyOf c = some b)
include hd hb

/-- While the latched descriptor executes, a turn of the sequencer is one step of its command's Execute. -/
theorem reaches_of_executeStep {s t : State} {k i : Nat} {x : Word} {pos : Nat} {rd : List Word} (hs : s.status.busy = true)
    (h : ∀ ts, executeStep b ((s.withSeq (.executing d k i x pos rd)).withTurns ts) = .next (t.withTurns ts)) :
    (s.withSeq (.executing d k i x pos rd)).Reaches t :=
  .of_access fun ts =>
    (accessStep_of_execute (s := (s.withSeq (.executing d k i x pos rd)).withTurns ts) hs rfl hd hb).trans (h ts)

/-- What is left of a unit's actions, done one by one, leads where it leads when run at once, and on to the next unit. -/
theorem reaches_actions {k i : Nat} {x : Word} (hk : k < b.count) {p : Prog} {pos : Nat} {rd : List Word} {s : State}
    (hleft : (b.unit k i x).Left pos rd p) (hin : p.AllAccesses fun y => y.addr + y.bytes ≤ size) (hs : s.RunningIn size) :
    (s.withSeq (.executing d k i x pos rd)).Reaches
      ((p.run s).2.withSeq ((Sequencer.executing d k i x 0 []).nextUnit b.stages (p.run s).1)) := by
  induction p generalizing pos rd s with
  | ret y => exact reaches_of_executeStep hd hb hs.1 fun ts => executeStep_of_ret hk hleft.resume_eq
  | read a next ih =>
    exact (reaches_of_executeStep hd hb hs.1 fun ts => executeStep_of_read hk hleft.resume_eq (hs.2 ▸ hin.1)).trans
      (ih _ (hleft.did [s.mem.read32 a] fun _ _ => rfl) (hin.2 _) hs)
  | write a n v next ih =>
    exact (reaches_of_executeStep hd hb hs.1 fun ts => executeStep_of_write hk hleft.resume_eq (hs.2 ▸ hin.1)).trans
      (ih (s := s.withMem _) (hleft.did [] fun _ _ => rfl) hin.2 hs)
  | setNV next ih =>
    exact (reaches_of_executeStep hd hb hs.1 fun ts => executeStep_of_setNV hk hleft.resume_eq).trans
      (ih (s := s.withNV) (hleft.did [] fun _ _ => rfl) hin hs)

variable (hv : validate size b.operands = none)
include hv

/-- The stages of an element that are left, access by access, and on to the next element. -/
theorem reaches_stages {k : Nat} (hk : k < b.count) (n : Nat) {i : Nat} {x : Word} {s : State} (hi : i + (n + 1) = b.stages)
    (hs : s.RunningIn size) :
    (s.withSeq (.executing d k i x 0 [])).Reaches
      ((b.runStages k i (n + 1) x s).withSeq (.executing d (k + 1) 0 0 0 [])) := by
  have unit : ∀ (i : Nat) (x : Word) (s : State), i < b.stages → s.RunningIn size → _ := fun i x s hi hs =>
    reaches_actions hd hb hk (.start (b.unit k i x)) (bodyOf_inDmem hb hv hk hi x) hs
  induction n generalizing i x s with
  | zero =>
    have h := unit i x s (by omega) hs
    rwa [Sequencer.nextUnit_of_last d k x _ hi] at h
  | succ n ih =>
    have h := unit i x s (by omega) hs
    rw [Sequencer.nextUnit_of_lt d k x _ (by omega)] at h
    exact h.trans (ih (by omega) (hs.run _))

/-- The elements that are left, access by access. -/
theorem reaches_elems (hstages : 0 < b.stages) (n : Nat) {k : Nat} {s : State} (hk : k + n = b.count)
    (hs : s.RunningIn size) :
    (s.withSeq (.executing d k 0 0 0 [])).Reaches ((b.runElems k n s).withSeq (.executing d b.count 0 0 0 [])) := by
  induction n generalizing k s with
  | zero =>
    subst hk
    exact .refl _
  | succ n ih =>
    obtain ⟨m, hm⟩ := Nat.exists_eq_add_one_of_ne_zero hstages.ne'
    have h := reaches_stages hd hb hv (k := k) (by omega) m (i := 0) (x := 0) (by omega) hs
    rw [← hm] at h
    exact h.trans (ih (by omega) (hs.runStages ..))

/-- The latched descriptor's command, validated: Execute from its first element, then the two updates of Complete. -/
theorem reaches_execute_complete (hstages : 0 < b.stages) {s : State} (hs : s.RunningIn size) :
    (s.withSeq (.executing d 0 0 0 0 [])).Reaches (b.execute s).complete := by
  have hbusy : (b.execute s).status.busy = true :=
    (b.execute_keeps (·.RunningIn size) (fun _ _ _ _ _ _ h => h.run _) s hs).1
  have hcount : ((b.execute s).withSeq (.executing d b.count 0 0 0 [])).Reaches
      ((b.execute s).countCommand.withSeq { Sequencer.executing d b.count 0 0 0 [] with phase := .advance }) :=
    reaches_of_executeStep hd hb hbusy fun ts => executeStep_of_no_element le_rfl
  have hadvance : ((b.execute s).countCommand.withSeq { Sequencer.executing d b.count 0 0 0 [] with phase := .advance }).Reaches
      (b.execute s).complete := .of_access fun ts => accessStep_of_advance hbusy rfl
  exact (reaches_elems hd hb hv hstages b.count (Nat.zero_add _) hs).trans (hcount.trans hadvance)

end

/-! ### A whole command (R121) -/

/-- From a latched descriptor, decoding, validation, Execute and Complete lead where a whole command does. -/
theorem reaches_of_latched {s t : State} (hb : s.status.busy = true) (hr : s.cmdptr.toNat + 32 ≤ s.cfg.dmemSize)
    (h : commandCycle s = .next t) : (s.withSeq (.latched s.fetchWords)).Reaches t := by
  have decoding : ∀ {u}, (∀ ts, decodeStep ((s.withSeq (.latched s.fetchWords)).withTurns ts) = .next (u.withTurns ts)) →
      (s.withSeq (.latched s.fetchWords)).Reaches u := fun hu =>
    .of_access fun ts => (accessStep_of_decode (s := (s.withSeq (.latched s.fetchWords)).withTurns ts) hb rfl).trans (hu ts)
  cases hd : decode s.fetchWords with
  | error f =>
    rw [commandCycle_of_error hr hd] at h
    cases h
    exact decoding fun ts => decodeStep_of_error (s := (s.withSeq (.latched s.fetchWords)).withTurns ts) hd
  | ok i =>
    rw [commandCycle_of_ok hr hd] at h
    by_cases hend : i = .endList
    · subst hend
      cases h
      exact decoding fun ts => decodeStep_of_end (s := (s.withSeq (.latched s.fetchWords)).withTurns ts) hd
    · obtain ⟨b, hbody⟩ := bodyOf_of_ne_end hend
      have hw := wellFormed_of_decode hd
      rw [exec_eq_runCommand hbody hw] at h
      cases hv : validate s.cfg.dmemSize b.operands with
      | some r =>
        rw [runCommand_of_raise hv] at h
        cases h
        exact decoding fun ts => decodeStep_of_raise (s := (s.withSeq (.latched s.fetchWords)).withTurns ts) hd hbody hv
      | none =>
        rw [runCommand_of_ok hv] at h
        cases h
        have hvalid : (s.withSeq (.latched s.fetchWords)).Reaches (s.withSeq (.executing s.fetchWords 0 0 0 0 [])) :=
          decoding fun ts => decodeStep_of_valid (s := (s.withSeq (.latched s.fetchWords)).withTurns ts) hd hbody hv
        exact hvalid.trans
          (reaches_execute_complete hd hbody hv (stages_pos_of_bodyOf hbody hw) ⟨hb, rfl⟩)

/-- From a command's boundary the sequencer's turns lead where a whole command does. -/
theorem reaches_of_commandCycle {s t : State} (hb : s.status.busy = true) (hq : s.seq = .idle)
    (h : commandCycle s = .next t) : s.Reaches t := by
  have hs : s.withSeq .idle = s := by rw [← hq]; rfl
  by_cases hr : s.cmdptr.toNat + 32 ≤ s.cfg.dmemSize
  · exact hs ▸ (reaches_latched hb hr).trans (reaches_of_latched hb hr h)
  · rw [commandCycle_of_out (Nat.lt_of_not_le hr)] at h
    cases h
    exact .of_access fun ts => (accessStep_of_fetch (s := s.withTurns ts) hb (congrArg Sequencer.phase hq)).trans
      (fetchStep_of_out (Nat.lt_of_not_le hr))

/-- Settles O18: the single accesses of a whole command, none of the host's turns pending between them or behind. -/
theorem accessesRefineCommand : Obligations.AccessesRefineCommand := by
  intro s t ht hb hq h
  have hturns : t.withTurns [] = t := by
    have hkept := (stepKeepsParametersAndOrder s t h).2
    rw [ht, List.tail_nil] at hkept
    rw [← hkept]
    rfl
  rw [step_of_boundary ht hb (congrArg Sequencer.phase hq)] at h
  obtain ⟨n, hn⟩ := reaches_of_commandCycle hb hq h []
  rw [List.append_nil, hturns] at hn
  exact ⟨n, hn⟩

end Sys2Proof.Machine
end

section
/-! NV (spec/41_conversion.md R141): what the moves of the two agents do to it. -/

namespace Sys2Proof.Machine

/-- The sequencer never clears NV (R141): a trap and the end of a run keep it, and Execute only sets it. -/
theorem SeqMove.keeps_nv {s t : State} (h : SeqMove s t) (hs : s.status.nv = true) : t.status.nv = true := by
  cases h with
  | work hb m v q hv => exact hv hs
  | command hb m v hv => exact hv hs
  | _ => exact hs

/-- The host clears NV only by a reset event and by a STATUS write with bit 3 set (R38, R230). -/
theorem HostMove.keeps_nv_or_clears {s t : State} {x : HostTxn} (h : HostMove s x t) (hs : s.status.nv = true) :
    t.status.nv = true ∨ x = .reset ∨
      ∃ w : Word, w.getLsbD 3 = true ∧ x = .write (s.cfg.apertureBase + 0x08) 4 w := by
  cases h with
  | reset => exact .inr (.inl rfl)
  | status w =>
    cases hw : w.getLsbD 3 with
    | true => exact .inr (.inr ⟨w, hw, rfl⟩)
    | false =>
      left
      rw [State.withReply_status, writeStatus, Status.writeW1C_eq, hs, hw]
      rfl
  | _ => exact .inl hs

/-- Settles O52: only the host clears NV, and the step is then the transaction that does. -/
theorem nvIsSticky : Obligations.NvIsSticky := by
  intro s t hs h
  obtain ⟨x, rest, hx, rfl⟩ | ⟨-, hmove⟩ := step_move h
  · obtain hnv | rfl | ⟨w, hw, rfl⟩ := (hostStep_move x (s.withTurns rest)).keeps_nv_or_clears hs
    · exact .inl hnv
    · exact .inr ⟨rest, .inl hx⟩
    · exact .inr ⟨rest, .inr ⟨w, hw, hx⟩⟩
  · exact .inl (hmove.keeps_nv hs)

end Sys2Proof.Machine
end

section
/-! CONV16's course through DMEM (spec/41_conversion.md R142, R241): element by element, and where the blocks do not collide. -/

namespace Sys2Proof.Machine

/-! ### Element by element (R142) -/

/-- With one stage, Execute is the elements' actions one after another. -/
theorem Body.execute_of_one_stage (b : Body) (hb : b.stages = 1) (st : Nat → State)
    (h : ∀ k < b.count, ((b.unit k 0 0).run (st k)).2 = st (k + 1)) : b.execute (st 0) = st b.count := by
  have elems : ∀ n k, k + n ≤ b.count → b.runElems k n (st k) = st (k + n) := by
    intro n
    induction n with
    | zero => exact fun _ _ => rfl
    | succ n ih =>
      intro k hk
      rw [runElems, hb, runStages, runStages, h k (by omega), ih (k + 1) (by omega), Nat.add_right_comm, Nat.add_assoc]
  have h0 := elems b.count 0 (by omega)
  rwa [Nat.zero_add] at h0

/-- DMEM after the first `n` elements of CONV16, each read as DMEM then stands (R142). -/
def conv16Mem (d a : Word) (m : Memory) : Nat → Memory
  | 0 => m
  | k + 1 => (conv16Mem d a m k).write16 (elemAddr d 2 k) (convert16 ((conv16Mem d a m k).read32 (elemAddr a 4 k)))

theorem conv16Mem_succ (d a : Word) (m : Memory) (k : Nat) :
    conv16Mem d a m (k + 1) =
      (conv16Mem d a m k).write16 (elemAddr d 2 k) (convert16 ((conv16Mem d a m k).read32 (elemAddr a 4 k))) := rfl

/-- Whether one of the first `n` elements that CONV16 reads is a NaN (R141). -/
def conv16ReadsNaN (d a : Word) (m : Memory) (n : Nat) : Bool :=
  (List.range n).any fun k => F32.isNaN ((conv16Mem d a m k).read32 (elemAddr a 4 k))

theorem conv16ReadsNaN_succ (d a : Word) (m : Memory) (n : Nat) :
    conv16ReadsNaN d a m (n + 1) =
      (conv16ReadsNaN d a m n || F32.isNaN ((conv16Mem d a m n).read32 (elemAddr a 4 n))) := by
  simp [conv16ReadsNaN, List.range_succ]

/-- One element's actions: its result stored, and NV set if it is a NaN (R141, R142). -/
theorem bodyConv16_unit_run (d a len : Word) (k i : Nat) (x : Word) (s : State) :
    (((bodyConv16 d a len).unit k i x).run s).2 =
      (s.withMem (s.mem.write16 (elemAddr d 2 k) (convert16 (s.mem.read32 (elemAddr a 4 k))))).setNVTo
        (s.status.nv || F32.isNaN (s.mem.read32 (elemAddr a 4 k))) := by
  simp only [bodyConv16, Prog.run_read]
  cases F32.isNaN (s.mem.read32 (elemAddr a 4 k)) with
  | true => rw [Bool.or_true]; rfl
  | false => rw [Bool.or_false]; rfl

/-- The state after the first `k` elements of CONV16. -/
def conv16State (d a : Word) (s : State) (k : Nat) : State :=
  (s.withMem (conv16Mem d a s.mem k)).setNVTo (s.status.nv || conv16ReadsNaN d a s.mem k)

theorem conv16State_zero (d a : Word) (s : State) : conv16State d a s 0 = s := by
  rw [conv16State, conv16ReadsNaN, List.range_zero, List.any_nil, Bool.or_false]
  rfl

/-- An element's actions lead to the state after it. -/
theorem bodyConv16_unit_run_state (d a len : Word) (s : State) (k : Nat) :
    (((bodyConv16 d a len).unit k 0 0).run (conv16State d a s k)).2 = conv16State d a s (k + 1) := by
  rw [bodyConv16_unit_run, conv16State, conv16State, conv16Mem_succ, conv16ReadsNaN_succ, ← Bool.or_assoc]
  rfl

/-- CONV16 with good operands completes, with the memory and the NV of all its elements. -/
theorem exec_conv16 {s : State} {d a len : Word} (h : OperandsOk s.cfg.dmemSize (.conv16 d a len)) :
    exec (.conv16 d a len) s = .next ((s.completed (conv16Mem d a s.mem len.toNat)).setNVTo
      (s.status.nv || conv16ReadsNaN d a s.mem len.toNat)) := by
  have hexec := (bodyConv16 d a len).execute_of_one_stage rfl (conv16State d a s)
    fun k _ => bodyConv16_unit_run_state d a len s k
  rw [conv16State_zero] at hexec
  rw [exec_of_ok (b := bodyConv16 d a len) rfl rfl h, hexec]
  rfl

/-- Settles O20: DMEM goes through `conv16Mem`, whose steps are R142's. -/
theorem conv16Completes : Obligations.Conv16Completes := fun s d a _ h =>
  ⟨conv16Mem d a s.mem, rfl, fun k _ => conv16Mem_succ d a s.mem k, exec_conv16 h⟩

/-! ### In place or between blocks apart (R142, R241) -/

/-- A half-word read where one was just written is that half-word. -/
theorem Memory.readLE_write16_self (m : Memory) (x : Nat) (v : Half) : (m.write16 x v).readLE x 2 = v.toNat := by
  rw [write16, readLE_writeLE_self]
  exact Nat.mod_eq_of_lt v.isLt

/-- Elements `i` to `n - 1` store to D + 2i up to D + 2n alone: what lies before or behind reads as before them. -/
theorem conv16Mem_readLE (d a : Word) (m : Memory) {i n x w : Nat} (hin : i ≤ n)
    (h : x + w ≤ d.toNat + 2 * i ∨ d.toNat + 2 * n ≤ x) :
    (conv16Mem d a m n).readLE x w = (conv16Mem d a m i).readLE x w := by
  induction n, hin using Nat.le_induction with
  | base => rfl
  | succ n hin ih =>
    rw [conv16Mem_succ, Memory.write16, Memory.readLE_writeLE_of_apart, ih (by omega)]
    simp only [elemAddr]
    omega

/-- In place or apart, element `k` is still what it was before the command when it is read. -/
theorem conv16Mem_source {d a : Word} (m : Memory) {k n : Nat} (hk : k < n)
    (h : d = a ∨ d.toNat + 2 * n ≤ a.toNat ∨ a.toNat + 4 * n ≤ d.toNat) :
    (conv16Mem d a m k).read32 (elemAddr a 4 k) = m.read32 (elemAddr a 4 k) := by
  have hapart : elemAddr a 4 k + 4 ≤ d.toNat + 2 * 0 ∨ d.toNat + 2 * k ≤ elemAddr a 4 k := by
    simp only [elemAddr]
    obtain rfl | h := h <;> omega
  rw [Memory.read32, conv16Mem_readLE d a m k.zero_le hapart]
  rfl

/-- Result `k` is the conversion of what element `k` was when read: no later result is stored over it. -/
theorem conv16Mem_result (d a : Word) (m : Memory) {k n : Nat} (hk : k < n) :
    (conv16Mem d a m n).readLE (elemAddr d 2 k) 2 =
      (convert16 ((conv16Mem d a m k).read32 (elemAddr a 4 k))).toNat := by
  rw [conv16Mem_readLE d a m hk (.inl (by simp only [elemAddr]; omega)), conv16Mem_succ, Memory.readLE_write16_self]

/-- Settles O21: each result is the conversion of an element read as it was before the command. -/
theorem conv16ElementsApart : Obligations.Conv16ElementsApart := fun s d a _ hok h =>
  ⟨_, exec_conv16 hok, fun _ hk =>
    (conv16Mem_result d a s.mem hk).trans (by rw [conv16Mem_source s.mem hk h]; rfl)⟩

end Sys2Proof.Machine
end

section
/-! The conversion of one element as a function of its place in the order of R11 (spec/41_conversion.md R142, R143): clamped to
[-1.0, U], then truncated to units of 2^-15, which are 2^134 units of 2^-149. -/

namespace Sys2Proof.Machine

/-! ### Places in the order (R11) -/

theorem lt_eq_false_iff (f g : Word) : F32.lt f g = false ↔ F32.place g ≤ F32.place f := by
  rw [F32.lt, decide_eq_false_iff_not, not_lt]

/-- -1.0 is -32768 units of 2^-15. -/
theorem place_clampLower : F32.place clampLower = -32768 * 2 ^ 134 := rfl

/-- U is 32767 units of 2^-15 (R140). -/
theorem place_clampUpper : F32.place clampUpper = 32767 * 2 ^ 134 := rfl

theorem place_of_isFinite {f : Word} (h : F32.isFinite f = true) : F32.place f = F32.val f := by
  rw [F32.place, F32.isInf_of_isFinite h, if_neg Bool.false_ne_true]

/-- An infinity lies outside [-1.0, U]. -/
theorem place_of_isInf {f : Word} (h : F32.isInf f = true) :
    F32.place f < F32.place clampLower ∨ F32.place clampUpper < F32.place f := by
  rw [place_clampLower, place_clampUpper, F32.place, if_pos h]
  split <;> omega

/-! ### Truncation to units of 2^-15 (R5) -/

/-- A quotient truncated toward zero reaches a positive integer exactly where the dividend reaches its multiple. -/
theorem le_tdiv_iff {n c q : Int} (hn : 0 < n) (hq : 0 < q) : n ≤ c.tdiv q ↔ n * q ≤ c := by
  refine ⟨fun h => ?_, Int.le_tdiv_of_mul_le hq⟩
  have hc : 0 ≤ c := by
    by_contra hneg
    have hle := Int.tdiv_le_tdiv hq (Int.not_le.1 hneg).le
    rw [Int.zero_tdiv] at hle
    omega
  calc n * q ≤ c.tdiv q * q := Int.mul_le_mul_of_nonneg_right h hq.le
    _ = q * c.tdiv q := Int.mul_comm _ _
    _ ≤ c := Int.mul_tdiv_self_le hc

/-- The same toward minus infinity. -/
theorem tdiv_le_neg_iff {n c q : Int} (hn : 0 < n) (hq : 0 < q) : c.tdiv q ≤ -n ↔ c ≤ -n * q := by
  have h := le_tdiv_iff (c := -c) hn hq
  rw [Int.neg_tdiv] at h
  rw [Int.neg_mul]
  omega

/-! ### The result of an element that is no NaN (R142) -/

/-- The place of a pattern clamped to [-1.0, U]. -/
def clampedPlace (f : Word) : Int := clampInt (F32.place f) (F32.place clampLower) (F32.place clampUpper)

/-- The pre-scale clamp of a pattern is a finite one, of the clamped value. -/
theorem val_preClamp {f : Word} (hf : F32.isNaN f = false) : F32.val (preClamp f) = clampedPlace f := by
  have hlower : F32.val clampLower = F32.place clampLower := rfl
  have hupper : F32.val clampUpper = F32.place clampUpper := rfl
  have hle : F32.place clampLower ≤ F32.place clampUpper := by rw [place_clampLower, place_clampUpper]; omega
  simp only [preClamp, clampedPlace, clampInt, F32.lt, decide_eq_true_eq]
  split_ifs with h1 h2
  · rw [hlower]
    omega
  · rw [hupper]
    omega
  · have hval : F32.place f = F32.val f := by
      obtain hinf | hfin := F32.isInf_or_isFinite hf
      · exact absurd (place_of_isInf hinf) (by omega)
      · exact place_of_isFinite hfin
    omega

/-- A clamped place truncates to a signed 16-bit integer, so the second clamp of R142 changes nothing. -/
theorem clampedPlace_tdiv_bounds (f : Word) :
    -32768 ≤ (clampedPlace f).tdiv (2 ^ 134) ∧ (clampedPlace f).tdiv (2 ^ 134) ≤ 32767 := by
  have hlo : -32768 * 2 ^ 134 ≤ clampedPlace f := by
    rw [clampedPlace, place_clampLower, place_clampUpper, clampInt]
    omega
  have hhi : ¬ 32768 * 2 ^ 134 ≤ clampedPlace f := by
    rw [clampedPlace, place_clampLower, place_clampUpper, clampInt]
    omega
  rw [← le_tdiv_iff (by decide) (by decide)] at hhi
  exact ⟨Int.le_tdiv_of_mul_le (by decide) hlo, by omega⟩

/-- The result as a signed integer is the clamped place truncated to units of 2^-15. -/
theorem convert16_toInt {f : Word} (hf : F32.isNaN f = false) :
    (convert16 f).toInt = (clampedPlace f).tdiv (2 ^ 134) := by
  obtain ⟨hlo, hhi⟩ := clampedPlace_tdiv_bounds f
  have hvalue : convertValue f = (clampedPlace f).tdiv (2 ^ 134) := by
    rw [convertValue, scaleTrunc, val_preClamp hf, clampInt]
    omega
  rw [convert16, hf, if_neg Bool.false_ne_true, hvalue, BitVec.toInt_ofInt_eq_self (by decide) hlo (by omega)]

/-! ### R143 -/

/-- R143 (1): each stage of the conversion is monotone. -/
theorem convert16_mono {f g : Word} (hf : F32.isNaN f = false) (hg : F32.isNaN g = false)
    (h : F32.place f ≤ F32.place g) : (convert16 f).toInt ≤ (convert16 g).toInt := by
  rw [convert16_toInt hf, convert16_toInt hg]
  refine Int.tdiv_le_tdiv (by decide) ?_
  simp only [clampedPlace, clampInt]
  omega

/-- R143 (2): inside [-1.0, U] nothing is clamped. -/
theorem convert16_of_inside {f : Word} (hf : F32.isFinite f = true) (hlo : F32.place clampLower ≤ F32.place f)
    (hhi : F32.place f ≤ F32.place clampUpper) : (convert16 f).toInt = (F32.val f).tdiv (2 ^ 134) := by
  have hclamp : clampedPlace f = F32.val f := by
    rw [clampedPlace, clampInt, ← place_of_isFinite hf]
    omega
  rw [convert16_toInt (F32.isNaN_of_isFinite hf), hclamp]

/-- R143 (3), the upper end: the truncated result is 32767 where the clamped place reaches U. -/
theorem convert16_eq_max_iff {f : Word} (hf : F32.isNaN f = false) :
    (convert16 f).toInt = 32767 ↔ F32.place clampUpper ≤ F32.place f := by
  obtain ⟨-, hhi⟩ := clampedPlace_tdiv_bounds f
  have hreach := le_tdiv_iff (n := 32767) (c := clampedPlace f) (q := 2 ^ 134) (by decide) (by decide)
  have hclamp : 32767 * 2 ^ 134 ≤ clampedPlace f ↔ F32.place clampUpper ≤ F32.place f := by
    rw [clampedPlace, place_clampLower, place_clampUpper, clampInt]
    omega
  rw [convert16_toInt hf, ← hclamp, ← hreach]
  omega

/-- R143 (3), the lower end: the truncated result is -32768 where the clamped place reaches -1.0. -/
theorem convert16_eq_min_iff {f : Word} (hf : F32.isNaN f = false) :
    (convert16 f).toInt = -32768 ↔ F32.place f ≤ F32.place clampLower := by
  obtain ⟨hlo, -⟩ := clampedPlace_tdiv_bounds f
  have hreach := tdiv_le_neg_iff (n := 32768) (c := clampedPlace f) (q := 2 ^ 134) (by decide) (by decide)
  have hclamp : clampedPlace f ≤ -32768 * 2 ^ 134 ↔ F32.place f ≤ F32.place clampLower := by
    rw [clampedPlace, place_clampLower, place_clampUpper, clampInt]
    omega
  rw [convert16_toInt hf, ← hclamp, ← hreach]
  omega

/-- Settles O22: R143 (1) to (3), with the order of R11 read as the order of places. -/
theorem conversionProperties : Obligations.ConversionProperties :=
  ⟨fun f g hf hg h => convert16_mono hf hg ((lt_eq_false_iff g f).1 h),
    fun f hf hlo hhi => convert16_of_inside hf ((lt_eq_false_iff f clampLower).1 hlo) ((lt_eq_false_iff clampUpper f).1 hhi),
    fun f hf => ⟨(convert16_eq_max_iff hf).trans (lt_eq_false_iff f clampUpper).symm,
      (convert16_eq_min_iff hf).trans (lt_eq_false_iff clampLower f).symm⟩⟩

end Sys2Proof.Machine
end

section
/-! The elementwise commands' course through DMEM (spec/42_elementwise.md R150, R157): the word results of the elements are
stored to consecutive elements of D, one after another, each taken from DMEM as it then stands. -/

namespace Sys2Proof.Machine

/-! ### Element by element (R150) -/

/-- DMEM after the first `n` elements, where `g k m` is the result of element `k` with DMEM at `m` (R150). -/
def elementsMem (d : Word) (g : Nat → Memory → Word) (m : Memory) : Nat → Memory
  | 0 => m
  | k + 1 => (elementsMem d g m k).write32 (elemAddr d 4 k) (g k (elementsMem d g m k))

theorem elementsMem_succ (d : Word) (g : Nat → Memory → Word) (m : Memory) (k : Nat) :
    elementsMem d g m (k + 1) = (elementsMem d g m k).write32 (elemAddr d 4 k) (g k (elementsMem d g m k)) := rfl

/-- Element `k`'s result where one source block is read (R154, R155). -/
def mapResult (f : Word → Word) (a : Word) (k : Nat) (m : Memory) : Word := f (m.read32 (elemAddr a 4 k))

/-- Element `k`'s result where two source blocks are read (R153, R156). -/
def zipResult (f : Word → Word → Word) (a b : Word) (k : Nat) (m : Memory) : Word :=
  f (m.read32 (elemAddr a 4 k)) (m.read32 (elemAddr b 4 k))

/-- A command with good operands whose elements each store one word result completes with all of them stored. -/
theorem exec_of_word_results {i : Instr} {body : Body} {d : Word} {g : Nat → Memory → Word} {s : State}
    (hbody : bodyOf i = some body) (hw : i.wellFormed = true) (h : OperandsOk s.cfg.dmemSize i) (hstages : body.stages = 1)
    (hunit : ∀ k x t, ((body.unit k 0 x).run t).2 = t.withMem (t.mem.write32 (elemAddr d 4 k) (g k t.mem))) :
    exec i s = .next (s.completed (elementsMem d g s.mem body.count)) := by
  rw [exec_eq_runCommand hbody hw]
  exact runCommand_of_mem ((validate_bodyOf hbody _).2 h) hstages
    (fun k m => m.write32 (elemAddr d 4 k) (g k m)) hunit (elementsMem d g s.mem) rfl fun k _ => elementsMem_succ d g s.mem k

section
variable {s : State} {d a b x len : Word}

theorem exec_fill (h : OperandsOk s.cfg.dmemSize (.fill d x len)) :
    exec (.fill d x len) s = .next (s.completed (elementsMem d (fun _ _ => x) s.mem len.toNat)) :=
  exec_of_word_results (body := bodyFill d x len) rfl rfl h rfl fun _ _ _ => rfl

theorem exec_sub (h : OperandsOk s.cfg.dmemSize (.sub d a b len)) :
    exec (.sub d a b len) s = .next (s.completed (elementsMem d (zipResult F32.sub a b) s.mem len.toNat)) :=
  exec_of_word_results (body := bodySub d a b len) rfl rfl h rfl fun _ _ _ => rfl

theorem exec_mul (h : OperandsOk s.cfg.dmemSize (.mul d a b len)) :
    exec (.mul d a b len) s = .next (s.completed (elementsMem d (zipResult F32.mul a b) s.mem len.toNat)) :=
  exec_of_word_results (body := bodyMul d a b len) rfl rfl h rfl fun _ _ _ => rfl

theorem exec_scale (h : OperandsOk s.cfg.dmemSize (.scale d a x len)) :
    exec (.scale d a x len) s = .next (s.completed (elementsMem d (mapResult (F32.mul · x) a) s.mem len.toNat)) :=
  exec_of_word_results (body := bodyScale d a x len) rfl rfl h rfl fun _ _ _ => rfl

theorem exec_offset (h : OperandsOk s.cfg.dmemSize (.offset d a x len)) :
    exec (.offset d a x len) s = .next (s.completed (elementsMem d (mapResult (F32.add · x) a) s.mem len.toNat)) :=
  exec_of_word_results (body := bodyOffset d a x len) rfl rfl h rfl fun _ _ _ => rfl

end

/-- Settles O24: DMEM goes through `elementsMem`, whose steps are those of R153 and R156. SUB and MUL validate the same operands. -/
theorem twoSourceCommandsComplete : Obligations.TwoSourceCommandsComplete := fun s d a b _ h =>
  ⟨⟨elementsMem d (zipResult F32.sub a b) s.mem, rfl, fun k _ => elementsMem_succ d _ s.mem k, exec_sub h⟩,
    ⟨elementsMem d (zipResult F32.mul a b) s.mem, rfl, fun k _ => elementsMem_succ d _ s.mem k, exec_mul h⟩⟩

/-- Settles O25: DMEM goes through `elementsMem`, whose steps are those of R154 and R155. SCALE and OFFSET validate the same
operands. -/
theorem scalarCommandsComplete : Obligations.ScalarCommandsComplete := fun s d a x _ h =>
  ⟨⟨elementsMem d (mapResult (F32.mul · x) a) s.mem, rfl, fun k _ => elementsMem_succ d _ s.mem k, exec_scale h⟩,
    ⟨elementsMem d (mapResult (F32.add · x) a) s.mem, rfl, fun k _ => elementsMem_succ d _ s.mem k, exec_offset h⟩⟩

/-! ### What the elements leave in DMEM (R152, R157, R241) -/

section
variable {d : Word} {g : Nat → Memory → Word} (m : Memory)

/-- Elements `i` to `n - 1` store to D + 4i up to D + 4n alone: what lies before or behind reads as before them. -/
theorem elementsMem_readByte {i n y : Nat} (hin : i ≤ n) (h : y < d.toNat + 4 * i ∨ d.toNat + 4 * n ≤ y) :
    (elementsMem d g m n).readByte y = (elementsMem d g m i).readByte y := by
  induction n, hin using Nat.le_induction with
  | base => rfl
  | succ n hin ih =>
    rw [elementsMem_succ, Memory.write32, Memory.readByte_writeLE_of_outside, ih (by omega)]
    simp only [elemAddr]
    omega

/-- Result `k` stays as it was stored: no later result is stored over it. -/
theorem elementsMem_result {k n : Nat} (hk : k < n) :
    (elementsMem d g m n).read32 (elemAddr d 4 k) = g k (elementsMem d g m k) := by
  have hkept : (elementsMem d g m n).read32 (elemAddr d 4 k) = (elementsMem d g m (k + 1)).read32 (elemAddr d 4 k) :=
    Memory.read32_congr _ _ _ fun j hj => elementsMem_readByte m hk (.inl (by simp only [elemAddr]; omega))
  rw [hkept, elementsMem_succ, Memory.read32_write32_self]

/-- A source block that is the destination block or apart from it still holds its element `k` when that element is read. -/
theorem elementsMem_source {a : Word} {k n : Nat} (hk : k < n) (h : SameOrApart d a (4 * n)) :
    (elementsMem d g m k).read32 (elemAddr a 4 k) = m.read32 (elemAddr a 4 k) :=
  Memory.read32_congr _ _ _ fun j hj => elementsMem_readByte m k.zero_le (by
    simp only [elemAddr]
    obtain rfl | h := h <;> omega)

theorem elementsMem_mapResult {f : Word → Word} {a : Word} {k n : Nat} (ha : SameOrApart d a (4 * n)) (hk : k < n) :
    (elementsMem d (mapResult f a) m n).read32 (elemAddr d 4 k) = mapResult f a k m := by
  rw [elementsMem_result m hk, mapResult, elementsMem_source m hk ha, mapResult]

theorem elementsMem_zipResult {f : Word → Word → Word} {a b : Word} {k n : Nat} (ha : SameOrApart d a (4 * n))
    (hb : SameOrApart d b (4 * n)) (hk : k < n) :
    (elementsMem d (zipResult f a b) m n).read32 (elemAddr d 4 k) = zipResult f a b k m := by
  rw [elementsMem_result m hk, zipResult, elementsMem_source m hk ha, elementsMem_source m hk hb, zipResult]

end

/-- Settles O23: FILL's result is SCALAR at every element, and its elements lie in D's block. -/
theorem fillCompletes : Obligations.FillCompletes := fun s _ _ _ h =>
  ⟨_, exec_fill h, fun _ hk => elementsMem_result s.mem hk, fun _ hy => elementsMem_readByte s.mem (Nat.zero_le _) hy⟩

/-- SCALE validates two of SUB's three operands (R95). -/
theorem operandsOk_scale_of_sub {size : Nat} {d a b len : Word} (x : Word) (h : OperandsOk size (.sub d a b len)) :
    OperandsOk size (.scale d a x len) := by
  simp only [OperandsOk, operandTable, List.forall_mem_cons] at h ⊢
  obtain ⟨ha, -, hd⟩ := h
  exact ⟨ha, hd⟩

/-- Settles O26: each result is the operation on source elements read as they were before the command. -/
theorem elementwiseResultsApart : Obligations.ElementwiseResultsApart := fun s _ _ _ x _ h ha hb =>
  have hscale := operandsOk_scale_of_sub x h
  ⟨⟨_, exec_sub h, fun _ => elementsMem_zipResult s.mem ha hb⟩, ⟨_, exec_mul h, fun _ => elementsMem_zipResult s.mem ha hb⟩,
    ⟨_, exec_scale hscale, fun _ => elementsMem_mapResult s.mem ha⟩,
    ⟨_, exec_offset hscale, fun _ => elementsMem_mapResult s.mem ha⟩⟩

end Sys2Proof.Machine
end

section
/-! BQINIT's zeros and BIQUAD's course through DMEM (spec/43_biquad.md R170, R171, R173). -/

namespace Sys2Proof.Machine

/-! ### BQINIT (R171) -/

/-- A zero word stored is four zero bytes. -/
theorem Memory.readByte_write32_zero (m : Memory) (a y : Nat) :
    (m.write32 a 0).readByte y = if a ≤ y ∧ y < a + 4 then 0 else m.readByte y := by
  rw [write32]
  split
  · rw [show y = a + (y - a) by omega, readByte_writeLE _ _ _ _ _ (by omega)]
    exact congrArg (BitVec.ofNat 8) (Nat.zero_div _)
  · exact readByte_writeLE_of_outside _ _ _ _ _ (by omega)

/-- `n` zero words stored one after another are 4n zero bytes. -/
theorem elementsMem_zero_readByte (d : Word) (m : Memory) (n y : Nat) :
    (elementsMem d (fun _ _ => 0) m n).readByte y =
      if d.toNat ≤ y ∧ y < d.toNat + 4 * n then 0 else m.readByte y := by
  induction n with
  | zero => exact (if_neg (by omega)).symm
  | succ n ih =>
    rw [elementsMem_succ, Memory.readByte_write32_zero, ih, ← ite_or]
    exact if_congr (by simp only [elemAddr]; omega) rfl rfl

theorem exec_bqinit {s : State} {v : Word} {nst : BitVec 8} (hn : nst ≠ 0) (h : OperandsOk s.cfg.dmemSize (.bqinit v nst)) :
    exec (.bqinit v nst) s = .next (s.completed (elementsMem v (fun _ _ => 0) s.mem (4 * nst.toNat))) :=
  exec_of_word_results (body := bodyBqinit v nst) rfl (by simpa [Instr.wellFormed] using hn) h rfl fun _ _ _ => rfl

/-- Settles O27: the state vector is 4*NST words, each stored as zero. -/
theorem bqinitZeroesState : Obligations.BqinitZeroesState := fun s _ _ hn h =>
  ⟨_, exec_bqinit hn h, fun _ => by rw [elementsMem_zero_readByte, ← Nat.mul_assoc]⟩

/-! ### One stage (R173) -/

/-- DMEM and the value in hand after stage `i`, from those before it: the state is shifted in DMEM, and y0 goes on. -/
def stageResult (c v : Word) (i : Nat) (r : Memory × Word) : Memory × Word :=
  let cb := elemAddr c 20 i
  let sb := elemAddr v 16 i
  let x1 := r.1.read32 sb
  let y1 := r.1.read32 (sb + 8)
  let y0 := biquadOutput (r.1.read32 cb) (r.1.read32 (cb + 4)) (r.1.read32 (cb + 8)) (r.1.read32 (cb + 12))
    (r.1.read32 (cb + 16)) r.2 x1 (r.1.read32 (sb + 4)) y1 (r.1.read32 (sb + 12))
  ((((r.1.write32 sb r.2).write32 (sb + 4) x1).write32 (sb + 8) y0).write32 (sb + 12) y1, y0)

/-- A stage's actions leave `stageResult`, and what follows runs on it. -/
theorem biquadStage_run (c v : Word) (i : Nat) (x : Word) (next : Word → Prog) (s : State) :
    (biquadStage (elemAddr c 20 i) (elemAddr v 16 i) x next).run s =
      (next (stageResult c v i (s.mem, x)).2).run (s.withMem (stageResult c v i (s.mem, x)).1) := rfl

/-- The input of stage `i` of sample `k`: the sample itself for the first stage, else the value the stage before handed on. -/
def stageInput (a : Word) (k i : Nat) (x : Word) (m : Memory) : Word := if i = 0 then m.read32 (elemAddr a 4 k) else x

section
variable (d a c v : Word)

/-- Stage `i` of `n`: `stageResult`, and the last stage's value stored to D. -/
theorem biquadUnit_run (n k i : Nat) (x : Word) (s : State) :
    let r := stageResult c v i (s.mem, stageInput a k i x s.mem)
    (biquadUnit d a c v n k i x).run s =
      (r.2, s.withMem (if i + 1 = n then r.1.write32 (elemAddr d 4 k) r.2 else r.1)) := by
  have hstage (x0 : Word) : (biquadStage (elemAddr c 20 i) (elemAddr v 16 i) x0 fun t =>
      if i + 1 = n then .write (elemAddr d 4 k) 4 t.toNat (.ret t) else .ret t).run s =
        let r := stageResult c v i (s.mem, x0)
        (r.2, s.withMem (if i + 1 = n then r.1.write32 (elemAddr d 4 k) r.2 else r.1)) := by
    rw [biquadStage_run]
    by_cases hlast : i + 1 = n
    · simp only [if_pos hlast]; rfl
    · simp only [if_neg hlast]; rfl
  by_cases hfirst : i = 0
  · simp only [biquadUnit, stageInput, if_pos hfirst]
    exact hstage _
  · simp only [biquadUnit, stageInput, if_neg hfirst]
    exact hstage x

/-! ### Stage by stage and sample by sample (R173) -/

/-- DMEM and the value in hand before stage `i`, from those before stage 0. -/
def cascade (r : Memory × Word) : Nat → Memory × Word
  | 0 => r
  | i + 1 => stageResult c v i (cascade r i)

/-- DMEM and the sample when sample `k` has been read. -/
def sampleRead (k : Nat) (m : Memory) : Memory × Word := (m, m.read32 (elemAddr a 4 k))

/-- DMEM after sample `k` has gone through `n` stages and its output has been stored. -/
def sampleMem (n k : Nat) (m : Memory) : Memory :=
  let r := cascade c v (sampleRead a k m) n
  r.1.write32 (elemAddr d 4 k) r.2

/-- DMEM after the first `k` samples. -/
def biquadMem (n : Nat) (m : Memory) : Nat → Memory
  | 0 => m
  | k + 1 => sampleMem d a c v n k (biquadMem n m k)

variable {d a c v} {nst : BitVec 8} {len : Word}

/-- Stage `i` of sample `k`, started on what the stages before it leave, leads on along the cascade. -/
theorem bodyBiquad_unit_run (s : State) {m : Memory} {k i : Nat} {x : Word}
    (hx : stageInput a k i x (cascade c v (sampleRead a k m) i).1 = (cascade c v (sampleRead a k m) i).2) :
    let r := cascade c v (sampleRead a k m) (i + 1)
    ((bodyBiquad d a c v nst len).unit k i x).run (s.withMem (cascade c v (sampleRead a k m) i).1) =
      (r.2, s.withMem (if i + 1 = nst.toNat then r.1.write32 (elemAddr d 4 k) r.2 else r.1)) := by
  have hunit := biquadUnit_run d a c v nst.toNat k i x (s.withMem (cascade c v (sampleRead a k m) i).1)
  rwa [State.withMem_mem, hx] at hunit

/-- The last `n + 1` stages of sample `k` complete it. -/
theorem bodyBiquad_runStages (s : State) {m : Memory} {k i : Nat} {x : Word} (n : Nat) (hi : i + (n + 1) = nst.toNat)
    (hx : stageInput a k i x (cascade c v (sampleRead a k m) i).1 = (cascade c v (sampleRead a k m) i).2) :
    (bodyBiquad d a c v nst len).runStages k i (n + 1) x (s.withMem (cascade c v (sampleRead a k m) i).1) =
      s.withMem (sampleMem d a c v nst.toNat k m) := by
  induction n generalizing i x with
  | zero =>
    rw [Body.runStages, bodyBiquad_unit_run s hx, if_pos hi, sampleMem, ← hi]
    rfl
  | succ n ih =>
    rw [Body.runStages, bodyBiquad_unit_run s hx, if_neg (by omega)]
    exact ih (by omega) (if_neg i.succ_ne_zero)

end

/-- Elements that each lead from one state of a sequence to the next make up Execute. -/
theorem Body.execute_of_elems (b : Body) (st : Nat → State)
    (h : ∀ k < b.count, b.runStages k 0 b.stages 0 (st k) = st (k + 1)) : b.execute (st 0) = st b.count := by
  have elems (n k : Nat) (hk : k + n = b.count) : b.runElems k n (st k) = st b.count := by
    induction n generalizing k with
    | zero => exact congrArg st hk
    | succ n ih => rw [runElems, h k (by omega), ih (k + 1) (by omega)]
  exact elems b.count 0 b.count.zero_add

theorem exec_biquad {s : State} {d a c v len : Word} {nst : BitVec 8} (hn : nst ≠ 0)
    (h : OperandsOk s.cfg.dmemSize (.biquad d a c v nst len)) :
    exec (.biquad d a c v nst len) s = .next (s.completed (biquadMem d a c v nst.toNat s.mem len.toNat)) := by
  have hpos : nst.toNat ≠ 0 := fun h0 => hn (BitVec.eq_of_toNat_eq h0)
  obtain ⟨n, hstages⟩ := Nat.exists_eq_succ_of_ne_zero hpos
  have hexec := (bodyBiquad d a c v nst len).execute_of_elems
    (fun k => s.withMem (biquadMem d a c v nst.toNat s.mem k)) fun k _ => by
      rw [show (bodyBiquad d a c v nst len).stages = n + 1 from hstages]
      exact bodyBiquad_runStages s n (by omega) rfl
  rw [exec_of_ok (b := bodyBiquad d a c v nst len) rfl (by simpa [Instr.wellFormed] using hn) h]
  exact congrArg (fun t : State => Host.Outcome.next t.complete) hexec

/-- DMEM and the value in hand before stage `i` of sample `k`. -/
def biquadCourse (d a c v : Word) (n : Nat) (m : Memory) (k i : Nat) : Memory × Word :=
  cascade c v (sampleRead a k (biquadMem d a c v n m k)) i

/-- Settles O28: DMEM and the stages' inputs are those of `biquadCourse`, whose steps are R173's. -/
theorem biquadCompletes : Obligations.BiquadCompletes := fun s d a c v nst _ hn h =>
  ⟨fun k i => (biquadCourse d a c v nst.toNat s.mem k i).1, fun k i => (biquadCourse d a c v nst.toNat s.mem k i).2,
    rfl, fun _ _ => rfl, fun _ _ _ _ => ⟨rfl, rfl⟩, fun _ _ => rfl, exec_biquad hn h⟩

end Sys2Proof.Machine
end

section
/-! The identity section (spec/43_biquad.md R175): 1.0 times the input, then sums with the products of +0.0 and the state. -/

namespace Sys2Proof.F32

/-! ### The canonical NaN goes on (R10) -/

theorem isNaN_qNaN : isNaN qNaN = true := rfl

@[simp] theorem add_qNaN_left (b : Word) : add qNaN b = qNaN := add_of_isNaN (.inl isNaN_qNaN)

@[simp] theorem sub_qNaN_left (b : Word) : sub qNaN b = qNaN := add_qNaN_left _

@[simp] theorem add_qNaN_right (a : Word) : add a qNaN = qNaN := add_of_isNaN (.inr isNaN_qNaN)

@[simp] theorem sub_qNaN_right (a : Word) : sub a qNaN = qNaN :=
  add_of_isNaN (.inr ((isNaN_neg qNaN).trans isNaN_qNaN))

/-! ### Multiplying by 1.0 and by +0.0 -/

/-- The significand of 1.0 is a power of two, so the product is the magnitude itself on the finer scale. -/
theorem mul_posOne {x : Word} (hx : isNaN x = false) : mul 0x3F800000#32 x = x := by
  have hmag : mag 0x3F800000#32 = 2 ^ 149 := rfl
  have hsign : (sign 0x3F800000#32 != sign x) = sign x := Bool.false_bne _
  obtain hinf | hfin := isInf_or_isFinite hx
  · rw [mul_isFinite_isInf rfl hinf, if_neg (by rw [hmag]; decide), ← inf_xor, hsign, inf, ← (isInf_iff_low x).1 hinf,
      pack_sign_low]
  · rw [mul_of_finite rfl hfin, hmag, hsign, mag_eq, Nat.mul_comm, roundMag_magOf 149 (low_lt_of_isFinite hfin), pack_sign_low]

/-- +0.0 or -0.0. -/
def IsZero (z : Word) : Prop := z = 0 ∨ z = 0x80000000#32

theorem IsZero.neg {z : Word} (hz : IsZero z) : IsZero (F32.neg z) := by
  obtain rfl | rfl := hz
  · exact .inr rfl
  · exact .inl rfl

theorem mag_posZero : mag 0 = 0 := rfl

/-- +0.0 times a finite pattern is a zero of its sign. -/
theorem isZero_mul_posZero {w : Word} (hw : isFinite w = true) : IsZero (mul 0 w) := by
  have hround : roundMag 149 0 = 0 := rfl
  rw [mul_of_finite rfl hw, mag_posZero, Nat.zero_mul, hround]
  cases sign w
  · exact .inl rfl
  · exact .inr rfl

/-- +0.0 times an infinity is invalid (R10). -/
theorem mul_posZero_of_not_finite {w : Word} (hw : isFinite w = false) : mul 0 w = qNaN := by
  cases hnan : isNaN w with
  | true => exact mul_of_isNaN (.inr hnan)
  | false =>
    obtain hinf | hfin := isInf_or_isFinite hnan
    · rw [mul_isFinite_isInf rfl hinf, if_pos mag_posZero]
    · rw [hw] at hfin
      cases hfin

/-! ### Adding zeros -/

/-- `y` is `x`, but that -0.0 may have become +0.0. -/
def SameUpToZeroSign (x y : Word) : Prop := y = x ∨ x = 0x80000000#32 ∧ y = 0

theorem add_posZero {x : Word} (hx : isNaN x = false) : SameUpToZeroSign x (add x 0) := by
  have hval : val 0 = 0 := rfl
  have hsign : sign 0 = false := rfl
  obtain hinf | hfin := isInf_or_isFinite hx
  · exact .inl (add_isInf_isFinite hinf rfl)
  rw [add_of_finite hfin rfl, hval, hsign, Bool.and_false, add_zero]
  by_cases hzero : val x = 0
  · have hlow : low x = 0 := by rwa [val_eq_zero_iff, mag_eq, magOf_eq_zero_iff] at hzero
    rw [hzero, ← pack_sign_low x, hlow]
    cases sign x
    · exact .inl rfl
    · exact .inr ⟨rfl, rfl⟩
  · left
    rw [roundSum_of_ne_zero _ hzero, ← roundSum_of_ne_zero (sign x) hzero, roundSum_val hfin]

/-- Adding a zero to a pattern that is `x` or +0.0 for -0.0 gives one that is so still. -/
theorem SameUpToZeroSign.add_zero {x y z : Word} (hx : isNaN x = false) (h : SameUpToZeroSign x y) (hz : IsZero z) :
    SameUpToZeroSign x (add y z) := by
  obtain rfl | ⟨rfl, rfl⟩ := h
  · obtain rfl | rfl := hz
    · exact add_posZero hx
    · exact .inl (add_negZero hx)
  · obtain rfl | rfl := hz
    · exact .inr ⟨rfl, rfl⟩
    · exact .inr ⟨rfl, rfl⟩

theorem SameUpToZeroSign.sub_zero {x y z : Word} (hx : isNaN x = false) (h : SameUpToZeroSign x y) (hz : IsZero z) :
    SameUpToZeroSign x (sub y z) := h.add_zero hx hz.neg

/-! ### The identity section (R175) -/

section
variable {x x1 x2 y1 y2 : Word}

theorem identitySection_of_finite (hx : isNaN x = false) (hx1 : isFinite x1 = true) (hx2 : isFinite x2 = true)
    (hy1 : isFinite y1 = true) (hy2 : isFinite y2 = true) :
    SameUpToZeroSign x (Machine.biquadOutput 0x3F800000#32 0 0 0 0 x x1 x2 y1 y2) := by
  have h0 : SameUpToZeroSign x (mul 0x3F800000#32 x) := .inl (mul_posOne hx)
  have h1 := h0.add_zero hx (isZero_mul_posZero hx1)
  have h2 := h1.add_zero hx (isZero_mul_posZero hx2)
  have h3 := h2.sub_zero hx (isZero_mul_posZero hy1)
  exact h3.sub_zero hx (isZero_mul_posZero hy2)

/-- The term that is a NaN makes every sum after it one. -/
theorem identitySection_of_not_finite
    (h : isFinite x1 = false ∨ isFinite x2 = false ∨ isFinite y1 = false ∨ isFinite y2 = false) :
    Machine.biquadOutput 0x3F800000#32 0 0 0 0 x x1 x2 y1 y2 = qNaN := by
  simp only [Machine.biquadOutput]
  obtain h | h | h | h := h
  · simp only [mul_posZero_of_not_finite h, add_qNaN_right, add_qNaN_left, sub_qNaN_left]
  · simp only [mul_posZero_of_not_finite h, add_qNaN_right, sub_qNaN_left]
  · simp only [mul_posZero_of_not_finite h, sub_qNaN_right, sub_qNaN_left]
  · simp only [mul_posZero_of_not_finite h, sub_qNaN_right]

theorem identitySection_of_isNaN (hx : isNaN x = true) :
    Machine.biquadOutput 0x3F800000#32 0 0 0 0 x x1 x2 y1 y2 = qNaN := by
  have hmul : mul 0x3F800000#32 x = qNaN := mul_of_isNaN (.inr hx)
  simp only [Machine.biquadOutput, hmul, add_qNaN_left, sub_qNaN_left]

end

/-- Settles O29, by class of the state and of the input. -/
theorem identitySection : Obligations.IdentitySection := by
  refine fun x x1 x2 y1 y2 => ⟨fun h hx => ?_, fun h => ?_, identitySection_of_isNaN⟩
  · simp only [Bool.and_eq_true] at h
    obtain ⟨⟨⟨hx1, hx2⟩, hy1⟩, hy2⟩ := h
    exact identitySection_of_finite hx hx1 hx2 hy1 hy2
  · simp only [Bool.and_eq_false_iff, or_assoc] at h
    exact identitySection_of_not_finite h

end Sys2Proof.F32
end

section
/-! SSHR, the saturating arithmetic right shift (spec/44_saturating_shift.md R190 to R192). -/

namespace Sys2Proof.Machine

/-! ### The result as an integer (R191) -/

/-- The divisor is positive, so the floor is the Euclidean quotient. -/
theorem shiftValue_eq (v : Int) (sh : BitVec 5) (bw : BitVec 6) :
    shiftValue v sh bw =
      if bw.toNat < 32 then clampInt (v / 2 ^ sh.toNat) (-(2 ^ (bw.toNat - 1))) (2 ^ (bw.toNat - 1) - 1)
      else v / 2 ^ sh.toNat := by
  rw [shiftValue, Int.fdiv_eq_ediv_of_nonneg v (by positivity)]

/-- The floor is the value of the word shifted right with its sign, so it is a signed 32-bit integer. -/
theorem toInt_ediv_pow_bounds (v : Word) (n : Nat) : -2 ^ 31 ≤ v.toInt / 2 ^ n ∧ v.toInt / 2 ^ n < 2 ^ 31 := by
  have hshift : (v.sshiftRight n).toInt = v.toInt / 2 ^ n := by
    rw [BitVec.toInt_sshiftRight, Int.shiftRight_eq_div_pow, Nat.cast_pow, Nat.cast_ofNat]
  rw [← hshift]
  exact ⟨BitVec.le_toInt _, BitVec.toInt_lt⟩

/-- A clamp to BW bits keeps the result a signed 32-bit integer, so `r mod 2^32` loses nothing. -/
theorem saturatingShift_toInt (v : Word) (sh : BitVec 5) (bw : BitVec 6) :
    (saturatingShift v sh bw).toInt = shiftValue v.toInt sh bw := by
  obtain ⟨hlo, hhi⟩ := toInt_ediv_pow_bounds v sh.toNat
  have hpos : (0 : Int) < 2 ^ (bw.toNat - 1) := by positivity
  obtain ⟨hmin, hmax⟩ : -2 ^ 31 ≤ shiftValue v.toInt sh bw ∧ shiftValue v.toInt sh bw < 2 ^ 31 := by
    rw [shiftValue_eq]
    split
    · rw [clampInt]
      omega
    · exact ⟨hlo, hhi⟩
  exact BitVec.toInt_ofInt_eq_self (by decide) hmin hmax

/-! ### R192 -/

section
variable {v w : Int} {sh : BitVec 5} {bw : BitVec 6}

/-- R192 (1): nothing is clamped inside the range, nor where BW is 32 or more. -/
theorem shiftValue_of_inside
    (h : (-(2 ^ (bw.toNat - 1)) ≤ v / 2 ^ sh.toNat ∧ v / 2 ^ sh.toNat ≤ 2 ^ (bw.toNat - 1) - 1) ∨ 32 ≤ bw.toNat) :
    shiftValue v sh bw = v / 2 ^ sh.toNat := by
  rw [shiftValue_eq]
  split
  · rw [clampInt]
    omega
  · rfl

/-- R192 (2), the lower bound. -/
theorem shiftValue_of_below (hbw : bw.toNat < 32) (h : v / 2 ^ sh.toNat < -(2 ^ (bw.toNat - 1))) :
    shiftValue v sh bw = -(2 ^ (bw.toNat - 1)) := by
  have hpos : (0 : Int) < 2 ^ (bw.toNat - 1) := by positivity
  rw [shiftValue_eq, if_pos hbw, clampInt]
  omega

/-- R192 (2), the upper bound. -/
theorem shiftValue_of_above (hbw : bw.toNat < 32) (h : 2 ^ (bw.toNat - 1) - 1 < v / 2 ^ sh.toNat) :
    shiftValue v sh bw = 2 ^ (bw.toNat - 1) - 1 := by
  rw [shiftValue_eq, if_pos hbw, clampInt]
  omega

/-- R192 (3): the floor and the clamp are both monotone. -/
theorem shiftValue_mono (h : v ≤ w) : shiftValue v sh bw ≤ shiftValue w sh bw := by
  have hfloor : v / 2 ^ sh.toNat ≤ w / 2 ^ sh.toNat := Int.ediv_le_ediv (by positivity) h
  rw [shiftValue_eq, shiftValue_eq]
  split
  · simp only [clampInt]
    omega
  · exact hfloor

end

/-- Settles O31: the signed value of the word written is `shiftValue`, which has the three properties of R192. -/
theorem shiftProperties : Obligations.ShiftProperties := by
  intro v w sh bw _
  simp only [saturatingShift_toInt]
  exact ⟨shiftValue_of_inside, fun hbw => ⟨shiftValue_of_below hbw, shiftValue_of_above hbw⟩, shiftValue_mono⟩

/-! ### The command (R190, R191) -/

/-- SSHR is a block command of one element whose result is the shifted word. -/
theorem exec_sshr {s : State} {d a : Word} {sh : BitVec 5} {bw : BitVec 6} (hbw : bw ≠ 0)
    (h : OperandsOk s.cfg.dmemSize (.sshr d a sh bw)) :
    exec (.sshr d a sh bw) s =
      .next (s.completed (s.mem.write32 d.toNat (saturatingShift (s.mem.read32 a.toNat) sh bw))) :=
  exec_of_word_results (body := bodySshr d a sh bw) (g := mapResult (saturatingShift · sh bw) a) rfl
    (by simpa [Instr.wellFormed] using hbw) h rfl fun _ _ _ => rfl

/-- Settles O30: the word SSHR stores, with its floor read as a Euclidean quotient. -/
theorem sshrCompletes : Obligations.SshrCompletes := by
  intro s d a sh bw hbw h
  rw [exec_sshr hbw h, saturatingShift, shiftValue_eq]
  rfl

end Sys2Proof.Machine
end

section
/-! Faults and the interrupt output (spec/60_exceptions.md): which moves record a fault, what keeps the record (R206, R208), and what
keeps the irq level (R210). -/

namespace Sys2Proof.Machine

/-! ### A fault is recorded (R204, R206) -/

/-- The sequencer sets ERR by trap entry alone, and only during a run (R206). -/
theorem SeqMove.eq_trap_of_err {s t : State} (h : SeqMove s t) (hs : s.status.err = false) (ht : t.status.err = true) :
    s.status.busy = true ∧ ∃ c o a, t = s.trap c o a := by
  cases h with
  | trap hb c o a => exact ⟨hb, c, o, a, rfl⟩
  | _ => exact absurd (hs.symm.trans ht) nofun

/-- No host transaction sets ERR. -/
theorem HostMove.keeps_err_clear {s t : State} {x : HostTxn} (h : HostMove s x t) (hs : s.status.err = false) :
    t.status.err = false := by
  cases h with
  | reset => rfl
  | status w => rw [State.withReply_status, writeStatus, Status.writeW1C_eq, hs, Bool.false_and]
  | _ => exact hs

/-- Away from a command's boundary the sequencer moves by single accesses, given a turn or alone (R121). -/
theorem step_eq_accessStep {s : State} (hx : ∀ x rest, s.turns ≠ .host x :: rest) (hp : s.seq.phase ≠ .fetch 0) :
    step s = accessStep (s.withTurns s.turns.tail) := by
  rcases hturns : s.turns with _ | ⟨⟨⟩ | _, rest⟩
  · have hself : s.withTurns [].tail = s := by rw [List.tail_nil, ← hturns]; rfl
    rw [step_of_no_turns hturns, hself, sequencerStep, if_neg hp]
    split
    · rfl
    · rw [accessStep, if_neg ‹_›]
  · exact absurd hturns (hx _ _)
  · exact step_of_sequencer hturns

/-- A single access that records a fault is a command's first or its decode step, where the hidden state is sound (R204). -/
theorem accessStep_trap_phase {s : State} {c : FaultCode} {o : BitVec 3} {a : Word} (hb : s.status.busy = true)
    (hs : s.status.err = false) (h : accessStep s = .next (s.trap c o a)) (hq : s.seqOk) :
    s.seq.phase = .fetch 0 ∨ s.seq.phase = .decode := by
  obtain ⟨-, -, hend⟩ | ⟨_, _, _, -, hphase⟩ := accessStep_stops hb h rfl
  · have herr : true = s.status.err := congrArg (·.status.err) hend
    exact absurd (herr.trans hs) nofun
  · exact hphase hq

/-- Settles O14: of the moves of both agents only trap entry sets ERR, and Execute's accesses do not trap. -/
theorem faultsArePrecise : Obligations.FaultsArePrecise := by
  intro s t hs h ht
  obtain ⟨x, rest, -, rfl⟩ | ⟨hx, hmove⟩ := step_move h
  · exact absurd (((hostStep_move x (s.withTurns rest)).keeps_err_clear hs).symm.trans ht) nofun
  · obtain ⟨hb, c, o, a, rfl⟩ := hmove.eq_trap_of_err hs ht
    refine ⟨rfl, hb, hx, fun hq => ?_⟩
    by_cases hp : s.seq.phase = .fetch 0
    · exact .inl hp
    · rw [step_eq_accessStep hx hp] at h
      exact accessStep_trap_phase (s := s.withTurns s.turns.tail) hb hs h hq

/-! ### The record stays (R208) -/

/-- While BUSY = 0 the sequencer changes nothing (R132). -/
theorem SeqMove.eq_of_idle {s t : State} (h : SeqMove s t) (hs : s.status.busy = false) : t = s := by
  cases h with
  | stay => rfl
  | _ hb => exact absurd (hb.symm.trans hs) nofun

/-- The host clears a fault's record only by a reset event and by a STATUS write with bit 2 set (R38, R230); a START finds ERR = 1
(R120). -/
theorem HostMove.keeps_fault_or_clears {s t : State} {x : HostTxn} (h : HostMove s x t) (hs : s.status.err = true) :
    (t.status.err = true ∧ t.status.ecode = s.status.ecode ∧ t.status.eopnd = s.status.eopnd ∧
      t.faultaddr = s.faultaddr ∧ t.status.busy = s.status.busy) ∨
    x = .reset ∨ ∃ w : Word, w.getLsbD 2 = true ∧ x = .write (s.cfg.apertureBase + 0x08) 4 w := by
  cases h with
  | reset => exact .inr (.inl rfl)
  | start w hw hb he => exact absurd (hs.symm.trans he) nofun
  | status w =>
    cases hw : w.getLsbD 2 with
    | true => exact .inr (.inr ⟨w, hw, rfl⟩)
    | false =>
      left
      rw [State.withReply_status, writeStatus, Status.writeW1C_eq, hs, hw]
      exact ⟨rfl, rfl, rfl, rfl, rfl⟩
  | _ => exact .inl ⟨hs, rfl, rfl, rfl, rfl⟩

/-- Settles O54: R49 (2) says that no run is under way, so only the host moves. -/
theorem recordedFaultStays : Obligations.RecordedFaultStays := by
  intro s t hr hs
  have hb : s.status.busy = false := Bool.eq_false_iff.2 fun hb => absurd ((hr.busy hb).1.symm.trans hs) nofun
  refine ⟨hb, fun h => ?_⟩
  obtain ⟨x, rest, hx, rfl⟩ | ⟨-, hmove⟩ := step_move h
  · obtain ⟨herr, hecode, heopnd, haddr, hbusy⟩ | rfl | ⟨w, hw, rfl⟩ :=
      (hostStep_move x (s.withTurns rest)).keeps_fault_or_clears hs
    · exact .inl ⟨herr, hecode, heopnd, haddr, hbusy.trans hb⟩
    · exact .inr ⟨rest, .inl hx⟩
    · exact .inr ⟨rest, .inr ⟨w, hw, hx⟩⟩
  · obtain rfl := hmove.eq_of_idle hb
    exact .inl ⟨hs, rfl, rfl, rfl, hb⟩

/-! ### The irq level (R210) -/

theorem State.irq_eq_true_iff (s : State) :
    s.irq = true ↔ s.ctrl.irqen = true ∧ (s.status.done = true ∨ s.status.err = true) := by
  simp [State.irq]

/-- The sequencer never lowers irq: it writes no CTRL, and a run's end only sets DONE or ERR (R129, R206). -/
theorem SeqMove.keeps_irq {s t : State} (h : SeqMove s t) (hs : s.irq = true) : t.irq = true := by
  obtain ⟨hen, -⟩ := s.irq_eq_true_iff.1 hs
  cases h with
  | trap hb c o a => exact (State.irq_eq_true_iff _).2 ⟨hen, .inr rfl⟩
  | endRun hb => exact (State.irq_eq_true_iff _).2 ⟨hen, .inl rfl⟩
  | _ => exact hs

/-- The host lowers irq only by a reset event, by a CTRL write that clears IRQEN or whose START is accepted, and by a STATUS write
that clears DONE or ERR (R35, R38, R120, R230). -/
theorem HostMove.keeps_irq_or_clears {s t : State} {x : HostTxn} (h : HostMove s x t) (hs : s.irq = true) :
    t.irq = true ∨ x = .reset ∨
      (∃ w : Word, (w.getLsbD 2 = false ∨ w.getLsbD 0 = true ∧ s.status.busy = false ∧ s.status.err = false) ∧
        x = .write (s.cfg.apertureBase + 0x04) 4 w) ∨
      ∃ w : Word, (w.getLsbD 1 = true ∨ w.getLsbD 2 = true) ∧ x = .write (s.cfg.apertureBase + 0x08) 4 w := by
  obtain ⟨hen, hend⟩ := s.irq_eq_true_iff.1 hs
  cases h with
  | reset => exact .inr (.inl rfl)
  | ctrl w h =>
    cases hw : w.getLsbD 2 with
    | true => exact .inl ((State.irq_eq_true_iff _).2 ⟨hw, hend⟩)
    | false => exact .inr (.inr (.inl ⟨w, .inl hw, rfl⟩))
  | start w hw hb he => exact .inr (.inr (.inl ⟨w, .inr ⟨hw, hb, he⟩, rfl⟩))
  | status w =>
    by_cases hw : w.getLsbD 1 = true ∨ w.getLsbD 2 = true
    · exact .inr (.inr (.inr ⟨w, hw, rfl⟩))
    · rw [not_or, Bool.not_eq_true, Bool.not_eq_true] at hw
      left
      rw [State.irq_eq_true_iff, State.withReply_status, writeStatus, Status.writeW1C_eq, hw.1, hw.2]
      exact ⟨hen, by simpa using hend⟩
  | _ => exact .inl hs

/-- Settles O51: the level is R210's by definition, and only the host lowers it. -/
theorem irqStaysUntilCleared : Obligations.IrqStaysUntilCleared := by
  refine fun s t _ => ⟨rfl, fun h hs => ?_⟩
  obtain ⟨x, rest, hx, rfl⟩ | ⟨-, hmove⟩ := step_move h
  · obtain hirq | rfl | ⟨w, hw, rfl⟩ | ⟨w, hw, rfl⟩ := (hostStep_move x (s.withTurns rest)).keeps_irq_or_clears hs
    · exact .inl hirq
    · exact .inr ⟨rest, .inl hx⟩
    · exact .inr ⟨rest, .inr (.inl ⟨w, hw, hx⟩)⟩
    · exact .inr ⟨rest, .inr (.inr ⟨w, hw, hx⟩)⟩
  · exact .inl (hmove.keeps_irq hs)

end Sys2Proof.Machine
end

section
/-! Reset and power-up (spec/70_reset_and_hazards.md R230, R231). -/

namespace Sys2Proof.Machine

/-- Settles O50: the host's step is the reset event, which keeps DMEM, the parameters and the later turns alone. -/
theorem resetEventEffect : Obligations.ResetEventEffect := fun _ _ h =>
  ⟨_, step_of_host h, rfl, rfl, rfl, rfl, rfl, rfl, rfl, rfl, rfl, rfl⟩

/-- A power-up leaves the registers as reset does, and DMEM and the parameters as they are given. -/
theorem State.powerUp_inv {c : Config} {m : Memory} (hc : c.wf) (hm : m.wf) (hsize : m.within c.dmemSize) :
    (State.powerUp c m).Inv where
  cfg := hc
  memWf := hm
  memWithin := hsize
  ptrAligned := rfl
  regs := stepKeepsRegisterInvariants.1.of_status_eq rfl
  oneEnd := nofun
  idle := fun _ => rfl
  seqOk := State.seqOk_of_idle rfl

/-- Settles O57: reset is the power-up with R3's default parameters and nothing listed in DMEM. -/
theorem invariantAtReset : Obligations.InvariantAtReset :=
  ⟨State.powerUp_inv (c := .default) (m := []) (by decide) (by decide) nofun, fun _ _ => State.powerUp_inv⟩

end Sys2Proof.Machine
end

section
/-! The number of DMEM accesses of a command after its fetch (spec/70_reset_and_hazards.md R247): element by element, and for BIQUAD
stage by stage. -/

namespace Sys2Proof.Machine

/-! ### The accesses of an element (R247) -/

/-- Where stage `i` of an element makes `g i` accesses, a run of stages makes their sum. -/
theorem Body.traceStages_length {b : Body} {k : Nat} {g : Nat → Nat}
    (h : ∀ i x s, ((b.unit k i x).trace s).length = g i) (i n : Nat) (x : Word) (s : State) :
    (b.traceStages k i n x s).length = ∑ j ∈ Finset.range n, g (i + j) := by
  induction n generalizing i x s with
  | zero => rfl
  | succ n ih =>
    rw [traceStages, List.length_append, h, ih, Finset.sum_range_succ', Nat.add_comm]
    simp only [Nat.add_zero, Nat.add_assoc, Nat.add_comm 1]

/-- Where the one stage of every element makes `L` accesses, Execute makes `L` for each element. -/
theorem Body.traceElems_length_of_one_stage (b : Body) {L : Nat} (hb : b.stages = 1)
    (h : ∀ k i x s, ((b.unit k i x).trace s).length = L) (s : State) :
    (b.traceElems 0 b.count s).length = L * b.count := by
  rw [b.traceElems_length L (fun k s => ?_), Nat.mul_comm]
  rw [traceStages_length (h k), hb, Finset.sum_range_one]

/-- CONV16 reads an element and writes its result, whether or not it sets NV (R142). -/
theorem bodyConv16_unit_trace_length (d a len : Word) (k i : Nat) (x : Word) (s : State) :
    (((bodyConv16 d a len).unit k i x).trace s).length = 2 := by
  simp only [bodyConv16, Prog.trace]
  split <;> rfl

/-- A stage reads five coefficients and four state words, and writes the four state words (R173). -/
theorem biquadStage_trace_length (cb sb : Nat) (x : Word) (next : Word → Prog) {L : Nat}
    (h : ∀ t s, ((next t).trace s).length = L) (s : State) : ((biquadStage cb sb x next).trace s).length = 13 + L := by
  simp only [biquadStage, Prog.trace, List.length_cons, h]
  omega

/-- The accesses of stage `i` of `n`: the first reads the sample, and the last writes the output (R173). -/
def biquadUnitWork (n i : Nat) : Nat := (if i = 0 then 1 else 0) + (13 + if i = n - 1 then 1 else 0)

/-- The actions of a stage make `biquadUnitWork` accesses. -/
theorem biquadUnit_trace_length (d a c v : Word) {n : Nat} (hn : 0 < n) (k i : Nat) (x : Word) (s : State) :
    ((biquadUnit d a c v n k i x).trace s).length = biquadUnitWork n i := by
  have hlast (t : Word) (s : State) :
      ((if i + 1 = n then .write (elemAddr d 4 k) 4 t.toNat (.ret t) else .ret t : Prog).trace s).length =
        if i = n - 1 then 1 else 0 := by
    rw [apply_ite (Prog.trace · s), apply_ite List.length]
    exact if_congr (by omega) rfl rfl
  have hstage (x0 : Word) := biquadStage_trace_length (elemAddr c 20 i) (elemAddr v 16 i) x0 _ hlast
  by_cases hfirst : i = 0
  · simp only [biquadUnit, biquadUnitWork, if_pos hfirst, Prog.trace, List.length_cons, hstage]
    exact Nat.add_comm _ _
  · simp only [biquadUnit, biquadUnitWork, if_neg hfirst, hstage, Nat.zero_add]

/-- A sample's stages make 13 accesses each, with one read before them and one write after them (R247). -/
theorem sum_biquadUnitWork {n : Nat} (hn : 0 < n) : ∑ i ∈ Finset.range n, biquadUnitWork n i = 2 + 13 * n := by
  simp only [biquadUnitWork, Finset.sum_add_distrib, Finset.sum_ite_eq', Finset.mem_range, Finset.sum_const, Finset.card_range,
    smul_eq_mul, if_pos hn, if_pos (Nat.sub_lt hn Nat.one_pos)]
  omega

/-! ### The accesses of a command (R247) -/

/-- BIQUAD makes as many accesses for every sample as its stages together. -/
theorem bodyBiquad_traceElems_length (d a c v len : Word) {nst : BitVec 8} (hn : nst ≠ 0) (s : State) :
    ((bodyBiquad d a c v nst len).traceElems 0 len.toNat s).length = len.toNat * (2 + 13 * nst.toNat) := by
  have hpos : 0 < nst.toNat := Nat.pos_of_ne_zero fun h => hn (BitVec.eq_of_toNat_eq h)
  refine (bodyBiquad d a c v nst len).traceElems_length _ (fun k s => ?_) s
  rw [Body.traceStages_length (biquadUnit_trace_length d a c v hpos k)]
  simp only [Nat.zero_add]
  exact sum_biquadUnitWork hpos

/-- Settles O38: each element of a command of one stage makes the accesses its pseudocode names, and each sample of BIQUAD those
of its stages. -/
theorem workPerCommand : Obligations.WorkPerCommand := by
  intro s i hw
  cases i with
  | endList => rfl
  | conv16 d a len => exact (bodyConv16 d a len).traceElems_length_of_one_stage rfl (bodyConv16_unit_trace_length d a len) s
  | fill d x len => exact ((bodyFill d x len).traceElems_length_of_one_stage rfl (fun _ _ _ _ => rfl) s).trans (Nat.one_mul _)
  | sub d a b len => exact (bodySub d a b len).traceElems_length_of_one_stage rfl (fun _ _ _ _ => rfl) s
  | scale d a x len => exact (bodyScale d a x len).traceElems_length_of_one_stage rfl (fun _ _ _ _ => rfl) s
  | offset d a x len => exact (bodyOffset d a x len).traceElems_length_of_one_stage rfl (fun _ _ _ _ => rfl) s
  | mul d a b len => exact (bodyMul d a b len).traceElems_length_of_one_stage rfl (fun _ _ _ _ => rfl) s
  | bqinit v nst => exact ((bodyBqinit v nst).traceElems_length_of_one_stage rfl (fun _ _ _ _ => rfl) s).trans (Nat.one_mul _)
  | biquad d a c v nst len =>
    exact bodyBiquad_traceElems_length d a c v len (by simpa [Instr.wellFormed] using hw) s
  | sshr d a sh bw => exact (bodySshr d a sh bw).traceElems_length_of_one_stage (L := 2) rfl (fun _ _ _ _ => rfl) s

end Sys2Proof.Machine
end
